-- ==== Sys2Proof/Word.lean ====
section
/-! DEFINITION. The word types of the DMM protocol engine (spec/00_scope.md R7, R9). -/

namespace Sys2Proof

/-- `u8`: one byte of the link, of the ring buffer or of the frame buffer (R9, R39). -/
abbrev Byte := BitVec 8

/-- `u32`/`s32`: the encoder input, the decoder output and the result register (R7 `VALUE_W`). -/
abbrev Word := BitVec 32

/-- A function code, 5 bits (R7 `FC_W`, R60). -/
abbrev FnCode := BitVec 5

/-- An axis identifier, 7 bits (R7 `AXIS_W`, R52). -/
abbrev Axis := BitVec 7

/-- A command word of the host's command port, 48 bits (R63). -/
abbrev Cmd := BitVec 48

end Sys2Proof
end

