-- ==== Sys2Proof/Config.lean ====
section
/-! DEFINITION. The implementation parameters of spec/00_scope.md R7, fixed for the life of an engine
instance, and the values the spec leaves open, which are constants without a body. -/

namespace Sys2Proof

/-- The decode kind of a function code (R7 `DECODE_KIND`, R24 `S.dkind`). -/
inductive Kind where
  | signed
  | unsigned
  deriving DecidableEq, Repr, Inhabited

/-- The configuration of one engine instance: every OPEN parameter of R7.
It is no engine state (R34): no operation changes it.
`decodeKind` has one entry for each of the 32 function codes, so the table is total by its type (R34). -/
structure Params where
  /-- `MAX_PUMPS` (D4). -/
  maxPumps : Nat
  /-- `DECODE_KIND`, entry `F` for function code `F` (D8). -/
  decodeKind : Vector Kind 32
  /-- `FC_MOVE_ABS` (D23). -/
  fcMoveAbs : FnCode
  /-- `FC_ROTATE` (D23). -/
  fcRotate : FnCode
  /-- `FC_ORIGIN` (D23). -/
  fcOrigin : FnCode
  /-- `FC_SET_GAIN` (D23). -/
  fcSetGain : FnCode
  /-- `FC_SET_SPEED` (D23). -/
  fcSetSpeed : FnCode
  /-- `FC_SET_ACCEL` (D23). -/
  fcSetAccel : FnCode
  /-- `FC_ENABLE` (D23). -/
  fcEnable : FnCode
  /-- `FC_DISABLE` (D23). -/
  fcDisable : FnCode
  /-- `ORIGIN_PAYLOAD` (D23). -/
  originPayload : Word
  /-- `ENABLE_PAYLOAD` (D23). -/
  enablePayload : Word
  /-- `DISABLE_PAYLOAD` (D23). -/
  disablePayload : Word
  /-- `PUMP_SLEEP_MS` (D24). -/
  pumpSleepMs : Nat
  deriving DecidableEq, Repr

/-- R7, R8: `MAX_PUMPS` is a natural number and at least 1 (being a `Nat` it is finite). -/
abbrev Params.wf (c : Params) : Prop := 1 ≤ c.maxPumps

namespace Config

/-- `RING_CAP`: 8 bytes of storage, 7 usable (R7, R16). -/
def ringCap : Nat := 8

/-- `FRAME_CAP`: the size of the frame buffer (R7, R20, D9). -/
def frameCap : Nat := 7

/-- `MAX_FRAME_LEN` (R7). -/
def maxFrameLen : Nat := 7

/-- `MIN_FRAME_LEN` (R7). -/
def minFrameLen : Nat := 4

/-- The sentinel a QUERY returns on any outcome but Success: −2^31 (R12, R110, D5). -/
def sentinel : Word := 0x80000000#32

/-- FREE VALUE (U5, R16): what RING slot `i` holds after reset, before PUSH has written it. -/
opaque freeRing : Nat → Byte

/-- FREE VALUE (U5, R20): what FRAME slot `i` holds after reset, before PARSE_BYTE has written it. -/
opaque freeFrame : Nat → Byte

/-- OPEN (D4): `MAX_PUMPS` − 1 of the instance that reset starts; `MAX_PUMPS` is at least 1 (R8). -/
opaque openMaxPumpsPred : Nat

/-- OPEN (D8): `DECODE_KIND` of the instance that reset starts. -/
opaque openDecodeKind : Nat → Kind

/-- OPEN (D23): `FC_MOVE_ABS`. -/
opaque openFcMoveAbs : FnCode

/-- OPEN (D23): `FC_ROTATE`. -/
opaque openFcRotate : FnCode

/-- OPEN (D23): `FC_ORIGIN`. -/
opaque openFcOrigin : FnCode

/-- OPEN (D23): `FC_SET_GAIN`. -/
opaque openFcSetGain : FnCode

/-- OPEN (D23): `FC_SET_SPEED`. -/
opaque openFcSetSpeed : FnCode

/-- OPEN (D23): `FC_SET_ACCEL`. -/
opaque openFcSetAccel : FnCode

/-- OPEN (D23): `FC_ENABLE`. -/
opaque openFcEnable : FnCode

/-- OPEN (D23): `FC_DISABLE`; it may equal `FC_ENABLE` (R121). -/
opaque openFcDisable : FnCode

/-- OPEN (D23): `ORIGIN_PAYLOAD`. -/
opaque openOriginPayload : Word

/-- OPEN (D23): `ENABLE_PAYLOAD`. -/
opaque openEnablePayload : Word

/-- OPEN (D23): `DISABLE_PAYLOAD`. -/
opaque openDisablePayload : Word

/-- OPEN (D24): `PUMP_SLEEP_MS`. -/
opaque openPumpSleepMs : Nat

/-- The parameters of the instance that `State.reset` starts: nothing is known of them but R8. -/
def openParams : Params where
  maxPumps := openMaxPumpsPred + 1
  decodeKind := Vector.ofFn fun i => openDecodeKind i.val
  fcMoveAbs := openFcMoveAbs
  fcRotate := openFcRotate
  fcOrigin := openFcOrigin
  fcSetGain := openFcSetGain
  fcSetSpeed := openFcSetSpeed
  fcSetAccel := openFcSetAccel
  fcEnable := openFcEnable
  fcDisable := openFcDisable
  originPayload := openOriginPayload
  enablePayload := openEnablePayload
  disablePayload := openDisablePayload
  pumpSleepMs := openPumpSleepMs

end Config

end Sys2Proof
end

