-- ==== Sys2Proof/Machine/Operands.lean ====
section
/-! DEFINITION. The operand forms: the fields of a byte, the value codec (spec/41_value_codec.md), the
checksum (spec/42_checksum.md), the frame a command builds, and the clamp of the setter helpers. -/

namespace Sys2Proof.Machine

/-- R11: a start byte has bit 7 = 0; every other byte is a continuation byte. -/
def isStart (b : Byte) : Bool := !b.getLsbD 7

/-- The length code `L`, bits 6:5 of a frame's byte 1 (R53). -/
def lenCode (b : Byte) : Nat := (b.extractLsb' 5 2).toNat

/-- The function code `F`, bits 4:0 of a frame's byte 1 (R53). -/
def codeFc (b : Byte) : FnCode := b.extractLsb' 0 5

/-- The 7 data bits of a byte, bits 6:0 (R45). -/
def group (b : Byte) : BitVec 7 := b.extractLsb' 0 7

/-- A start byte that carries 7 data bits: `0ddddddd` (R51, R52). -/
def startByte (d : BitVec 7) : Byte := d.setWidth 8

/-- A continuation byte that carries 7 data bits: `1ddddddd` (R51). -/
def contByte (d : BitVec 7) : Byte := 0x80#8 ||| d.setWidth 8

/-- R53: `byte1 = 0x80 | (L << 5) | F`. -/
def codeByte (L : BitVec 2) (F : FnCode) : Byte := 0x80#8 ||| (L.setWidth 8 <<< 5) ||| F.setWidth 8

/-- R9 `sext_7` of a byte's data bits. -/
def sext7 (b : Byte) : Word := (group b).signExtend 32

/-- R9 `zext_7` of a byte's data bits. -/
def zext7 (b : Byte) : Word := (group b).setWidth 32

/-- R74 `ENCODE_LEN`: one of the windows that shift `v` right arithmetically by `k` is all 0 or all 1. -/
def fitsAbove (v : Word) (k : Nat) : Bool := v.sshiftRight k == 0#32 || v.sshiftRight k == 0xFFFFFFFF#32

/-- R74: the number of payload groups, 1 to 4. -/
def encodeLen (v : Word) : Nat :=
  if fitsAbove v 6 then 1 else if fitsAbove v 13 then 2 else if fitsAbove v 20 then 3 else 4

/-- R75: the payload byte of group `k` of the value masked to 28 bits. -/
def encodeGroup (v : Word) (k : Nat) : Byte :=
  0x80#8 ||| (((v &&& 0x0FFFFFFF#32) >>> (7 * k)).setWidth 8 &&& 0x7F#8)

/-- R75 `ENCODE`: the groups, the most significant first. -/
def encodeValue (v : Word) : List Byte := (List.range (encodeLen v)).reverse.map (encodeGroup v)

/-- R78, R80: one more group is shifted in at the low end. -/
def accumulate (v : Word) (b : Byte) : Word := (v <<< 7) ||| zext7 b

/-- R78 `DECODE_S` of a payload: its first byte and the rest. -/
def decodeSigned (first : Byte) (rest : List Byte) : Word := rest.foldl accumulate (sext7 first)

/-- R80 `DECODE_U` of a payload: its first byte and the rest. -/
def decodeUnsigned (first : Byte) (rest : List Byte) : Word := rest.foldl accumulate (zext7 first)

/-- R85, R86: the sum of bytes modulo 256. -/
def sumBytes (l : List Byte) : Byte := l.foldl (· + ·) 0#8

/-- R85 `CKGEN`. -/
def ckGen (body : List Byte) : Byte := sumBytes body ||| 0x80#8

/-- R86 `CKVER` of the frame `body ++ [ck]`. -/
def ckVer (body : List Byte) (ck : Byte) : Bool := (sumBytes body ^^^ ck) &&& 0x7F#8 == 0#8

/-- R105: a frame before its checksum: the axis byte, the code byte and the payload. -/
def frameBody (F : FnCode) (A : Axis) (v : Word) : List Byte :=
  startByte A :: codeByte (BitVec.ofNat 2 (encodeLen v - 1)) F :: encodeValue v

/-- R105: the whole frame, its checksum byte last. -/
def buildFrame (F : FnCode) (A : Axis) (v : Word) : List Byte :=
  frameBody F A v ++ [ckGen (frameBody F A v)]

/-- R9 `clamp(x, lo, hi)`, compared as signed integers. -/
def clamp (x lo hi : Word) : Word := if x.slt lo then lo else if hi.slt x then hi else x

/-- R117: the clamp of the gain, speed and accel setters, to [1, 127]. -/
def clampSetter (x : Word) : Word := clamp x 1#32 127#32

/-- R82: the decode kind of a function code. -/
def kindOf (c : Params) (F : FnCode) : Kind := c.decodeKind.get F.toFin

end Sys2Proof.Machine
end

