-- ==== Sys2Proof/Syntax.lean ====
section
/-! DEFINITION. The instructions: one constructor for each row of spec/opcode_table.json, and the lines of
the assembler syntax of spec/30_encoding.md R65. -/

namespace Sys2Proof

/-- Every row of the opcode table: the command-port operations (R64), the parser's byte paths (R91, R94),
the internal operations and the helper pseudo-operations (R66). -/
inductive Instr where
  /-- SEND fc, axis, value (R106). -/
  | send (fc : FnCode) (axis : Axis) (value : Word)
  /-- QUERY fc, axis: the issue step (R107). -/
  | query (fc : FnCode) (axis : Axis)
  /-- PUMP: the host's own pump (R112). -/
  | pump
  /-- A command word with op = 3; `rest` is its bits 47:2 (R130). -/
  | reservedOp3 (rest : BitVec 46)
  /-- PARSE_BYTE of a start byte `0ddddddd` (R92). -/
  | parseStart (data : BitVec 7)
  /-- PARSE_BYTE of a continuation byte `1ddddddd` (R93). -/
  | parseCont (data : BitVec 7)
  /-- A code byte with length code 0, `100fffff` (R94). -/
  | frame4 (fc : FnCode)
  /-- A code byte with length code 1, `101fffff` (R94). -/
  | frame5 (fc : FnCode)
  /-- A code byte with length code 2, `110fffff` (R94). -/
  | frame6 (fc : FnCode)
  /-- A code byte with length code 3, `111fffff` (R94). -/
  | frame7 (fc : FnCode)
  /-- PUSH(b) (R68). -/
  | push (b : Byte)
  /-- POP() (R70). -/
  | pop
  /-- ENCODE(v) (R74, R75). -/
  | encode (v : Word)
  /-- DECODE_S of the frame held in FRAME (R78). -/
  | decodeS
  /-- DECODE_U of the frame held in FRAME (R80). -/
  | decodeU
  /-- DECODE of the frame held in FRAME, by `DECODE_KIND` (R82). -/
  | decode
  /-- CKGEN of the first N−1 bytes of a frame (R85). -/
  | ckgen (body : List Byte)
  /-- CKVER of a whole frame: its first N−1 bytes and its last, the received checksum (R86). -/
  | ckver (body : List Byte) (ck : Byte)
  /-- COMPLETE() (R96 to R99). -/
  | complete
  /-- PUMP_BODY() (R100). -/
  | pumpBody
  /-- DRAIN() (R102). -/
  | drain
  /-- BUILD_AND_SEND(F, A, v) (R105). -/
  | buildAndSend (fc : FnCode) (axis : Axis) (value : Word)
  /-- QUERY_WAIT(): one wait step of the pending QUERY (R108, R109). -/
  | queryWait
  /-- QUERY_FINISH() (R110). -/
  | queryFinish
  /-- STATUS_DECODE(v) (R122). -/
  | statusDecode (v : Word)
  /-- ALARM_CLASS(alarm) (R123). -/
  | alarmClass (alarm : BitVec 3)
  /-- MOVEABS axis, pos (R114). -/
  | moveabs (axis : Axis) (pos : Word)
  /-- ROTATE axis, v (R115). -/
  | rotate (axis : Axis) (v : Word)
  /-- ORIGIN axis (R116). -/
  | origin (axis : Axis)
  /-- SETGAIN axis, g (R117). -/
  | setgain (axis : Axis) (g : Word)
  /-- SETSPEED axis, s (R118). -/
  | setspeed (axis : Axis) (v : Word)
  /-- SETACCEL axis, a (R119). -/
  | setaccel (axis : Axis) (a : Word)
  /-- ENABLE axis (R120). -/
  | enable (axis : Axis)
  /-- DISABLE axis (R121). -/
  | disable (axis : Axis)
  deriving DecidableEq, Repr

/-- A line of the assembler syntax of R65 and R66, its operands as written: any integer.
`rx` states the bytes the transport offers at the next drain; it is no operation of the block. -/
inductive AsmLine where
  | send (fc axis value : Int)
  | query (fc axis : Int)
  | pump
  | moveabs (axis pos : Int)
  | rotate (axis v : Int)
  | origin (axis : Int)
  | setgain (axis g : Int)
  | setspeed (axis v : Int)
  | setaccel (axis a : Int)
  | enable (axis : Int)
  | disable (axis : Int)
  | rx (bytes : List Byte)
  deriving DecidableEq, Repr

end Sys2Proof
end

