-- ==== Sys2Proof/Machine/State.lean ====
section
/-! DEFINITION. The state record of spec/10_state.md R15, as plain data, with the two agents beside the engine
(the host's actions, the transport's drains) and the model's own records; the reasons a run can stop; reset. -/

namespace Sys2Proof.Machine

/-- One internal address space, RING or FRAME (spec/20_memory.md R37): the bytes written since reset, by rising
index.  An index not listed has not been written since reset (log entry 2). -/
abbrev Memory := List Host.Cell

/-- The Protocol Outcome (R23, R61). -/
inductive ProtocolOutcome where
  | inProgress
  | success
  | checksumError
  | timeoutError
  deriving DecidableEq, Repr

/-- The ring buffer (R16 to R18). -/
structure RingBuf where
  buf : Memory
  head : Fin 8
  tail : Fin 8
  deriving DecidableEq, Repr

/-- The frame buffer, its byte counter and the expected frame length (R20 to R22). -/
structure FrameBuf where
  buf : Memory
  count : Fin 8
  expected : Fin 8
  deriving DecidableEq, Repr

/-- The report events of the display interface (R101). -/
inductive Report where
  | value (fc : FnCode) (kind : Kind) (value : Word)
  | checksumErr
  deriving DecidableEq, Repr

/-- What the outside does next.  `command w` presents a command word (R63); `read p` reads port `p` (R31);
`offer bytes` is the test harness's RX line (R65): the transport has one more list for the drains to come (R47);
`idle` presents nothing for one step, which lets a pending QUERY run; `restart` is a process restart, which
makes a new engine instance (R142, R143). -/
inductive HostAction where
  | command (w : Cmd)
  | read (port : Nat)
  | offer (bytes : List Byte)
  | idle
  | restart
  deriving DecidableEq, Repr

/-- The fields of a status value (R62, R122, R123). -/
structure StatusView where
  inPosition : Bool
  engaged : Bool
  alarm : BitVec 3
  motionBusy : Bool
  ioPin : Bool
  alarmFatal : Bool
  alarmAdvisory : Bool
  deriving DecidableEq, Repr

/-- The value an internal operation returns to its caller, when it is run on its own (log entry 5). -/
inductive Ret where
  | nothing
  | flag (b : Bool)
  | popped (b : Option Byte)
  | byte (b : Byte)
  | bytes (l : List Byte)
  | value (v : Word)
  | decoded (v : Word) (k : Kind)
  | status (v : StatusView)
  | alarm (fatal advisory : Bool)
  deriving DecidableEq, Repr

/-- The registers of the read port that can be unwritten (R31, R35). -/
inductive Reg where
  | result
  | dvalue
  | dfc
  | status
  deriving DecidableEq, Repr

/-- The faults: a run that ends in one is never final (R10). -/
inductive Fault where
  /-- R35, R113, R154: `raise Fault(ReadUnwritten(reg))`, raised by a host read of RESULT, DVALUE, DFC or STATUS while
  unwritten, and by no instruction.  The spec's own fault; safe. -/
  | readUnwritten (reg : Reg)
  /-- R131: raised by the transport's `readByte` with no byte available.  The engine never asks for it; safe. -/
  | readUnavailable
  /-- R37, R40: raised by PARSE_BYTE in a state that no run reaches, whose next write would fall outside FRAME
  (an index the spec says does not exist); safe. -/
  | noSuchFrameIndex (i : Nat)
  deriving DecidableEq, Repr

/-- The refusals: the operation has no meaning (R10). -/
inductive Refusal where
  /-- An instruction the model has no meaning for, raised by `exec` alone; safe.  No arm uses it. -/
  | notModelled (mnemonic : String)
  /-- R130: a command word with op = 3, raised by RESERVED_OP3; the spec's own refusal; safe. -/
  | reservedCommand (w : Cmd)
  /-- R64, R130: any other command word that does not decode, raised by the fetch; the spec's own refusal; safe. -/
  | undecodedCommand (w : Cmd)
  /-- R31, R130: a host read of port 9 or above, raised by the read port; the spec's own refusal; safe. -/
  | reservedPort (p : Nat)
  deriving DecidableEq, Repr

/-- The state.  From `ring` to `reports` it is the record of R15; `cfg` is the instance's configuration (R34);
`rx` and `host` hold what the transport and the host will do (R6, R47, R65); `reads`, `sleeps` and `ret` are
the model's own records (log entries 4 and 5). -/
structure State where
  /-- The configuration (R7, R34); no operation writes it. -/
  cfg : Params
  /-- `S.ring` (R16 to R19). -/
  ring : RingBuf
  /-- `S.frame` (R20 to R22). -/
  frame : FrameBuf
  /-- `S.outcome` (R23). -/
  outcome : ProtocolOutcome
  /-- `S.dval`, `none` while unwritten (R24, R35). -/
  dval : Option Word
  /-- `S.dfc`, `none` while unwritten (R24, R35). -/
  dfc : Option FnCode
  /-- `S.dkind`, `none` while unwritten (R24, R35). -/
  dkind : Option Kind
  /-- `S.busy` (R26). -/
  busy : Bool
  /-- `S.pumps` (R27). -/
  pumps : Nat
  /-- `S.result`, `none` while unwritten (R28, R35). -/
  result : Option Word
  /-- `S.tx`, the transmit history (R10, R15). -/
  tx : List Byte
  /-- `S.reports`, the report history (R10, R15). -/
  reports : List Report
  /-- The transport: the byte lists it offers at the drains to come, the next first (R47, R65). -/
  rx : List (List Byte)
  /-- The host: its actions to come, the next first (R6). -/
  host : List HostAction
  /-- What the host has read, port and value, the oldest first (R113). -/
  reads : List (Nat × Word)
  /-- The transport's `sleepMilliseconds` calls, the oldest first (R32, R108). -/
  sleeps : List Nat
  /-- What the last internal operation run on its own returned. -/
  ret : Ret
  deriving DecidableEq, Repr

/-- The ring buffer replaced. -/
def State.setRing (s : State) (r : RingBuf) : State := { s with ring := r }

/-- The frame buffer, its count and its expected length replaced. -/
def State.setFrame (s : State) (f : FrameBuf) : State := { s with frame := f }

/-- `S.outcome <- o`. -/
def State.setOutcome (s : State) (o : ProtocolOutcome) : State := { s with outcome := o }

/-- The Decoded Value written, all three fields (R97). -/
def State.setDecoded (s : State) (v : Word) (F : FnCode) (k : Kind) : State := { s with dval := some v, dfc := some F, dkind := some k }

/-- `S.busy <- b`. -/
def State.setBusy (s : State) (b : Bool) : State := { s with busy := b }

/-- `S.pumps <- n`. -/
def State.setPumps (s : State) (n : Nat) : State := { s with pumps := n }

/-- `S.result <- v`. -/
def State.setResult (s : State) (v : Option Word) : State := { s with result := v }

/-- `TxWrite` of each byte of `l`, in order (R10). -/
def State.appendTx (s : State) (l : List Byte) : State := { s with tx := s.tx ++ l }

/-- `Report(e)` (R10). -/
def State.appendReport (s : State) (e : Report) : State := { s with reports := s.reports ++ [e] }

/-- The drains still to come. -/
def State.setRx (s : State) (l : List (List Byte)) : State := { s with rx := l }

/-- R47, R65: the transport has one more list to offer, after those no drain has taken yet. -/
def State.offerRx (s : State) (l : List Byte) : State := { s with rx := s.rx ++ [l] }

/-- The host's actions still to come. -/
def State.setHost (s : State) (l : List HostAction) : State := { s with host := l }

/-- The host has read `v` at port `p`. -/
def State.logRead (s : State) (p : Nat) (v : Word) : State := { s with reads := s.reads ++ [(p, v)] }

/-- `sleepMilliseconds(n)` called. -/
def State.logSleep (s : State) (n : Nat) : State := { s with sleeps := s.sleeps ++ [n] }

/-- The value an internal operation returned. -/
def State.setRet (s : State) (r : Ret) : State := { s with ret := r }

/-- The state of a new engine instance with configuration `c` (R36, R143): ring and frame empty with nothing
written, outcome InProgress, ready, the Decoded Value and the result unwritten, the histories empty.  The
transport offers nothing and the host asks nothing until a run says otherwise. -/
def State.resetWith (c : Params) : State where
  cfg := c
  ring := { buf := [], head := 0, tail := 0 }
  frame := { buf := [], count := 0, expected := 0 }
  outcome := .inProgress
  dval := none
  dfc := none
  dkind := none
  busy := false
  pumps := 0
  result := none
  tx := []
  reports := []
  rx := []
  host := []
  reads := []
  sleeps := []
  ret := .nothing

/-- The machine right after reset (R36, R143), its parameters OPEN (R7). -/
def State.reset : State := State.resetWith Config.openParams

end Sys2Proof.Machine
end

