-- ==== Sys2Proof/Machine/Ops.lean ====
section
/-! DEFINITION. The shared operations over the state: the two address spaces (spec/20_memory.md), the ring
buffer (spec/40_ring_buffer.md), the transport, the frame parser and the pump (spec/43_frame_parser.md), and
the frame transmission and the QUERY steps (spec/44_orchestrator.md).  The block has no trap entry and no trap
return (R135, R136): an error is a value of the outcome, written by `completeFrame` and `waitStep`. -/

namespace Sys2Proof.Machine

/-! ## Memory -/

/-- The byte written at index `i`, if one was since reset. -/
def Memory.read : Memory → Nat → Option Byte
  | [], _ => none
  | (a, b) :: m, i => if a = i then some b else Memory.read m i

/-- `MemWrite(space, i, 1, v)` (R10), in the canonical form: indices strictly rising. -/
def Memory.write : Memory → Nat → Byte → Memory
  | [], i, v => [(i, v)]
  | (a, b) :: m, i, v =>
    if i < a then (i, v) :: (a, b) :: m
    else if i = a then (i, v) :: m
    else (a, b) :: Memory.write m i v

/-- The canonical form: indices strictly rising, so that equal memories are equal lists. -/
abbrev Memory.wf (m : Memory) : Prop := m.Pairwise fun x y => x.1 < y.1

/-- Every listed index lies in a space of `n` bytes (R37). -/
abbrev Memory.within (m : Memory) (n : Nat) : Prop := ∀ c ∈ m, c.1 < n

/-- `MemRead(RING, i, 1)`; a slot not written since reset holds a free value (R16, U5). -/
def ringSlot (r : RingBuf) (i : Fin 8) : Byte := (Memory.read r.buf i.val).getD (Config.freeRing i.val)

/-- `MemRead(FRAME, i, 1)`; a slot not written since reset holds a free value (R20, U5). -/
def frameSlot (f : FrameBuf) (i : Nat) : Byte := (Memory.read f.buf i).getD (Config.freeFrame i)

/-! ## Ring buffer -/

/-- R19: `(head + 1) mod 8 == tail`. -/
def ringFull (r : RingBuf) : Bool := r.head + 1 == r.tail

/-- R19: `head == tail`. -/
def ringEmpty (r : RingBuf) : Bool := r.head == r.tail

/-- R19: the occupancy `(head − tail) mod 8`. -/
def ringLevel (r : RingBuf) : Fin 8 := r.head - r.tail

/-- R68, R69 `PUSH(b)`: whether it succeeded, and the ring after it. -/
def ringPush (r : RingBuf) (b : Byte) : Bool × RingBuf :=
  if ringFull r then (false, r)
  else (true, { r with buf := Memory.write r.buf r.head.val b, head := r.head + 1 })

/-- R70, R71 `POP()`: the byte, if there is one, and the ring after it. -/
def ringPop (r : RingBuf) : Option Byte × RingBuf :=
  if ringEmpty r then (none, r)
  else (some (ringSlot r r.tail), { r with tail := r.tail + 1 })

/-- R19: the index of the unread byte after `k` older ones, `tail + k` mod 8. -/
def ringIndex (tail : Fin 8) (k : Nat) : Fin 8 := tail + Fin.ofNat 8 k

/-- The unread bytes, oldest first: the slots `tail, tail+1, …, head−1` (R19). -/
def ringBytes (r : RingBuf) : List Byte :=
  (List.range (ringLevel r).val).map fun k => ringSlot r (ringIndex r.tail k)

/-! ## Transport -/

/-- R32 `isByteAvailable()`, over the bytes the transport has. -/
def isByteAvailable (avail : List Byte) : Bool := !avail.isEmpty

/-- R32, R131 `readByte()`: the oldest byte, which is consumed; a fault with none available. -/
def transportReadByte : List Byte → Host.Outcome (Byte × List Byte) Fault Refusal
  | b :: rest => .next (b, rest)
  | [] => .fault .readUnavailable

/-- R47, R65 `RxDraw()`: the list the transport has at this drain, and the state after the draw. -/
def rxDraw (s : State) : List Byte × State :=
  match s.rx with
  | l :: rest => (l, s.setRx rest)
  | [] => ([], s)

/-- R102: each byte of the list is pushed in order; one that does not fit is lost (R69). -/
def drainBytes : List Byte → RingBuf → RingBuf
  | [], r => r
  | b :: rest, r => drainBytes rest (ringPush r b).2

/-- R102 `DRAIN()`. -/
def drainStep (s : State) : State := (rxDraw s).2.setRing (drainBytes (rxDraw s).1 s.ring)

/-! ## Decoding the frame held in FRAME -/

/-- R78: the payload bytes after the first of the frame in FRAME. -/
def framePayloadRest (f : FrameBuf) : List Byte :=
  (List.range (lenCode (frameSlot f 1))).map fun k => frameSlot f (3 + k)

/-- R78 `DECODE_S(fr)` of the frame in FRAME. -/
def frameSigned (f : FrameBuf) : Word := decodeSigned (frameSlot f 2) (framePayloadRest f)

/-- R80 `DECODE_U(fr)` of the frame in FRAME. -/
def frameUnsigned (f : FrameBuf) : Word := decodeUnsigned (frameSlot f 2) (framePayloadRest f)

/-- R97: the function code of the frame in FRAME. -/
def frameFc (f : FrameBuf) : FnCode := codeFc (frameSlot f 1)

/-- R82: the decode kind of the frame in FRAME. -/
def frameKind (c : Params) (f : FrameBuf) : Kind := kindOf c (frameFc f)

/-- R82 `DECODE(fr)` of the frame in FRAME: the value that goes with `frameKind`. -/
def frameValue (c : Params) (f : FrameBuf) : Word :=
  match frameKind c f with
  | .signed => frameSigned f
  | .unsigned => frameUnsigned f

/-- R96: the bytes `FRAME[0..N−2]` of a frame of N = count bytes. -/
def frameHeld (f : FrameBuf) : List Byte := (List.range (f.count.val - 1)).map (frameSlot f)

/-- R96: CKVER of the frame in FRAME, whose last byte is `FRAME[N−1]`. -/
def frameOk (f : FrameBuf) : Bool := ckVer (frameHeld f) (frameSlot f (f.count.val - 1))

/-! ## Frame parser -/

/-- R96: a frame is complete when count ≥ 2 and count = expected. -/
def frameComplete (f : FrameBuf) : Bool := decide (2 ≤ f.count.val) && f.count == f.expected

/-- R92, R95, R99: the parser set back to Idle; the bytes in FRAME stay. -/
def idleFrame (f : FrameBuf) : FrameBuf := { f with count := 0, expected := 0 }

/-- R96 to R99 `COMPLETE()`: the outcome, the Decoded Value and the report of the frame in FRAME, and the
parser back to Idle. -/
def completeFrame (s : State) : State :=
  if frameOk s.frame then
    (((s.setDecoded (frameValue s.cfg s.frame) (frameFc s.frame) (frameKind s.cfg s.frame)).setOutcome .success).appendReport
      (.value (frameFc s.frame) (frameKind s.cfg s.frame) (frameValue s.cfg s.frame))).setFrame (idleFrame s.frame)
  else
    ((s.setOutcome .checksumError).appendReport .checksumErr).setFrame (idleFrame s.frame)

/-- R93: the byte is stored at `FRAME[count]` and counted. -/
def appendFrame (f : FrameBuf) (b : Byte) : FrameBuf :=
  { f with buf := Memory.write f.buf f.count.val b, count := f.count + 1 }

/-- R94: the expected length, 4 + the length code in `FRAME[1]`. -/
def frameLength (f : FrameBuf) : Nat := 4 + lenCode (frameSlot f 1)

/-- R94, R95: the frame buffer once the expected length is known. -/
def learnLength (f : FrameBuf) : FrameBuf := { f with expected := Fin.ofNat 8 (frameLength f) }

/-- R96: the end of PARSE_BYTE, with the byte stored and the length known if count ≥ 2. -/
def finishByte (s : State) : Bool × State :=
  if frameComplete s.frame then (true, completeFrame s) else (false, s)

/-- R93 to R99: the parts of PARSE_BYTE from the append on, for a frame buffer of `cap` bytes (R95). -/
def storeByte (cap : Nat) (s : State) (b : Byte) : Bool × State :=
  if (appendFrame s.frame b).count = 2 then
    if cap < frameLength (appendFrame s.frame b) then
      (false, s.setFrame (idleFrame (appendFrame s.frame b)))
    else finishByte (s.setFrame (learnLength (appendFrame s.frame b)))
  else finishByte (s.setFrame (appendFrame s.frame b))

/-- R92: a start byte sets the parser back to Idle before it is stored. -/
def startFrame (b : Byte) (f : FrameBuf) : FrameBuf := if isStart b then idleFrame f else f

/-- R91 `PARSE_BYTE(b)` for a frame buffer of `cap` bytes: whether the byte completed a frame, and the state
after it.  The write index lies in FRAME in every state a run reaches (R40, R103). -/
def parseByteCap (cap : Nat) (b : Byte) (s : State) : Host.Outcome (Bool × State) Fault Refusal :=
  if (startFrame b s.frame).count.val < Config.frameCap then
    .next (storeByte cap (s.setFrame (startFrame b s.frame)) b)
  else .fault (.noSuchFrameIndex (startFrame b s.frame).count.val)

/-- R91 `PARSE_BYTE(b)`, with `FRAME_CAP` = 7. -/
def parseByte (b : Byte) (s : State) : Host.Outcome (Bool × State) Fault Refusal :=
  parseByteCap Config.frameCap b s

/-- R91: PARSE_BYTE run on its own leaves its result in the model's record. -/
def parseAlone (b : Byte) (s : State) : Host.Outcome State Fault Refusal :=
  match parseByte b s with
  | .next (done, t) => .next (t.setRet (.flag done))
  | .fault e => .fault e
  | .refused e => .refused e

/-! ## Pump -/

/-- R100: the loop of a pump, for at most `n` bytes: pop a byte, parse it, and stop after a completion or
when the ring is empty. -/
def pumpLoop : Nat → State → Host.Outcome State Fault Refusal
  | 0, s => .next s
  | n + 1, s =>
    match ringPop s.ring with
    | (none, _) => .next s
    | (some b, r) =>
      match parseByte b (s.setRing r) with
      | .next (done, t) => if done && t.outcome != .inProgress then .next t else pumpLoop n t
      | .fault e => .fault e
      | .refused e => .refused e

/-- R100 `PUMP_BODY()`.  The ring holds at most 7 bytes (R73), so 8 rounds reach its end. -/
def pumpBody (s : State) : Host.Outcome State Fault Refusal := pumpLoop Config.ringCap (drainStep s)

/-! ## Orchestrator -/

/-- R105 `BUILD_AND_SEND(F, A, v)`: the frame's bytes are transmitted, byte 0 first. -/
def buildAndSend (F : FnCode) (A : Axis) (v : Word) (s : State) : State := s.appendTx (buildFrame F A v)

/-- R104, R132: while a QUERY is pending, a host operation has no step. -/
def whenReady (s t : State) : State := if s.busy then s else t

/-- R106 `SEND(F, A, v)`. -/
def sendStep (F : FnCode) (A : Axis) (v : Word) (s : State) : State := whenReady s (buildAndSend F A v s)

/-- R107 `QUERY_ISSUE(F, A)`. -/
def queryIssue (F : FnCode) (A : Axis) (s : State) : State :=
  whenReady s (((buildAndSend F A 0#32 (s.setOutcome .inProgress)).setPumps 0).setBusy true)

/-- R110 `QUERY_FINISH()`. -/
def queryFinish (s : State) : State :=
  (s.setResult (if s.outcome = .success then s.dval else some Config.sentinel)).setBusy false

/-- R108: the sleep before every pump of a QUERY but its first. -/
def sleepBetween (s : State) : State :=
  if 0 < s.pumps ∧ 0 < s.cfg.pumpSleepMs then s.logSleep s.cfg.pumpSleepMs else s

/-- R108, R109: what a wait step does after its pump, the pump already counted. -/
def afterPump (s : State) : State :=
  if s.outcome ≠ .inProgress then queryFinish s
  else if s.pumps = s.cfg.maxPumps then queryFinish (s.setOutcome .timeoutError)
  else s

/-- R108 `QUERY_WAIT()`, enabled while busy. -/
def waitStep (s : State) : Host.Outcome State Fault Refusal :=
  if s.busy then
    match pumpBody (sleepBetween s) with
    | .next t => .next (afterPump (t.setPumps (t.pumps + 1)))
    | .fault e => .fault e
    | .refused e => .refused e
  else .next s

end Sys2Proof.Machine
end

