-- ==== Sys2Proof/Machine/Checksum.lean ====
section
/-! DEFINITION. The checksum family: CKGEN and CKVER (spec/42_checksum.md), both combinational. -/

namespace Sys2Proof.Machine

/-- CKGEN (R85). -/
def execCkgen (body : List Byte) (s : State) : Host.Outcome State Fault Refusal :=
  .next (s.setRet (.byte (ckGen body)))

/-- CKVER (R86). -/
def execCkver (body : List Byte) (ck : Byte) (s : State) : Host.Outcome State Fault Refusal :=
  .next (s.setRet (.flag (ckVer body ck)))

end Sys2Proof.Machine
end

