-- ==== Sys2Proof/Machine/Codec.lean ====
section
/-! DEFINITION. The value codec family: ENCODE, DECODE_S, DECODE_U and DECODE (spec/41_value_codec.md).
All are combinational: they change no state of the engine, and their result is recorded. -/

namespace Sys2Proof.Machine

/-- ENCODE(v) (R74 to R76). -/
def execEncode (v : Word) (s : State) : Host.Outcome State Fault Refusal :=
  .next (s.setRet (.bytes (encodeValue v)))

/-- DECODE_S of the frame in FRAME (R78). -/
def execDecodeS (s : State) : Host.Outcome State Fault Refusal := .next (s.setRet (.value (frameSigned s.frame)))

/-- DECODE_U of the frame in FRAME (R80). -/
def execDecodeU (s : State) : Host.Outcome State Fault Refusal := .next (s.setRet (.value (frameUnsigned s.frame)))

/-- DECODE of the frame in FRAME (R82). -/
def execDecode (s : State) : Host.Outcome State Fault Refusal :=
  .next (s.setRet (.decoded (frameValue s.cfg s.frame) (frameKind s.cfg s.frame)))

end Sys2Proof.Machine
end

