-- ==== Sys2Proof/Machine/Helpers.lean ====
section
/-! DEFINITION. The helper pseudo-operations (spec/44_orchestrator.md R114 to R121): each is one SEND. -/

namespace Sys2Proof.Machine

/-- MOVEABS axis, pos (R114): not clamped. -/
def execMoveabs (A : Axis) (pos : Word) (s : State) : Host.Outcome State Fault Refusal :=
  .next (sendStep s.cfg.fcMoveAbs A pos s)

/-- ROTATE axis, v (R115): not clamped. -/
def execRotate (A : Axis) (v : Word) (s : State) : Host.Outcome State Fault Refusal :=
  .next (sendStep s.cfg.fcRotate A v s)

/-- ORIGIN axis (R116). -/
def execOrigin (A : Axis) (s : State) : Host.Outcome State Fault Refusal :=
  .next (sendStep s.cfg.fcOrigin A s.cfg.originPayload s)

/-- SETGAIN axis, g (R117): clamped to [1, 127]. -/
def execSetgain (A : Axis) (g : Word) (s : State) : Host.Outcome State Fault Refusal :=
  .next (sendStep s.cfg.fcSetGain A (clampSetter g) s)

/-- SETSPEED axis, s (R118): clamped to [1, 127]. -/
def execSetspeed (A : Axis) (v : Word) (s : State) : Host.Outcome State Fault Refusal :=
  .next (sendStep s.cfg.fcSetSpeed A (clampSetter v) s)

/-- SETACCEL axis, a (R119): clamped to [1, 127]. -/
def execSetaccel (A : Axis) (a : Word) (s : State) : Host.Outcome State Fault Refusal :=
  .next (sendStep s.cfg.fcSetAccel A (clampSetter a) s)

/-- ENABLE axis (R120). -/
def execEnable (A : Axis) (s : State) : Host.Outcome State Fault Refusal :=
  .next (sendStep s.cfg.fcEnable A s.cfg.enablePayload s)

/-- DISABLE axis (R121). -/
def execDisable (A : Axis) (s : State) : Host.Outcome State Fault Refusal :=
  .next (sendStep s.cfg.fcDisable A s.cfg.disablePayload s)

end Sys2Proof.Machine
end

