-- ==== Sys2Proof/Machine/Flags.lean ====
section
/-! DEFINITION. The flags: the outcome code (spec/30_encoding.md R61), the status fields (R62, R122) and the
alarm classes (R123). -/

namespace Sys2Proof.Machine

/-- R61: the 2-bit code of an outcome. -/
def outcomeCode : ProtocolOutcome → BitVec 2
  | .inProgress => 0#2
  | .success => 1#2
  | .checksumError => 2#2
  | .timeoutError => 3#2

/-- R31, D19: the bit of `DFC` that tells the decode kind, 0 = Signed and 1 = Unsigned. -/
def kindBit : Kind → Bool
  | .signed => false
  | .unsigned => true

/-- R123 `alarm_fatal`: alarm codes 1 to 3. -/
def alarmFatal (alarm : BitVec 3) : Bool := alarm == 1#3 || alarm == 2#3 || alarm == 3#3

/-- R123 `alarm_advisory`: alarm code 4 and the unknown codes 5 to 7. -/
def alarmAdvisory (alarm : BitVec 3) : Bool := alarm == 4#3 || alarm == 5#3 || alarm == 6#3 || alarm == 7#3

/-- R122 `STATUS_DECODE`: the fields of `v[6:0]`. -/
def statusOf (v : Word) : StatusView where
  inPosition := v.getLsbD 0
  engaged := v.getLsbD 1
  alarm := v.extractLsb' 2 3
  motionBusy := v.getLsbD 5
  ioPin := v.getLsbD 6
  alarmFatal := alarmFatal (v.extractLsb' 2 3)
  alarmAdvisory := alarmAdvisory (v.extractLsb' 2 3)

/-- R31 port 4: the status view as a word, bits 31:9 read as 0. -/
def statusWord (t : StatusView) : Word :=
  (BitVec.ofBool t.alarmAdvisory ++ BitVec.ofBool t.alarmFatal ++ BitVec.ofBool t.ioPin ++
    BitVec.ofBool t.motionBusy ++ t.alarm ++ BitVec.ofBool t.engaged ++ BitVec.ofBool t.inPosition).setWidth 32

end Sys2Proof.Machine
end

