-- ==== Sys2Proof/Machine/Orchestrator.lean ====
section
/-! DEFINITION. The command orchestrator family (spec/44_orchestrator.md): the command-port operations, their
internal steps, and the status decode. -/

namespace Sys2Proof.Machine

/-- SEND fc, axis, value (R106); held while busy (R104). -/
def execSend (F : FnCode) (A : Axis) (v : Word) (s : State) : Host.Outcome State Fault Refusal :=
  .next (sendStep F A v s)

/-- QUERY fc, axis: the issue step (R107); held while busy (R104). -/
def execQuery (F : FnCode) (A : Axis) (s : State) : Host.Outcome State Fault Refusal := .next (queryIssue F A s)

/-- PUMP (R112); held while busy (R104). -/
def execPump (s : State) : Host.Outcome State Fault Refusal := if s.busy then .next s else pumpBody s

/-- A command word with op = 3 is refused, whatever its other bits (R64, R130). -/
def execReservedOp3 (rest : BitVec 46) (_s : State) : Host.Outcome State Fault Refusal :=
  .refused (.reservedCommand (rest ++ 3#2))

/-- BUILD_AND_SEND(F, A, v) (R105). -/
def execBuildAndSend (F : FnCode) (A : Axis) (v : Word) (s : State) : Host.Outcome State Fault Refusal :=
  .next (buildAndSend F A v s)

/-- QUERY_WAIT() (R108, R109). -/
def execQueryWait (s : State) : Host.Outcome State Fault Refusal := waitStep s

/-- QUERY_FINISH() (R110). -/
def execQueryFinish (s : State) : Host.Outcome State Fault Refusal := .next (queryFinish s)

/-- STATUS_DECODE(v) (R122), combinational. -/
def execStatusDecode (v : Word) (s : State) : Host.Outcome State Fault Refusal := .next (s.setRet (.status (statusOf v)))

/-- ALARM_CLASS(alarm) (R123), combinational. -/
def execAlarmClass (alarm : BitVec 3) (s : State) : Host.Outcome State Fault Refusal :=
  .next (s.setRet (.alarm (alarmFatal alarm) (alarmAdvisory alarm)))

end Sys2Proof.Machine
end

