-- ==== Sys2Proof/Machine/Parser.lean ====
section
/-! DEFINITION. The frame parser family: the byte paths of PARSE_BYTE, COMPLETE and PUMP_BODY
(spec/43_frame_parser.md). -/

namespace Sys2Proof.Machine

/-- PARSE_BYTE of a start byte (R91 to R93). -/
def execParseStart (d : BitVec 7) (s : State) : Host.Outcome State Fault Refusal := parseAlone (startByte d) s

/-- PARSE_BYTE of a continuation byte (R91, R93). -/
def execParseCont (d : BitVec 7) (s : State) : Host.Outcome State Fault Refusal := parseAlone (contByte d) s

/-- PARSE_BYTE of a code byte with length code 0 (R94). -/
def execFrame4 (F : FnCode) (s : State) : Host.Outcome State Fault Refusal := parseAlone (codeByte 0#2 F) s

/-- PARSE_BYTE of a code byte with length code 1 (R94). -/
def execFrame5 (F : FnCode) (s : State) : Host.Outcome State Fault Refusal := parseAlone (codeByte 1#2 F) s

/-- PARSE_BYTE of a code byte with length code 2 (R94). -/
def execFrame6 (F : FnCode) (s : State) : Host.Outcome State Fault Refusal := parseAlone (codeByte 2#2 F) s

/-- PARSE_BYTE of a code byte with length code 3 (R94). -/
def execFrame7 (F : FnCode) (s : State) : Host.Outcome State Fault Refusal := parseAlone (codeByte 3#2 F) s

/-- COMPLETE() (R96 to R99); without a complete frame in FRAME it has no step (log entry 6). -/
def execComplete (s : State) : Host.Outcome State Fault Refusal :=
  .next (if frameComplete s.frame then completeFrame s else s)

/-- PUMP_BODY() (R100). -/
def execPumpBody (s : State) : Host.Outcome State Fault Refusal := pumpBody s

end Sys2Proof.Machine
end

