-- ==== Sys2Proof/Machine/RingBuffer.lean ====
section
/-! DEFINITION. The ring buffer family: PUSH, POP and DRAIN (spec/40_ring_buffer.md, spec/43_frame_parser.md). -/

namespace Sys2Proof.Machine

/-- PUSH(b) (R68, R69); its result is recorded. -/
def execPush (b : Byte) (s : State) : Host.Outcome State Fault Refusal :=
  .next ((s.setRing (ringPush s.ring b).2).setRet (.flag (ringPush s.ring b).1))

/-- POP() (R70, R71); its result is recorded. -/
def execPop (s : State) : Host.Outcome State Fault Refusal :=
  .next ((s.setRing (ringPop s.ring).2).setRet (.popped (ringPop s.ring).1))

/-- DRAIN() (R102). -/
def execDrain (s : State) : Host.Outcome State Fault Refusal := .next (drainStep s)

end Sys2Proof.Machine
end

