-- ==== Sys2Proof/Machine/Dispatch.lean ====
section
/-! DEFINITION. The meaning of every instruction, one arm each. -/

namespace Sys2Proof.Machine

def exec (i : Instr) (s : State) : Host.Outcome State Fault Refusal :=
  match i with
  | .send F A v => Sys2Proof.Machine.execSend F A v s
  | .query F A => Sys2Proof.Machine.execQuery F A s
  | .pump => Sys2Proof.Machine.execPump s
  | .reservedOp3 rest => Sys2Proof.Machine.execReservedOp3 rest s
  | .parseStart d => Sys2Proof.Machine.execParseStart d s
  | .parseCont d => Sys2Proof.Machine.execParseCont d s
  | .frame4 F => Sys2Proof.Machine.execFrame4 F s
  | .frame5 F => Sys2Proof.Machine.execFrame5 F s
  | .frame6 F => Sys2Proof.Machine.execFrame6 F s
  | .frame7 F => Sys2Proof.Machine.execFrame7 F s
  | .push b => Sys2Proof.Machine.execPush b s
  | .pop => Sys2Proof.Machine.execPop s
  | .encode v => Sys2Proof.Machine.execEncode v s
  | .decodeS => Sys2Proof.Machine.execDecodeS s
  | .decodeU => Sys2Proof.Machine.execDecodeU s
  | .decode => Sys2Proof.Machine.execDecode s
  | .ckgen body => Sys2Proof.Machine.execCkgen body s
  | .ckver body ck => Sys2Proof.Machine.execCkver body ck s
  | .complete => Sys2Proof.Machine.execComplete s
  | .pumpBody => Sys2Proof.Machine.execPumpBody s
  | .drain => Sys2Proof.Machine.execDrain s
  | .buildAndSend F A v => Sys2Proof.Machine.execBuildAndSend F A v s
  | .queryWait => Sys2Proof.Machine.execQueryWait s
  | .queryFinish => Sys2Proof.Machine.execQueryFinish s
  | .statusDecode v => Sys2Proof.Machine.execStatusDecode v s
  | .alarmClass alarm => Sys2Proof.Machine.execAlarmClass alarm s
  | .moveabs A pos => Sys2Proof.Machine.execMoveabs A pos s
  | .rotate A v => Sys2Proof.Machine.execRotate A v s
  | .origin A => Sys2Proof.Machine.execOrigin A s
  | .setgain A g => Sys2Proof.Machine.execSetgain A g s
  | .setspeed A v => Sys2Proof.Machine.execSetspeed A v s
  | .setaccel A a => Sys2Proof.Machine.execSetaccel A a s
  | .enable A => Sys2Proof.Machine.execEnable A s
  | .disable A => Sys2Proof.Machine.execDisable A s

end Sys2Proof.Machine
end

