-- ==== Sys2Proof/WellFormed.lean ====
section
/-! DEFINITION. The well-formedness checks on instructions and on assembler lines. -/

namespace Sys2Proof

/-- The bytes before a frame's checksum number N − 1 for a frame length N of 4 to 7 (R51, R56, R85). -/
def bodyLengthOk (body : List Byte) : Bool := decide (3 ≤ body.length ∧ body.length ≤ 6)

/-- An instruction is well formed: every operand of a fixed width fits by its type (R67), so only the
byte-list operands of CKGEN and CKVER are checked. -/
def Instr.wf : Instr → Bool
  | .send _ _ _ => true
  | .query _ _ => true
  | .pump => true
  | .reservedOp3 _ => true
  | .parseStart _ => true
  | .parseCont _ => true
  | .frame4 _ => true
  | .frame5 _ => true
  | .frame6 _ => true
  | .frame7 _ => true
  | .push _ => true
  | .pop => true
  | .encode _ => true
  | .decodeS => true
  | .decodeU => true
  | .decode => true
  | .ckgen body => bodyLengthOk body
  | .ckver body _ => bodyLengthOk body
  | .complete => true
  | .pumpBody => true
  | .drain => true
  | .buildAndSend _ _ _ => true
  | .queryWait => true
  | .queryFinish => true
  | .statusDecode _ => true
  | .alarmClass _ => true
  | .moveabs _ _ => true
  | .rotate _ _ => true
  | .origin _ => true
  | .setgain _ _ => true
  | .setspeed _ _ => true
  | .setaccel _ _ => true
  | .enable _ => true
  | .disable _ => true

/-- R67: fc 0..31. -/
def fcFits (fc : Int) : Bool := decide (0 ≤ fc ∧ fc ≤ 31)

/-- R67: axis 0..127. -/
def axisFits (axis : Int) : Bool := decide (0 ≤ axis ∧ axis ≤ 127)

/-- R67: the s32 range. -/
def valueFits (v : Int) : Bool := decide (-2147483648 ≤ v ∧ v ≤ 2147483647)

/-- R67: a line whose operand does not fit its field is an assembly error. -/
def AsmLine.wf : AsmLine → Bool
  | .send fc axis value => fcFits fc && axisFits axis && valueFits value
  | .query fc axis => fcFits fc && axisFits axis
  | .pump => true
  | .moveabs axis pos => axisFits axis && valueFits pos
  | .rotate axis v => axisFits axis && valueFits v
  | .origin axis => axisFits axis
  | .setgain axis g => axisFits axis && valueFits g
  | .setspeed axis v => axisFits axis && valueFits v
  | .setaccel axis a => axisFits axis && valueFits a
  | .enable axis => axisFits axis
  | .disable axis => axisFits axis
  | .rx _ => true

end Sys2Proof
end

