-- ==== Sys2Proof/Decode.lean ====
section
/-! DEFINITION. The decoders: the command word (spec/30_encoding.md R63, R64), total over all 2^48 words, and
the received byte (R11, R57, R94), total over all bytes; after them the encoder, the opcode table's rows and
the assembler (R65 to R67). -/

namespace Sys2Proof

open Sys2Proof.Machine

/-- R63: bits 1:0. -/
def cmdOp (w : Cmd) : BitVec 2 := w.extractLsb' 0 2

/-- R63: bits 6:2. -/
def cmdFc (w : Cmd) : FnCode := w.extractLsb' 2 5

/-- R63: bits 13:7. -/
def cmdAxis (w : Cmd) : Axis := w.extractLsb' 7 7

/-- R63: bits 15:14. -/
def cmdRsv (w : Cmd) : BitVec 2 := w.extractLsb' 14 2

/-- R63: bits 47:16. -/
def cmdValue (w : Cmd) : Word := w.extractLsb' 16 32

/-- R64: each word is SEND, QUERY, PUMP, the reserved operation 3, or nothing (`none`: a reserved field or a
field the operation does not use is not 0). -/
def decodeCmd (w : Cmd) : Option Instr :=
  if cmdOp w = 3#2 then some (.reservedOp3 (w.extractLsb' 2 46))
  else if cmdRsv w ≠ 0#2 then none
  else if cmdOp w = 0#2 then some (.send (cmdFc w) (cmdAxis w) (cmdValue w))
  else if cmdValue w ≠ 0#32 then none
  else if cmdOp w = 1#2 then some (.query (cmdFc w) (cmdAxis w))
  else if cmdAxis w = 0#7 ∧ cmdFc w = 0#5 then some .pump
  else none

/-- R94: a code byte by its length code. -/
def decodeCode (b : Byte) : Instr :=
  match lenCode b with
  | 0 => .frame4 (codeFc b)
  | 1 => .frame5 (codeFc b)
  | 2 => .frame6 (codeFc b)
  | _ => .frame7 (codeFc b)

/-- R91, R57: a received byte at parser count `count`. A start byte is a start byte at every count; a
continuation byte that becomes byte 1 of a frame is its code byte; every other one is plain. -/
def decodeRx (count : Nat) (b : Byte) : Instr :=
  if isStart b then .parseStart (group b)
  else if count = 1 then decodeCode b
  else .parseCont (group b)

/-- The words of the machine: a command word or a byte of the link. -/
inductive Encoded where
  | cmd (w : Cmd)
  | rx (b : Byte)
  deriving DecidableEq, Repr

/-- R63: a command word from its fields. -/
def packCmd (op : BitVec 2) (fc : FnCode) (axis : Axis) (value : Word) : Cmd :=
  value ++ (0#2 ++ (axis ++ (fc ++ op)))

/-- R66: the SEND that a helper expands to. -/
def expandHelper (c : Params) : Instr → Option (FnCode × Axis × Word)
  | .moveabs axis pos => some (c.fcMoveAbs, axis, pos)
  | .rotate axis v => some (c.fcRotate, axis, v)
  | .origin axis => some (c.fcOrigin, axis, c.originPayload)
  | .setgain axis g => some (c.fcSetGain, axis, clampSetter g)
  | .setspeed axis v => some (c.fcSetSpeed, axis, clampSetter v)
  | .setaccel axis a => some (c.fcSetAccel, axis, clampSetter a)
  | .enable axis => some (c.fcEnable, axis, c.enablePayload)
  | .disable axis => some (c.fcDisable, axis, c.disablePayload)
  | .send _ _ _ => none
  | .query _ _ => none
  | .pump => none
  | .reservedOp3 _ => none
  | .parseStart _ => none
  | .parseCont _ => none
  | .frame4 _ => none
  | .frame5 _ => none
  | .frame6 _ => none
  | .frame7 _ => none
  | .push _ => none
  | .pop => none
  | .encode _ => none
  | .decodeS => none
  | .decodeU => none
  | .decode => none
  | .ckgen _ => none
  | .ckver _ _ => none
  | .complete => none
  | .pumpBody => none
  | .drain => none
  | .buildAndSend _ _ _ => none
  | .queryWait => none
  | .queryFinish => none
  | .statusDecode _ => none
  | .alarmClass _ => none

/-- R66: the SEND word of a helper's expansion. -/
def helperWord (c : Params) (i : Instr) : Option Encoded :=
  (expandHelper c i).map fun e => .cmd (packCmd 0#2 e.1 e.2.1 e.2.2)

/-- The word of an instruction that has one: command operations (R63), received bytes (R51, R53), and the
helpers, which encode as the SEND word of their expansion (R66). An internal operation has no word. -/
def encode (c : Params) : Instr → Option Encoded
  | .send fc axis value => some (.cmd (packCmd 0#2 fc axis value))
  | .query fc axis => some (.cmd (packCmd 1#2 fc axis 0#32))
  | .pump => some (.cmd (packCmd 2#2 0#5 0#7 0#32))
  | .reservedOp3 rest => some (.cmd (rest ++ 3#2))
  | .parseStart d => some (.rx (startByte d))
  | .parseCont d => some (.rx (contByte d))
  | .frame4 fc => some (.rx (codeByte 0#2 fc))
  | .frame5 fc => some (.rx (codeByte 1#2 fc))
  | .frame6 fc => some (.rx (codeByte 2#2 fc))
  | .frame7 fc => some (.rx (codeByte 3#2 fc))
  | .push _ => none
  | .pop => none
  | .encode _ => none
  | .decodeS => none
  | .decodeU => none
  | .decode => none
  | .ckgen _ => none
  | .ckver _ _ => none
  | .complete => none
  | .pumpBody => none
  | .drain => none
  | .buildAndSend _ _ _ => none
  | .queryWait => none
  | .queryFinish => none
  | .statusDecode _ => none
  | .alarmClass _ => none
  | .moveabs axis pos => helperWord c (.moveabs axis pos)
  | .rotate axis v => helperWord c (.rotate axis v)
  | .origin axis => helperWord c (.origin axis)
  | .setgain axis g => helperWord c (.setgain axis g)
  | .setspeed axis v => helperWord c (.setspeed axis v)
  | .setaccel axis a => helperWord c (.setaccel axis a)
  | .enable axis => helperWord c (.enable axis)
  | .disable axis => helperWord c (.disable axis)

/-- A word read back by the decoder of its kind, a received byte at parser count `count`. -/
def decodeWord (count : Nat) : Encoded → Option Instr
  | .cmd w => decodeCmd w
  | .rx b => some (decodeRx count b)

/-- The mask and the match of a row of the opcode table that has them, by width: 48 bits for the command
word, 8 bits for a byte. -/
inductive Row where
  | cmd48 (mask pattern : Cmd)
  | byte8 (mask pattern : Byte)
  | internal
  deriving DecidableEq, Repr

/-- The instruction's row of spec/opcode_table.json; a helper's word is a SEND word. -/
def tableRow : Instr → Row
  | .send _ _ _ => .cmd48 0x00000000C003#48 0x000000000000#48
  | .query _ _ => .cmd48 0xFFFFFFFFC003#48 0x000000000001#48
  | .pump => .cmd48 0xFFFFFFFFFFFF#48 0x000000000002#48
  | .reservedOp3 _ => .cmd48 0x000000000003#48 0x000000000003#48
  | .parseStart _ => .byte8 0x80#8 0x00#8
  | .parseCont _ => .byte8 0x80#8 0x80#8
  | .frame4 _ => .byte8 0xE0#8 0x80#8
  | .frame5 _ => .byte8 0xE0#8 0xA0#8
  | .frame6 _ => .byte8 0xE0#8 0xC0#8
  | .frame7 _ => .byte8 0xE0#8 0xE0#8
  | .moveabs _ _ => .cmd48 0x00000000C003#48 0x000000000000#48
  | .rotate _ _ => .cmd48 0x00000000C003#48 0x000000000000#48
  | .origin _ => .cmd48 0x00000000C003#48 0x000000000000#48
  | .setgain _ _ => .cmd48 0x00000000C003#48 0x000000000000#48
  | .setspeed _ _ => .cmd48 0x00000000C003#48 0x000000000000#48
  | .setaccel _ _ => .cmd48 0x00000000C003#48 0x000000000000#48
  | .enable _ => .cmd48 0x00000000C003#48 0x000000000000#48
  | .disable _ => .cmd48 0x00000000C003#48 0x000000000000#48
  | .push _ => .internal
  | .pop => .internal
  | .encode _ => .internal
  | .decodeS => .internal
  | .decodeU => .internal
  | .decode => .internal
  | .ckgen _ => .internal
  | .ckver _ _ => .internal
  | .complete => .internal
  | .pumpBody => .internal
  | .drain => .internal
  | .buildAndSend _ _ _ => .internal
  | .queryWait => .internal
  | .queryFinish => .internal
  | .statusDecode _ => .internal
  | .alarmClass _ => .internal

/-- A word carries a row: it is of the row's width and agrees with the match under the mask. -/
def Encoded.fits : Encoded → Row → Bool
  | .cmd w, .cmd48 mask pattern => w &&& mask == pattern
  | .rx b, .byte8 mask pattern => b &&& mask == pattern
  | _, _ => false

/-- R65, R66: the instruction an assembler line stands for; RX stands for none. -/
def lineInstr : AsmLine → Option Instr
  | .send fc axis value => some (.send (BitVec.ofInt 5 fc) (BitVec.ofInt 7 axis) (BitVec.ofInt 32 value))
  | .query fc axis => some (.query (BitVec.ofInt 5 fc) (BitVec.ofInt 7 axis))
  | .pump => some .pump
  | .moveabs axis pos => some (.moveabs (BitVec.ofInt 7 axis) (BitVec.ofInt 32 pos))
  | .rotate axis v => some (.rotate (BitVec.ofInt 7 axis) (BitVec.ofInt 32 v))
  | .origin axis => some (.origin (BitVec.ofInt 7 axis))
  | .setgain axis g => some (.setgain (BitVec.ofInt 7 axis) (BitVec.ofInt 32 g))
  | .setspeed axis v => some (.setspeed (BitVec.ofInt 7 axis) (BitVec.ofInt 32 v))
  | .setaccel axis a => some (.setaccel (BitVec.ofInt 7 axis) (BitVec.ofInt 32 a))
  | .enable axis => some (.enable (BitVec.ofInt 7 axis))
  | .disable axis => some (.disable (BitVec.ofInt 7 axis))
  | .rx _ => none

/-- R67: the command word of an assembler line. A line whose operand does not fit gives none, and neither
does an RX line. -/
def assemble (c : Params) (l : AsmLine) : Option Cmd :=
  if l.wf then
    match (lineInstr l).bind (encode c) with
    | some (.cmd w) => some w
    | _ => none
  else none

/-- How the rows of the table that share a width are told apart by width and bits alone (log entry 12): 8 bits
are the RESERVED_OP3 row's own match 0x03, or a received byte read as byte 1 of its frame; any other width is
a command word whose upper bits are 0. -/
def decodeTableWord (nbits w : Nat) : Option Instr :=
  if nbits = 8 ∧ w ≠ 3 then some (decodeRx 1 (BitVec.ofNat 8 w))
  else decodeCmd (BitVec.ofNat 48 w)

end Sys2Proof
end

