-- ==== Sys2Proof/Machine/Boot.lean ====
section
/-! DEFINITION. Boot and restart (spec/70_reset_and_hazards.md R143 to R146). -/

namespace Sys2Proof.Machine

/-- R142, R143, R145: a restart makes a new engine instance of the same configuration.  Every field of the
engine takes its reset value; the transport keeps what it holds, and so do the host's actions and records. -/
def restartEngine (s : State) : State :=
  { State.resetWith s.cfg with rx := s.rx, host := s.host, reads := s.reads }

/-- R34, R146: the decode kind a table gives a function code. -/
def kindFrom (table : List (Nat × Kind)) (F : Nat) : Option Kind := (table.find? fun e => e.1 == F).map (·.2)

/-- R34, R146 item 2: the check that the table has an entry for each of the 32 function codes. -/
def kindTableTotal (table : List (Nat × Kind)) : Bool := (List.range 32).all fun F => (kindFrom table F).isSome

/-- R34: the parameters with the decode kinds of a table; for a total table the filler kind is never used. -/
def withKinds (c : Params) (table : List (Nat × Kind)) : Params :=
  { c with decodeKind := Vector.ofFn fun i => (kindFrom table i.val).getD .signed }

/-- R34: the configuration whose decode kinds a table lists, if the table is total and R8 holds. -/
def buildConfig (c : Params) (table : List (Nat × Kind)) : Option Params :=
  if kindTableTotal table ∧ c.wf then some (withKinds c table) else none

/-- R146: before the first operation the transport's port is open, the parameters are fixed and checked, the
display sink is ready, and then the engine is reset. -/
def boot (portOpen : Bool) (c : Params) (table : List (Nat × Kind)) (sinkReady : Bool) : Option State :=
  if portOpen then
    match buildConfig c table with
    | some d => if sinkReady then some (State.resetWith d) else none
    | none => none
  else none

end Sys2Proof.Machine
end

