-- ==== Sys2Proof/Machine/Port.lean ====
section
/-! DEFINITION. The host's read port (spec/10_state.md R31, R35; spec/44_orchestrator.md R113). -/

namespace Sys2Proof.Machine

/-- R35, R113: the value of a register that can be unwritten, or, while it is, the fault the spec raises for a host
read of it: "The model must not return 0 or any other value for it". -/
def readReg (reg : Reg) : Option Word → Host.Outcome Word Fault Refusal
  | some v => .next v
  | none => .fault (.readUnwritten reg)

/-- R31 port 3: `DFC = {dkind, dfc}`, once both are written. -/
def dfcWord (s : State) : Option Word :=
  match s.dkind, s.dfc with
  | some k, some F => some ((BitVec.ofBool (kindBit k) ++ F).setWidth 32)
  | _, _ => none

/-- R31: the register at a read-port number; a reserved number is refused (R130). -/
def readPort (s : State) : Nat → Host.Outcome Word Fault Refusal
  | 0 => .next ((outcomeCode s.outcome).setWidth 32)
  | 1 => readReg .result s.result
  | 2 => readReg .dvalue s.dval
  | 3 => readReg .dfc (dfcWord s)
  | 4 => readReg .status (s.dval.map fun v => statusWord (statusOf v))
  | 5 => .next ((BitVec.ofBool s.busy).setWidth 32)
  | 6 => .next (BitVec.ofNat 32 s.pumps)
  | 7 => .next (BitVec.ofNat 32 (ringLevel s.ring).val)
  | 8 => .next (BitVec.ofNat 32 s.frame.count.val)
  | p => .refused (.reservedPort p)

/-- R113: a host read changes no state of the engine; what the host has read is recorded beside it. -/
def hostRead (p : Nat) (s : State) : Host.Outcome State Fault Refusal :=
  match readPort s p with
  | .next v => .next (s.logRead p v)
  | .fault e => .fault e
  | .refused e => .refused e

end Sys2Proof.Machine
end

