-- ==== Sys2Proof/Machine/Fetch.lean ====
section
/-! DEFINITION. What the machine does next: the block has no program counter (spec/10_state.md R30), so the
host's next action and `S.busy` select it (spec/44_orchestrator.md R104, R108, R113). -/

namespace Sys2Proof.Machine

/-- The instruction that runs next and the state it runs in, or the end of a step that runs none. -/
inductive Fetched where
  | run (i : Instr) (s : State)
  | done (o : Host.Outcome State Fault Refusal)

/-- The engine left to itself: a pending QUERY runs a wait step (R108); a ready engine does nothing (R142). -/
def fetchEngine (s : State) : Fetched := if s.busy then .run .queryWait s else .done (.next s)

/-- R64, R130: an accepted command word is decoded, and a word that does not decode is refused. -/
def fetchCommand (w : Cmd) (s : State) : Fetched :=
  match decodeCmd w with
  | some i => .run i s
  | none => .done (.refused (.undecodedCommand w))

/-- R104, R113, R132: reads are allowed at any time; a command word is held while a QUERY is pending.  R65: an RX
line is taken at any time, so the ones after a QUERY are there for its wait steps. -/
def fetch (s : State) : Fetched :=
  match s.host with
  | .restart :: rest => .done (.next (restartEngine (s.setHost rest)))
  | .read p :: rest => .done (hostRead p (s.setHost rest))
  | .offer l :: rest => .done (.next ((s.setHost rest).offerRx l))
  | .idle :: rest => fetchEngine (s.setHost rest)
  | .command w :: rest => if s.busy then fetchEngine s else fetchCommand w (s.setHost rest)
  | [] => fetchEngine s

/-- R65, R67: what a line of a program asks of the outside: an RX line its list, and any other line its command
word, if it assembles to one. -/
def lineAction (c : Params) : AsmLine → Option HostAction
  | .rx bytes => some (.offer bytes)
  | l => (assemble c l).map .command

/-- R65: a line put after the actions to come, so that each RX line keeps its place among the operations. -/
def loadLine (c : Params) (l : AsmLine) (s : State) : Option State :=
  (lineAction c l).map fun a => s.setHost (s.host ++ [a])

/-- R65, R67: the lines of a program in order; one assembly error leaves no program. -/
def loadProgram (c : Params) : List AsmLine → State → Option State
  | [], s => some s
  | l :: rest, s => (loadLine c l s).bind (loadProgram c rest)

/-- A host that presents a command word next, to an engine that is ready for it. -/
def presentWord (s : State) (w : Cmd) : State := (s.setBusy false).setHost (.command w :: s.host)

/-- A PUMP next, whose only byte is `b`: the ring holds `b` alone and the drain offers nothing.  A code byte
arrives as byte 1 of its frame, any other at the parser's position. -/
def presentByte (s : State) (b : Byte) : State :=
  presentWord
    (((s.setRing (ringPush { s.ring with head := 0, tail := 0 } b).2).setRx ([] :: s.rx)).setFrame
      (if isStart b then s.frame else { s.frame with count := 1, expected := 0 }))
    2#48

end Sys2Proof.Machine
end

