-- ==== Sys2Proof/Machine/Step.lean ====
section
/-! DEFINITION. One step of the machine, and a word placed where the next step takes it from. -/

namespace Sys2Proof.Machine

/-- One step: what the fetch selects (R5, R41: each is atomic). -/
def step (s : State) : Host.Outcome State Fault Refusal :=
  match fetch s with
  | .run i t => exec i t
  | .done o => o

/-- `s` with a word of the opcode table next (log entries 3 and 12): a command word is presented by the host; a
received byte is the only byte of a PUMP. -/
def State.withFetchWord (s : State) (nbits w : Nat) : State :=
  if nbits = 8 ∧ w ≠ 3 then presentByte s (BitVec.ofNat 8 w)
  else presentWord s (BitVec.ofNat 48 w)

end Sys2Proof.Machine
end

