-- ==== Sys2Proof/Safety.lean ====
section
/-! DEFINITION. What the claims are stated in: the invariants of a run, sequences of the internal steps, and
what can be observed of a state. -/

namespace Sys2Proof.Machine

/-! ## Invariants -/

/-- R103 items 1 to 3, with what R20 and R94 say of the bytes held: they were written during the current frame,
and every one after byte 0 is a continuation byte. -/
structure FrameInv (f : FrameBuf) : Prop where
  ordered : Memory.wf f.buf
  inside : Memory.within f.buf Config.frameCap
  count_le : f.count.val ≤ 6
  unknown : f.expected.val = 0 ↔ f.count.val < 2
  known : 2 ≤ f.count.val → f.expected.val = frameLength f ∧ f.count.val < f.expected.val
  written : ∀ i, i < f.count.val → (Memory.read f.buf i).isSome = true
  continued : ∀ i, 1 ≤ i → i < f.count.val → isStart (frameSlot f i) = false

/-- R16: the ring's space is in canonical form, and every slot that holds an unread byte was written. -/
structure RingInv (r : RingBuf) : Prop where
  ordered : Memory.wf r.buf
  inside : Memory.within r.buf Config.ringCap
  written : ∀ k, k < (ringLevel r).val → (Memory.read r.buf (ringIndex r.tail k).val).isSome = true

/-- R79, R81: a decoded value lies in the range of its kind. -/
def decodedInRange (k : Kind) (v : Word) : Prop :=
  match k with
  | .signed => -134217728 ≤ v.toInt ∧ v.toInt ≤ 134217727
  | .unsigned => v.toNat < 268435456

/-- R24, R97: the three fields of the Decoded Value are written together, and the value is in range. -/
def DecodedInv (s : State) : Prop :=
  (s.dval = none ∧ s.dfc = none ∧ s.dkind = none) ∨
    ∃ v F, s.dval = some v ∧ s.dfc = some F ∧ s.dkind = some (kindOf s.cfg F) ∧ decodedInRange (kindOf s.cfg F) v

/-- R28, R110: a result that was written is the sentinel or a decoded value. -/
def ResultInv (s : State) : Prop :=
  ∀ v, s.result = some v → v = Config.sentinel ∨ ∃ k, decodedInRange k v

/-- The invariant of a run: what holds between any two steps. -/
structure Inv (s : State) : Prop where
  params : s.cfg.wf
  ring : RingInv s.ring
  frame : FrameInv s.frame
  /-- R35: Success is set by the completion that writes the Decoded Value. -/
  success : s.outcome = .success → s.dval ≠ none
  decoded : DecodedInv s
  result : ResultInv s
  /-- R113: a pending QUERY has seen no outcome, and has a wait step left (R109). -/
  pending : s.busy = true → s.outcome = .inProgress ∧ s.pumps < s.cfg.maxPumps
  /-- R15: `S.pumps` lies in 0..`MAX_PUMPS`. -/
  bounded : s.pumps ≤ s.cfg.maxPumps

/-! ## Sequences of internal steps -/

/-- PARSE_BYTE of each byte in order, until the first that completes a frame: whether one did, and the bytes
after it. -/
def parseAll : List Byte → State → Host.Outcome (Bool × List Byte × State) Fault Refusal
  | [], s => .next (false, [], s)
  | b :: rest, s =>
    match parseByte b s with
    | .next (true, t) => .next (true, rest, t)
    | .next (false, t) => parseAll rest t
    | .fault e => .fault e
    | .refused e => .refused e

/-- A call on the ring buffer (R72). -/
inductive RingCall where
  | push (b : Byte)
  | pop
  deriving DecidableEq, Repr

/-- A sequence of calls: the bytes PUSH accepted, the bytes POP returned, each in order, and the ring after it. -/
def ringCalls : List RingCall → RingBuf → List Byte × List Byte × RingBuf
  | [], r => ([], [], r)
  | .push b :: rest, r =>
    let q := ringCalls rest (ringPush r b).2
    if (ringPush r b).1 then (b :: q.1, q.2) else q
  | .pop :: rest, r =>
    let q := ringCalls rest (ringPop r).2
    match (ringPop r).1 with
    | some b => (q.1, b :: q.2.1, q.2.2)
    | none => q

/-- `n` wait steps of a QUERY, each through the dispatch. -/
def waitSteps : Nat → State → Host.Outcome State Fault Refusal
  | 0, s => .next s
  | n + 1, s =>
    match exec .queryWait s with
    | .next t => waitSteps n t
    | .fault e => .fault e
    | .refused e => .refused e

/-! ## Frames -/

/-- R58: a well-formed frame, as the sequence of its bytes. -/
def wellFormedFrame (fr : List Byte) : Prop :=
  ∃ axis code first rest ck,
    fr = axis :: code :: first :: (rest ++ [ck]) ∧ rest.length = lenCode code ∧
      isStart axis = true ∧ isStart code = false ∧ isStart first = false ∧
      (∀ b ∈ rest, isStart b = false) ∧ isStart ck = false ∧
      ckVer (axis :: code :: first :: rest) ck = true

/-- R103 item 4: a start byte followed by fewer continuation bytes than its length needs. -/
def truncatedFrame (p : List Byte) : Prop :=
  ∃ axis conts,
    p = axis :: conts ∧ isStart axis = true ∧ (∀ b ∈ conts, isStart b = false) ∧
      (∀ code more, conts = code :: more → more.length < lenCode code + 2)

/-- The payload of the frame in FRAME as a number in base 128, its first group the most significant (R59). -/
def payloadNumber (f : FrameBuf) : Nat :=
  (List.range (lenCode (frameSlot f 1) + 1)).foldl (fun a k => a * 128 + (frameSlot f (2 + k)).toNat % 128) 0

/-- FRAME holds the bytes of `fr` from index 0 on. -/
def frameHolds (f : FrameBuf) (fr : List Byte) : Prop := ∀ i b, fr[i]? = some b → frameSlot f i = b

/-- The bytes `FRAME[0..n−1]` as a list. -/
def frameBytes (f : FrameBuf) (n : Nat) : List Byte := (List.range n).map (frameSlot f)

/-- R93, R94: one byte more is held, at the index the count was, and nothing else of FRAME has changed. -/
def appended (f g : FrameBuf) (b : Byte) : Prop :=
  g.count.val = f.count.val + 1 ∧ frameSlot g f.count.val = b ∧ ∀ i, i ≠ f.count.val → frameSlot g i = frameSlot f i

/-- R94: a code byte `b` taken at count 1 fixes the expected length `n` and completes nothing. -/
def fixesLength (s : State) (b : Byte) (n : Nat) (o : Host.Outcome State Fault Refusal) : Prop :=
  ∃ g, o = .next ((s.setFrame g).setRet (.flag false)) ∧ appended s.frame g b ∧ g.expected.val = n

/-! ## Assembler lines -/

/-- R66, R67: a line with one axis operand and, where it has one, a value operand (`value` is 0 where it has none):
with operands that fit it assembles to the word that decodes to the SEND of function code `F`, that axis and the
payload that `payload` asks for, and otherwise to none. -/
def assemblesToSend (c : Params) (l : AsmLine) (axis value : Int) (F : FnCode) (payload : Word → Prop) : Prop :=
  if 0 ≤ axis ∧ axis ≤ 127 ∧ -2147483648 ≤ value ∧ value ≤ 2147483647 then
    ∃ w A v, assemble c l = some w ∧ decodeCmd w = some (.send F A v) ∧ (A.toNat : Int) = axis ∧ payload v
  else assemble c l = none

/-! ## Observation -/

/-- R16, R20: two ring buffers hold the same unread bytes at the same indices. -/
def sameRing (r q : RingBuf) : Prop :=
  r.head = q.head ∧ r.tail = q.tail ∧
    ∀ k, k < (ringLevel r).val → ringSlot r (ringIndex r.tail k) = ringSlot q (ringIndex r.tail k)

/-- R20: two frame buffers hold the same bytes of the current frame. -/
def sameFrame (f g : FrameBuf) : Prop :=
  f.count = g.count ∧ f.expected = g.expected ∧ ∀ i, i < f.count.val → frameSlot f i = frameSlot g i

/-- Two states that differ at most in slots of RING and FRAME that hold no unread byte and no byte of the
current frame. -/
def SameButStale (s t : State) : Prop :=
  sameRing s.ring t.ring ∧ sameFrame s.frame t.frame ∧ (t.setRing s.ring).setFrame s.frame = s

/-- The same outcome of a step, up to stale slots of the two spaces. -/
def sameOutcome : Host.Outcome State Fault Refusal → Host.Outcome State Fault Refusal → Prop
  | .next s, .next t => SameButStale s t
  | .fault e, .fault d => e = d
  | .refused e, .refused d => e = d
  | _, _ => False

/-- The engine's own fields of R15 but the histories: what a host read must not change (R113). -/
def sameEngine (s t : State) : Prop :=
  s.ring = t.ring ∧ s.frame = t.frame ∧ s.outcome = t.outcome ∧ s.dval = t.dval ∧ s.dfc = t.dfc ∧
    s.dkind = t.dkind ∧ s.busy = t.busy ∧ s.pumps = t.pumps ∧ s.result = t.result

end Sys2Proof.Machine
end

