-- ==== Sys2Proof/Certificates/Slice0/Obligations.lean ====
section
/-! DEFINITION. The statements for the provers.  Each cites the rule of spec/ it formalises. -/

open Sys2Proof Sys2Proof.Machine

/-! ## Encoding -/

/-- R64: a command word that agrees with a row of the opcode table under its mask is that row's operation, its
operands the fields of R63; every other word is refused. -/
def Obligations.CommandWordsDecodeByTheTable : Prop :=
  ∀ w : Cmd,
    (w &&& 0x00000000C003#48 = 0x000000000000#48 →
      decodeCmd w = some (.send (w.extractLsb' 2 5) (w.extractLsb' 7 7) (w.extractLsb' 16 32))) ∧
    (w &&& 0xFFFFFFFFC003#48 = 0x000000000001#48 →
      decodeCmd w = some (.query (w.extractLsb' 2 5) (w.extractLsb' 7 7))) ∧
    (w &&& 0xFFFFFFFFFFFF#48 = 0x000000000002#48 → decodeCmd w = some .pump) ∧
    (w &&& 0x00000000C003#48 ≠ 0x000000000000#48 → w &&& 0xFFFFFFFFC003#48 ≠ 0x000000000001#48 →
      w &&& 0xFFFFFFFFFFFF#48 ≠ 0x000000000002#48 →
      ∀ s rest, s.busy = false → s.host = .command w :: rest → ∃ r, step s = .refused r)

/-- Decoding the word of an instruction gives the instruction back, with every operand at every value; the word
of a helper decodes as the SEND it expands to (R66).  `n` is the parser's count when a received byte is read: a
code byte is byte 1 of its frame (R94), and a plain continuation byte is not. -/
def Obligations.EncodedInstructionsDecodeBack : Prop :=
  ∀ (c : Params) (i : Instr) (e : Encoded) (n : Nat), encode c i = some e →
    (∀ x, expandHelper c i = some x → decodeWord n e = some (.send x.1 x.2.1 x.2.2)) ∧
    (expandHelper c i = none → (∀ d, i = .parseCont d → n ≠ 1) →
      (∀ F, i = .frame4 F ∨ i = .frame5 F ∨ i = .frame6 F ∨ i = .frame7 F → n = 1) → decodeWord n e = some i)

/-- Encoding what a word decodes to gives the word back: no bit of a word is dropped. -/
def Obligations.DecodedWordsEncodeBack : Prop :=
  ∀ (c : Params),
    (∀ (w : Cmd) (i : Instr), decodeCmd w = some i → encode c i = some (.cmd w)) ∧
    (∀ (n : Nat) (b : Byte), encode c (decodeRx n b) = some (.rx b))

/-- Words written out from the encodings of R51, R53 and R63 decode to the instructions they stand for. -/
def Obligations.WordsWrittenOutDecode : Prop :=
  decodeCmd 0b111111111111111111111111111111110000000110010100#48 = some (.send 0x05#5 3#7 0xFFFFFFFF#32) ∧
    decodeCmd 0b000000000000000000000000000000000011111111111101#48 = some (.query 0x1F#5 127#7) ∧
    decodeCmd 0b000000000000000000000000000000000000000000000010#48 = some .pump ∧
    decodeRx 3 0b00000010#8 = .parseStart 2#7 ∧ decodeRx 0 0b10000001#8 = .parseCont 1#7 ∧
    decodeRx 1 0b10010000#8 = .frame4 0x10#5 ∧ decodeRx 1 0b10110000#8 = .frame5 0x10#5 ∧
    decodeRx 1 0b11000101#8 = .frame6 0x05#5 ∧ decodeRx 1 0b11100101#8 = .frame7 0x05#5

/-- R65, R66, R67: a line with an operand that does not fit gives no command word; one whose operands fit gives
the word that decodes to exactly them, a helper line the word of the SEND it expands to with its payload, clamped
for the setters; PUMP gives its one word and RX none.  That a setter's operand outside s32 does not fit, though its
clamped payload would, is the model's choice (log entry 20). -/
def Obligations.AssemblerTakesExactlyFittingOperands : Prop :=
  ∀ c : Params,
    (∀ l : AsmLine, l.wf = false → assemble c l = none) ∧
    (∀ fc axis value : Int,
      (¬ (0 ≤ fc ∧ fc ≤ 31 ∧ 0 ≤ axis ∧ axis ≤ 127 ∧ -2147483648 ≤ value ∧ value ≤ 2147483647) →
        assemble c (.send fc axis value) = none) ∧
      (0 ≤ fc ∧ fc ≤ 31 ∧ 0 ≤ axis ∧ axis ≤ 127 ∧ -2147483648 ≤ value ∧ value ≤ 2147483647 →
        ∃ w F A v, assemble c (.send fc axis value) = some w ∧ decodeCmd w = some (.send F A v) ∧
          (F.toNat : Int) = fc ∧ (A.toNat : Int) = axis ∧ v.toInt = value)) ∧
    (∀ fc axis : Int,
      (¬ (0 ≤ fc ∧ fc ≤ 31 ∧ 0 ≤ axis ∧ axis ≤ 127) → assemble c (.query fc axis) = none) ∧
      (0 ≤ fc ∧ fc ≤ 31 ∧ 0 ≤ axis ∧ axis ≤ 127 →
        ∃ w F A, assemble c (.query fc axis) = some w ∧ decodeCmd w = some (.query F A) ∧
          (F.toNat : Int) = fc ∧ (A.toNat : Int) = axis)) ∧
    assemble c .pump = some 0x000000000002#48 ∧ (∀ bytes, assemble c (.rx bytes) = none) ∧
    ∀ axis x : Int,
      assemblesToSend c (.moveabs axis x) axis x c.fcMoveAbs (fun v => v.toInt = x) ∧
      assemblesToSend c (.rotate axis x) axis x c.fcRotate (fun v => v.toInt = x) ∧
      assemblesToSend c (.origin axis) axis 0 c.fcOrigin (fun v => v = c.originPayload) ∧
      assemblesToSend c (.setgain axis x) axis x c.fcSetGain (fun v => v.toInt = max 1 (min 127 x)) ∧
      assemblesToSend c (.setspeed axis x) axis x c.fcSetSpeed (fun v => v.toInt = max 1 (min 127 x)) ∧
      assemblesToSend c (.setaccel axis x) axis x c.fcSetAccel (fun v => v.toInt = max 1 (min 127 x)) ∧
      assemblesToSend c (.enable axis) axis 0 c.fcEnable (fun v => v = c.enablePayload) ∧
      assemblesToSend c (.disable axis) axis 0 c.fcDisable (fun v => v = c.disablePayload)

/-! ## The step -/

/-- A step runs the decoded instruction: an accepted command word (R104) runs as exec of its instruction, with
the host past it; the engine's own step of a pending QUERY (R108) is exec of the wait step.  An RX line (R65) only
adds its list after those the drains to come will take.  The queue of actions is the model's (log entries 3, 7). -/
def Obligations.StepRunsTheDecodedInstruction : Prop :=
  ∀ (s : State) (w : Cmd) (rest : List HostAction) (i : Instr),
    (s.host = .command w :: rest → s.busy = false → decodeCmd w = some i → step s = exec i (s.setHost rest)) ∧
    (s.host = [] → s.busy = true → step s = exec .queryWait s) ∧
    (s.host = .idle :: rest → s.busy = true → step s = exec .queryWait (s.setHost rest)) ∧
    (∀ l, s.host = .offer l :: rest → step s = .next { s with host := rest, rx := s.rx ++ [l] })

/-- A pump drains, and then runs each byte it takes from the ring as the instruction the byte decodes to at the
parser's count (R91, R100): it goes on unless that instruction completed a frame, and it ends with the ring.  The 8 rounds of the loop and the
decoder that takes the count are the model's choice of form (log entries 13, 19). -/
def Obligations.PumpRunsEachByteAsItsInstruction : Prop :=
  (∀ s d : State, exec .drain s = .next d → exec .pumpBody s = pumpLoop 8 d) ∧
  (∀ (n : Nat) (s : State), (ringPop s.ring).1 = none → pumpLoop n s = .next s) ∧
  ∀ (n : Nat) (s t : State) (b : Byte) (r : RingBuf) (done : Bool),
    ringPop s.ring = (some b, r) → exec (decodeRx s.frame.count.val b) (s.setRing r) = .next t →
    t.ret = .flag done →
    pumpLoop (n + 1) s = if done then .next (t.setRet s.ret) else pumpLoop n (t.setRet s.ret)

/-- R104, R132: while a QUERY is pending, a command the host presents is held: the step is the engine's wait
step, the command stays, and nothing is refused; in the states of a run the step always has a next state.  The last
clause, that exec of SEND, QUERY or PUMP while busy, which no step runs, answers the unchanged state, is the model's
choice (log entry 6). -/
def Obligations.CommandsAreHeldWhileBusy : Prop :=
  ∀ (s : State) (w : Cmd) (rest : List HostAction), s.busy = true → s.host = .command w :: rest →
    step s = exec .queryWait s ∧ (∀ t, step s = .next t → t.host = s.host) ∧ (∀ r, step s ≠ .refused r) ∧
    (Inv s → ∃ t, step s = .next t) ∧
    ∀ F A v, exec (.send F A v) s = .next s ∧ exec (.query F A) s = .next s ∧ exec .pump s = .next s

/-- R130: the refused cases, each with its mark; a refused operation has no next state. -/
def Obligations.ReservedOperationsAreRefused : Prop :=
  (∀ rest s, exec (.reservedOp3 rest) s = .refused (.reservedCommand (rest ++ 3#2))) ∧
  (∀ (s : State) w rest, s.busy = false → s.host = .command w :: rest → w &&& 3#48 = 3#48 →
    step s = .refused (.reservedCommand w)) ∧
  (∀ (s : State) w rest, s.busy = false → s.host = .command w :: rest → w &&& 3#48 ≠ 3#48 →
    w &&& 0xC000#48 ≠ 0#48 ∨ (w &&& 3#48 = 1#48 ∧ w &&& 0xFFFFFFFF0000#48 ≠ 0#48) ∨
      (w &&& 3#48 = 2#48 ∧ w ≠ 2#48) →
    step s = .refused (.undecodedCommand w)) ∧
  (∀ (s : State) p rest, s.host = .read p :: rest → 9 ≤ p → step s = .refused (.reservedPort p))

/-! ## The read port -/

/-- R31, R61: what each written register reads as; the value is recorded and nothing else changes.  That port 6
shows a pump count of 2^32 or more modulo 2^32 is the model's choice (log entry 11). -/
def Obligations.ReadPortValues : Prop :=
  ∀ (s : State) (rest : List HostAction),
    (s.host = .read 0 :: rest → ∃ v, step s = .next ((s.setHost rest).logRead 0 v) ∧
      (s.outcome = .inProgress → v = 0#32) ∧ (s.outcome = .success → v = 1#32) ∧
      (s.outcome = .checksumError → v = 2#32) ∧ (s.outcome = .timeoutError → v = 3#32)) ∧
    (∀ x, s.host = .read 1 :: rest → s.result = some x → step s = .next ((s.setHost rest).logRead 1 x)) ∧
    (∀ x, s.host = .read 2 :: rest → s.dval = some x → step s = .next ((s.setHost rest).logRead 2 x)) ∧
    (∀ F k, s.host = .read 3 :: rest → s.dfc = some F → s.dkind = some k →
      ∃ v, step s = .next ((s.setHost rest).logRead 3 v) ∧
        v.toNat = F.toNat + (if k = .unsigned then 32 else 0)) ∧
    (∀ x, s.host = .read 4 :: rest → s.dval = some x →
      ∃ v, step s = .next ((s.setHost rest).logRead 4 v) ∧
        v.toNat = x.toNat % 128 +
          (if x.toNat / 4 % 8 = 0 then 0 else if x.toNat / 4 % 8 ≤ 3 then 128 else 256)) ∧
    (s.host = .read 5 :: rest → step s = .next ((s.setHost rest).logRead 5 (if s.busy then 1#32 else 0#32))) ∧
    (s.host = .read 6 :: rest → ∃ v, step s = .next ((s.setHost rest).logRead 6 v) ∧
      v.toNat = s.pumps % 4294967296) ∧
    (s.host = .read 7 :: rest → ∃ v, step s = .next ((s.setHost rest).logRead 7 v) ∧
      v.toNat = (s.ring.head.val + 8 - s.ring.tail.val) % 8) ∧
    (s.host = .read 8 :: rest → ∃ v, step s = .next ((s.setHost rest).logRead 8 v) ∧
      v.toNat = s.frame.count.val)

/-- R35: a host read of a register nothing has written since reset faults, by the register's name. -/
def Obligations.UnwrittenReadsFault : Prop :=
  ∀ (s : State) (rest : List HostAction),
    (s.host = .read 1 :: rest → s.result = none → step s = .fault (.readUnwritten .result)) ∧
    (s.host = .read 2 :: rest → s.dval = none → step s = .fault (.readUnwritten .dvalue)) ∧
    (s.host = .read 3 :: rest → s.dfc = none ∨ s.dkind = none → step s = .fault (.readUnwritten .dfc)) ∧
    (s.host = .read 4 :: rest → s.dval = none → step s = .fault (.readUnwritten .status))

/-- R113: a host read that returns changes no field of the engine and neither history, whether or not a QUERY is
pending; a reserved number is refused; and during a QUERY of a run, OUTCOME reads InProgress between wait steps. -/
def Obligations.HostReadsChangeNothing : Prop :=
  ∀ (s t : State) (p : Nat) (rest : List HostAction), s.host = .read p :: rest →
    (step s = .next t → sameEngine s t ∧ t.tx = s.tx ∧ t.reports = s.reports ∧ t.rx = s.rx ∧ t.cfg = s.cfg ∧
      t.sleeps = s.sleeps ∧ t.host = rest ∧ ∃ v, t.reads = s.reads ++ [(p, v)]) ∧
    (9 ≤ p → ∃ r, step s = .refused r) ∧
    (Inv s → s.busy = true → p = 0 → step s = .next ((s.setHost rest).logRead 0 0#32))

/-! ## Frames and SEND -/

/-- R53, R54, R55, R56: the bytes of a built frame, each at its index, for every function code, axis and value. -/
def Obligations.BuiltFramesHaveTheFrameLayout : Prop :=
  ∀ (F : FnCode) (A : Axis) (v : Word), ∃ L, L ≤ 3 ∧ (buildFrame F A v).length = 4 + L ∧
    (buildFrame F A v)[0]? = some (A.setWidth 8) ∧
    (∃ b, (buildFrame F A v)[1]? = some b ∧ b.toNat = 128 + 32 * L + F.toNat) ∧
    (∀ k, k ≤ L → (buildFrame F A v)[2 + k]? = some (0x80#8 ||| (v.extractLsb' (7 * (L - k)) 7).setWidth 8)) ∧
    (∃ ck, (buildFrame F A v)[3 + L]? = some ck ∧ 128 ≤ ck.toNat ∧
      ck.toNat % 128 = (((buildFrame F A v).take (3 + L)).map BitVec.toNat).sum % 128)

/-- R58: every frame BUILD_AND_SEND builds is well formed, so its checksum verifies. -/
def Obligations.BuiltFramesAreWellFormed : Prop :=
  ∀ (F : FnCode) (A : Axis) (v : Word), wellFormedFrame (buildFrame F A v)

/-- R105: BUILD_AND_SEND writes the axis byte, the code byte, the payload and the checksum to the transport, in
that order, in every state, and changes nothing else. -/
def Obligations.BuildAndSendTransmitsTheFrame : Prop :=
  ∀ (F : FnCode) (A : Axis) (v : Word) (s : State),
    let p := encodeValue v
    let fr := [A.setWidth 8, 0x80#8 ||| (BitVec.ofNat 8 (p.length - 1) <<< 5) ||| F.setWidth 8] ++ p
    exec (.buildAndSend F A v) s = .next { s with tx := s.tx ++ fr ++ [ckGen fr] }

/-- R106: a SEND that is accepted transmits its frame and changes nothing else. -/
def Obligations.SendTransmitsAndChangesNothingElse : Prop :=
  ∀ (F : FnCode) (A : Axis) (v : Word) (s : State), s.busy = false →
    exec (.send F A v) s = .next { s with tx := s.tx ++ buildFrame F A v }

/-- R107: a QUERY that is accepted sends its 4-byte frame, sets the outcome to InProgress, the pump count to 0 and
busy to 1, and changes nothing else: neither the ring nor the parser is cleared. -/
def Obligations.QueryIssueSendsFourBytes : Prop :=
  ∀ (F : FnCode) (A : Axis) (s : State), s.busy = false →
    exec (.query F A) s = .next { s with
      outcome := .inProgress, pumps := 0, busy := true,
      tx := s.tx ++ [A.setWidth 8, 0x80#8 ||| F.setWidth 8, 0x80#8,
        BitVec.ofNat 8 (128 + (A.toNat + F.toNat) % 128)] }

/-! ## Value codec -/

/-- R74, R75: ENCODE gives as many groups as the value's range needs, group `k` bits `7k+6 : 7k` of the value, the
most significant first, and changes no state of the engine. -/
def Obligations.EncodeEmitsTheGroups : Prop :=
  ∀ (v : Word) (s : State), ∃ l, exec (.encode v) s = .next (s.setRet (.bytes l)) ∧
    l.length = (if -64 ≤ v.toInt ∧ v.toInt ≤ 63 then 1
      else if -8192 ≤ v.toInt ∧ v.toInt ≤ 8191 then 2
      else if -1048576 ≤ v.toInt ∧ v.toInt ≤ 1048575 then 3 else 4) ∧
    ∀ j, j < l.length → l[j]? = some (0x80#8 ||| (v.extractLsb' (7 * (l.length - 1 - j)) 7).setWidth 8)

/-- R77: for a value in the 28-bit signed range, ENCODE_LEN is the least number of groups that carries it. -/
def Obligations.EncodeLengthIsMinimal : Prop :=
  ∀ v : Word, -134217728 ≤ v.toInt → v.toInt ≤ 134217727 →
    1 ≤ encodeLen v ∧ encodeLen v ≤ 4 ∧ (v.setWidth (7 * encodeLen v)).signExtend 32 = v ∧
    ∀ m, 1 ≤ m → m < encodeLen v → (v.setWidth (7 * m)).signExtend 32 ≠ v

/-- R76, R83: the frame built for any value decodes, signed, to the value wrapped to 28 bits, so to the value
itself in range; a non-negative value in range decodes unsigned to itself. -/
def Obligations.CodecRoundTrip : Prop :=
  ∀ (F : FnCode) (A : Axis) (v : Word) (f : FrameBuf), frameHolds f (buildFrame F A v) →
    frameSigned f = (v.setWidth 28).signExtend 32 ∧
    (-134217728 ≤ v.toInt → v.toInt ≤ 134217727 → frameSigned f = v) ∧
    (0 ≤ v.toInt → v.toInt ≤ 134217727 → frameUnsigned f = v)

/-- R78, R80, R82: the two decodes of the frame in FRAME are its payload read as a signed and as an unsigned
number, and DECODE takes the one its function code selects; none changes a state of the engine. -/
def Obligations.DecodesReadThePayload : Prop :=
  ∀ s : State, ∃ vs vu,
    exec .decodeS s = .next (s.setRet (.value vs)) ∧ exec .decodeU s = .next (s.setRet (.value vu)) ∧
    (kindOf s.cfg (codeFc (frameSlot s.frame 1)) = .signed →
      exec .decode s = .next (s.setRet (.decoded vs .signed))) ∧
    (kindOf s.cfg (codeFc (frameSlot s.frame 1)) = .unsigned →
      exec .decode s = .next (s.setRet (.decoded vu .unsigned))) ∧
    vu.toNat = payloadNumber s.frame ∧
    vs.toInt = if payloadNumber s.frame < 64 * 128 ^ lenCode (frameSlot s.frame 1) then (payloadNumber s.frame : Int)
      else (payloadNumber s.frame : Int) - 128 ^ (lenCode (frameSlot s.frame 1) + 1)

/-- R79, R81: the range of each decode by the length code, and over all frames; the sentinel is in neither. -/
def Obligations.DecodedValuesAreInRange : Prop :=
  ∀ f : FrameBuf,
    -(64 * 128 ^ lenCode (frameSlot f 1) : Int) ≤ (frameSigned f).toInt ∧
    (frameSigned f).toInt < 64 * 128 ^ lenCode (frameSlot f 1) ∧
    (frameUnsigned f).toNat < 128 ^ (lenCode (frameSlot f 1) + 1) ∧
    -134217728 ≤ (frameSigned f).toInt ∧ (frameSigned f).toInt ≤ 134217727 ∧ (frameUnsigned f).toNat < 268435456 ∧
    frameSigned f ≠ 0x80000000#32 ∧ frameUnsigned f ≠ 0x80000000#32

/-! ## Checksum -/

/-- R85, R86, R87: CKGEN's byte is the sum's low 7 bits under bit 7, CKVER compares the sum and the last byte modulo
128, for byte lists of every length, and neither changes a state of the engine. -/
def Obligations.ChecksumIsTheSumModulo128 : Prop :=
  ∀ (body : List Byte) (ck : Byte) (s : State),
    (∃ b, exec (.ckgen body) s = .next (s.setRet (.byte b)) ∧ b.toNat = 128 + (body.map BitVec.toNat).sum % 128) ∧
    ∃ ok, exec (.ckver body ck) s = .next (s.setRet (.flag ok)) ∧
      (ok = true ↔ (body.map BitVec.toNat).sum % 128 = ck.toNat % 128)

/-- R88: a generated checksum always verifies. -/
def Obligations.GeneratedChecksumVerifies : Prop :=
  ∀ (body : List Byte) (s : State), exec (.ckver body (ckGen body)) s = .next (s.setRet (.flag true))

/-- R89: from a frame that verifies, one flipped bit fails verification exactly when it is a data bit; and what
leaves the sum unchanged, a reordering among it, is not detected. -/
def Obligations.SingleBitErrorsAreDetectedUnlessFraming : Prop :=
  ∀ (body : List Byte) (ck : Byte) (k : Nat), k < 8 → ckVer body ck = true →
    ckVer body (ck ^^^ (1#8 <<< k)) = decide (k = 7) ∧
    (∀ j, j < body.length → ckVer (body.modify j fun b => b ^^^ (1#8 <<< k)) ck = decide (k = 7)) ∧
    ∀ body', body'.Perm body → ckVer body' ck = true

/-! ## Ring buffer -/

/-- R68, R69, R70, R71: PUSH and POP in every state, with what they return. -/
def Obligations.PushAndPopMoveOneByte : Prop :=
  ∀ (s : State) (b : Byte),
    ((s.ring.head.val + 1) % 8 = s.ring.tail.val → exec (.push b) s = .next (s.setRet (.flag false))) ∧
    ((s.ring.head.val + 1) % 8 ≠ s.ring.tail.val →
      ∃ r, exec (.push b) s = .next ((s.setRing r).setRet (.flag true)) ∧
        r.head.val = (s.ring.head.val + 1) % 8 ∧ r.tail = s.ring.tail ∧ ringSlot r s.ring.head = b ∧
        ∀ i, i ≠ s.ring.head → ringSlot r i = ringSlot s.ring i) ∧
    (s.ring.head.val = s.ring.tail.val → exec .pop s = .next (s.setRet (.popped none))) ∧
    (s.ring.head.val ≠ s.ring.tail.val →
      ∃ r, exec .pop s = .next ((s.setRing r).setRet (.popped (some (ringSlot s.ring s.ring.tail)))) ∧
        r.tail.val = (s.ring.tail.val + 1) % 8 ∧ r.head = s.ring.head ∧ ∀ i, ringSlot r i = ringSlot s.ring i)

/-- R72: over any sequence of calls from any ring, what was held and what PUSH accepted, in order, is what POP
returned, in order, and what is held. -/
def Obligations.RingBufferIsFirstInFirstOut : Prop :=
  ∀ (calls : List RingCall) (r : RingBuf),
    ringBytes r ++ (ringCalls calls r).1 = (ringCalls calls r).2.1 ++ ringBytes (ringCalls calls r).2.2

/-- R73: PUSH succeeds exactly when at most 6 bytes are held, at most 7 are ever held, and from an empty ring 7
pushes succeed and the eighth does not. -/
def Obligations.RingBufferHoldsSevenBytes : Prop :=
  ∀ r : RingBuf,
    (∀ b, (ringPush r b).1 = true ↔ (ringBytes r).length ≤ 6) ∧ (ringBytes r).length ≤ 7 ∧
    ∀ l : List Byte, r.head = r.tail → l.length = 8 → (ringCalls (l.map .push) r).1 = l.take 7

/-- R102: a drain takes the transport's next list and leaves, after the bytes already held, as many of its bytes
as fit, in arrival order; the other slots of RING stay. -/
def Obligations.DrainKeepsWhatFits : Prop :=
  ∀ s : State, ∃ r, exec .drain s = .next ((s.setRx s.rx.tail).setRing r) ∧
    ringBytes r = (ringBytes s.ring ++ s.rx.headD []).take 7 ∧ r.tail = s.ring.tail ∧
    ∀ k, min 7 (ringBytes s.ring ++ s.rx.headD []).length ≤ k → k < 8 →
      ringSlot r (ringIndex s.ring.tail k) = ringSlot s.ring (ringIndex s.ring.tail k)

/-- R131, R32: `readByte` with no byte available faults and never gives a value; with one it gives the oldest, and
`isByteAvailable` tells the two apart. -/
def Obligations.TransportReadFaultsWhenEmpty : Prop :=
  ∀ l : List Byte,
    (isByteAvailable l = false → transportReadByte l = .fault .readUnavailable) ∧
    (isByteAvailable l = true → ∃ b rest, l = b :: rest ∧ transportReadByte l = .next (b, rest))

/-! ## Frame parser -/

/-- R92: a start byte, in every state, becomes byte 0 of a new frame, and nothing but the parser changes. -/
def Obligations.StartByteBeginsAFrame : Prop :=
  ∀ (d : BitVec 7) (s : State), ∃ g, exec (.parseStart d) s = .next ((s.setFrame g).setRet (.flag false)) ∧
    g.count.val = 1 ∧ g.expected.val = 0 ∧ frameSlot g 0 = d.setWidth 8 ∧
    ∀ i, i ≠ 0 → frameSlot g i = frameSlot s.frame i

/-- R93, R94, R96: a continuation byte, at every count the parser can have (R103), is appended; at count 1 it fixes
the length, and when it reaches the length the frame completes. -/
def Obligations.ContinuationByteIsAppended : Prop :=
  ∀ (d : BitVec 7) (s : State), FrameInv s.frame →
    (s.frame.count.val = 0 ∨ (2 ≤ s.frame.count.val ∧ s.frame.count.val + 1 < s.frame.expected.val) →
      ∃ g, exec (.parseCont d) s = .next ((s.setFrame g).setRet (.flag false)) ∧
        appended s.frame g (0x80#8 ||| d.setWidth 8) ∧ g.expected = s.frame.expected) ∧
    (s.frame.count.val = 1 →
      ∃ g, exec (.parseCont d) s = .next ((s.setFrame g).setRet (.flag false)) ∧
        appended s.frame g (0x80#8 ||| d.setWidth 8) ∧ g.expected.val = 4 + d.toNat / 32) ∧
    (2 ≤ s.frame.count.val → s.frame.count.val + 1 = s.frame.expected.val →
      ∃ g, exec (.parseCont d) s = .next ((completeFrame (s.setFrame g)).setRet (.flag true)) ∧
        appended s.frame g (0x80#8 ||| d.setWidth 8) ∧ g.expected = s.frame.expected)

/-- R94: a code byte taken as byte 1 fixes the expected length, 4 to 7 by its length code.  That FRAME4 to FRAME7
run at another count act as the continuation byte they also are is the model's choice (log entry 15, from R91 and
R93). -/
def Obligations.CodeByteFixesTheLength : Prop :=
  ∀ (F : FnCode) (s : State),
    (s.frame.count.val = 1 →
      fixesLength s (0x80#8 ||| F.setWidth 8) 4 (exec (.frame4 F) s) ∧
      fixesLength s (0xA0#8 ||| F.setWidth 8) 5 (exec (.frame5 F) s) ∧
      fixesLength s (0xC0#8 ||| F.setWidth 8) 6 (exec (.frame6 F) s) ∧
      fixesLength s (0xE0#8 ||| F.setWidth 8) 7 (exec (.frame7 F) s)) ∧
    exec (.frame4 F) s = exec (.parseCont (F.setWidth 7)) s ∧
    exec (.frame5 F) s = exec (.parseCont (0x20#7 ||| F.setWidth 7)) s ∧
    exec (.frame6 F) s = exec (.parseCont (0x40#7 ||| F.setWidth 7)) s ∧
    exec (.frame7 F) s = exec (.parseCont (0x60#7 ||| F.setWidth 7)) s

/-- R96, R97, R98, R99: a complete frame whose checksum verifies writes the Decoded Value, Success and a Value
report; one whose checksum does not writes ChecksumError and its report and keeps the Decoded Value; either way
the parser is Idle after it, and nothing else changes. -/
def Obligations.CompletionDecidesByTheChecksum : Prop :=
  ∀ s : State, 2 ≤ s.frame.count.val → s.frame.count = s.frame.expected →
    let body := frameBytes s.frame (s.frame.count.val - 1)
    let ck := frameSlot s.frame (s.frame.count.val - 1)
    let F := codeFc (frameSlot s.frame 1)
    let idle := { s.frame with count := 0, expected := 0 }
    ((body.map BitVec.toNat).sum % 128 = ck.toNat % 128 →
      (kindOf s.cfg F = .signed → exec .complete s = .next { s with
        dval := some (frameSigned s.frame), dfc := some F, dkind := some .signed, outcome := .success,
        reports := s.reports ++ [.value F .signed (frameSigned s.frame)], frame := idle }) ∧
      (kindOf s.cfg F = .unsigned → exec .complete s = .next { s with
        dval := some (frameUnsigned s.frame), dfc := some F, dkind := some .unsigned, outcome := .success,
        reports := s.reports ++ [.value F .unsigned (frameUnsigned s.frame)], frame := idle })) ∧
    ((body.map BitVec.toNat).sum % 128 ≠ ck.toNat % 128 →
      exec .complete s = .next { s with
        outcome := .checksumError, reports := s.reports ++ [.checksumErr], frame := idle })

/-- The model's own choice (log entry 6): COMPLETE without a complete frame, and the wait step of a QUERY that is
not pending, have no step, so the state stays. -/
def Obligations.StepsNotEnabledChangeNothing : Prop :=
  ∀ s : State,
    (s.frame.count.val < 2 ∨ s.frame.count ≠ s.frame.expected → exec .complete s = .next s) ∧
    (s.busy = false → exec .queryWait s = .next s)

/-- R95, R128: with a frame buffer smaller than the expected length the code byte aborts the frame, with no outcome
and no report; with `FRAME_CAP` = 7 no code byte does. -/
def Obligations.MalformedLengthAborts : Prop :=
  ∀ (cap : Nat) (b : Byte) (s : State), s.frame.count.val = 1 → isStart b = false →
    (cap < 4 + lenCode b →
      ∃ g, parseByteCap cap b s = .next (false, s.setFrame g) ∧ g.count.val = 0 ∧ g.expected.val = 0 ∧
        ∀ i, i ≠ 1 → frameSlot g i = frameSlot s.frame i) ∧
    (cap = 7 → ∃ g, parseByteCap cap b s = .next (false, s.setFrame g) ∧ appended s.frame g b ∧
      g.expected.val = 4 + lenCode b ∧ g.expected.val ≤ 7)

/-- R103 item 4: after a truncated frame, the valid frame that follows directly completes with exactly its own
bytes, and gives the same outcome, Decoded Value and reports as without the prefix, from every state. -/
def Obligations.ParserResynchronises : Prop :=
  ∀ (s : State) (p fr : List Byte), truncatedFrame p → wellFormedFrame fr →
    ∃ t u, parseAll (p ++ fr) s = .next (true, [], t) ∧ parseAll fr s = .next (true, [], u) ∧
      t.outcome = .success ∧ u.outcome = .success ∧ t.dval = u.dval ∧ t.dfc = u.dfc ∧ t.dkind = u.dkind ∧
      t.reports = u.reports ∧ t.frame.count = u.frame.count ∧ t.frame.expected = u.frame.expected

/-! ## Pump -/

/-- R100, R101, R112: from every state with the parser's invariants a pump completes. It takes at most one frame:
either the ring is empty after it and no outcome has changed, or one frame has completed, with one report, and
what it did not take stays unread. The transmit side, busy, the pump count and the result stay. -/
def Obligations.PumpTakesAtMostOneFrame : Prop :=
  ∀ s : State, FrameInv s.frame → ∃ t, exec .pumpBody s = .next t ∧ (s.busy = false → exec .pump s = .next t) ∧
    t.busy = s.busy ∧ t.pumps = s.pumps ∧ t.result = s.result ∧ t.tx = s.tx ∧ t.cfg = s.cfg ∧ t.host = s.host ∧
    t.reads = s.reads ∧ t.sleeps = s.sleeps ∧ t.ret = s.ret ∧ t.rx = s.rx.tail ∧
    ringBytes t.ring <:+ (ringBytes s.ring ++ s.rx.headD []).take 7 ∧
    ((ringBytes t.ring = [] ∧ t.outcome = s.outcome ∧ t.dval = s.dval ∧ t.dfc = s.dfc ∧ t.dkind = s.dkind ∧
        t.reports = s.reports) ∨
      (t.frame.count.val = 0 ∧
        ((t.outcome = .success ∧ ∃ F v, t.dfc = some F ∧ t.dkind = some (kindOf s.cfg F) ∧ t.dval = some v ∧
            t.reports = s.reports ++ [.value F (kindOf s.cfg F) v]) ∨
          (t.outcome = .checksumError ∧ t.dval = s.dval ∧ t.dfc = s.dfc ∧ t.dkind = s.dkind ∧
            t.reports = s.reports ++ [.checksumErr]))))

/-- The memory frame of a pump (R38): it writes RING only by its drain, and with no byte to take it leaves FRAME
alone. -/
def Obligations.PumpWritesRingOnlyByItsDrain : Prop :=
  ∀ s d t : State, exec .drain s = .next d → exec .pumpBody s = .next t →
    t.ring.buf = d.ring.buf ∧ t.ring.head = d.ring.head ∧ (ringBytes d.ring = [] → t.frame = s.frame)

/-- A frame that one engine sends (R105) is received by a PUMP of another (R100, R97), whatever its parser held:
Success, the function code, its kind, and the value, wrapped to 28 bits if signed. -/
def Obligations.PumpReceivesWhatSendTransmits : Prop :=
  ∀ (F : FnCode) (A : Axis) (v : Word) (s : State) (rest : List (List Byte)), s.busy = false → ringBytes s.ring = [] →
    s.rx = buildFrame F A v :: rest →
    ∃ t x, exec .pump s = .next t ∧ t.outcome = .success ∧ t.dfc = some F ∧ t.dkind = some (kindOf s.cfg F) ∧
      t.dval = some x ∧ t.reports = s.reports ++ [.value F (kindOf s.cfg F) x] ∧ ringBytes t.ring = [] ∧
      t.rx = rest ∧ t.frame.count.val = 0 ∧
      (kindOf s.cfg F = .signed → x = (v.setWidth 28).signExtend 32) ∧
      (kindOf s.cfg F = .unsigned → 0 ≤ v.toInt → v.toInt ≤ 134217727 → x = v)

/-! ## QUERY -/

/-- R108, R109, R110, R134: what a wait step of a pending QUERY leaves, from what its pump leaves: completion wins
over the timeout, and the timeout comes at pump `MAX_PUMPS`; with the parser's invariants it always completes. -/
def Obligations.WaitStepEndsOnOutcomeOrBound : Prop :=
  ∀ s : State, s.busy = true → (FrameInv s.frame → ∃ t, exec .queryWait s = .next t) ∧ ∀ u : State,
    exec .pumpBody (if 0 < s.pumps ∧ 0 < s.cfg.pumpSleepMs then { s with sleeps := s.sleeps ++ [s.cfg.pumpSleepMs] }
      else s) = .next u →
    (u.outcome = .success →
      exec .queryWait s = .next { u with pumps := s.pumps + 1, result := u.dval, busy := false }) ∧
    (u.outcome = .checksumError ∨ u.outcome = .timeoutError →
      exec .queryWait s = .next { u with pumps := s.pumps + 1, result := some 0x80000000#32, busy := false }) ∧
    (u.outcome = .inProgress → s.pumps + 1 = s.cfg.maxPumps →
      exec .queryWait s = .next { u with
        pumps := s.pumps + 1, outcome := .timeoutError, result := some 0x80000000#32, busy := false }) ∧
    (u.outcome = .inProgress → s.pumps + 1 ≠ s.cfg.maxPumps →
      exec .queryWait s = .next { u with pumps := s.pumps + 1 })

/-- R110: the finish step writes the result, the Decoded Value on Success and the sentinel otherwise, and clears
busy; in the states of a run the Decoded Value is written on Success; the sentinel is outside every decoded range.
That with Success and an unwritten Decoded Value, in a state no run reaches, the result becomes unwritten is the
model's choice (log entry 17). -/
def Obligations.QueryFinishReturnsValueOrSentinel : Prop :=
  (∀ s : State,
    (s.outcome = .success → exec .queryFinish s = .next { s with result := s.dval, busy := false }) ∧
    (s.outcome ≠ .success → exec .queryFinish s = .next { s with result := some 0x80000000#32, busy := false }) ∧
    (Inv s → s.outcome = .success →
      ∃ v, s.dval = some v ∧ exec .queryFinish s = .next { s with result := some v, busy := false })) ∧
  ∀ k v, decodedInRange k v → v ≠ 0x80000000#32

/-- R108, R158: a QUERY accepted in a state of a run ends after at least 1 and at most `MAX_PUMPS` wait steps, with a
terminal outcome and a result; until then it is pending with outcome InProgress. -/
def Obligations.QueryEndsWithinMaxPumps : Prop :=
  ∀ (F : FnCode) (A : Axis) (s : State), Inv s → s.busy = false →
    ∃ t n u, exec (.query F A) s = .next t ∧ 1 ≤ n ∧ n ≤ s.cfg.maxPumps ∧ waitSteps n t = .next u ∧
      u.busy = false ∧ u.pumps = n ∧ u.outcome ≠ .inProgress ∧ u.result ≠ none ∧
      ∀ m, m < n → ∃ w, waitSteps m t = .next w ∧ w.busy = true ∧ w.outcome = .inProgress ∧ w.pumps = m

/-- R109: with a silent transport and nothing unread, a QUERY times out at wait step `MAX_PUMPS` and not before, with
the sentinel, and leaves the parser's partial frame and the Decoded Value as they are. -/
def Obligations.SilentTransportTimesOut : Prop :=
  ∀ (F : FnCode) (A : Axis) (s : State), s.cfg.wf → s.busy = false → ringBytes s.ring = [] → (∀ l ∈ s.rx, l = []) →
    ∃ t u, exec (.query F A) s = .next t ∧ waitSteps s.cfg.maxPumps t = .next u ∧ u.outcome = .timeoutError ∧
      u.result = some 0x80000000#32 ∧ u.busy = false ∧ u.pumps = s.cfg.maxPumps ∧ u.frame = s.frame ∧
      ringBytes u.ring = [] ∧ u.dval = s.dval ∧ u.dfc = s.dfc ∧ u.dkind = s.dkind ∧ u.reports = s.reports ∧
      ∀ m, m < s.cfg.maxPumps → ∃ w, waitSteps m t = .next w ∧ w.busy = true ∧ w.outcome = .inProgress

/-- R111, R83: the first frame that completes ends the wait, whatever its function code and axis: the QUERY returns
its value, and DFC shows whose it is.  The frame may be unread in RING, offered by the drain, or partly held in FRAME
already; what follows it, in `more`, stays unread. -/
def Obligations.QueryTakesTheFirstFrame : Prop :=
  ∀ (F : FnCode) (A : Axis) (v : Word) (more : List Byte) (s : State), s.busy = true →
    (ringBytes s.ring ++ s.rx.headD []).take 7 = buildFrame F A v ++ more ∨
      (FrameInv s.frame ∧ frameBytes s.frame s.frame.count.val ++ (ringBytes s.ring ++ s.rx.headD []).take 7 =
        buildFrame F A v ++ more) →
    ∃ t, exec .queryWait s = .next t ∧ t.busy = false ∧ t.outcome = .success ∧ t.dfc = some F ∧ t.result = t.dval ∧
      t.dval ≠ none ∧ t.pumps = s.pumps + 1 ∧ ringBytes t.ring = more ∧
      (kindOf s.cfg F = .signed → t.result = some ((v.setWidth 28).signExtend 32)) ∧
      (kindOf s.cfg F = .unsigned → 0 ≤ v.toInt → v.toInt ≤ 134217727 → t.result = some v)

/-- R127: TimeoutError is raised only by the wait step of a pending QUERY whose pump count reaches `MAX_PUMPS` with
the outcome still InProgress; no other instruction, PUMP among them, raises it. -/
def Obligations.OnlyTheLastWaitStepTimesOut : Prop :=
  ∀ (i : Instr) (s t : State), exec i s = .next t → t.outcome = .timeoutError → s.outcome ≠ .timeoutError →
    i = .queryWait ∧ s.busy = true ∧ s.outcome = .inProgress ∧ t.pumps = s.pumps + 1 ∧ t.pumps = s.cfg.maxPumps ∧
      t.result = some 0x80000000#32 ∧ t.busy = false

/-! ## Helpers and status -/

/-- R114 to R121: each helper that is accepted transmits the frame of one SEND with its own code and payload, the
gain, speed and accel magnitudes clamped to [1, 127], and changes nothing else.  That exec of a helper while busy,
which no step runs, answers the unchanged state is the model's choice (log entry 6). -/
def Obligations.HelpersTransmitOneFrame : Prop :=
  ∀ (A : Axis) (x : Word) (s : State),
    (s.busy = false →
      exec (.moveabs A x) s = .next { s with tx := s.tx ++ buildFrame s.cfg.fcMoveAbs A x } ∧
      exec (.rotate A x) s = .next { s with tx := s.tx ++ buildFrame s.cfg.fcRotate A x } ∧
      exec (.origin A) s = .next { s with tx := s.tx ++ buildFrame s.cfg.fcOrigin A s.cfg.originPayload } ∧
      exec (.enable A) s = .next { s with tx := s.tx ++ buildFrame s.cfg.fcEnable A s.cfg.enablePayload } ∧
      exec (.disable A) s = .next { s with tx := s.tx ++ buildFrame s.cfg.fcDisable A s.cfg.disablePayload } ∧
      ∃ y : Word, y.toInt = max 1 (min 127 x.toInt) ∧
        exec (.setgain A x) s = .next { s with tx := s.tx ++ buildFrame s.cfg.fcSetGain A y } ∧
        exec (.setspeed A x) s = .next { s with tx := s.tx ++ buildFrame s.cfg.fcSetSpeed A y } ∧
        exec (.setaccel A x) s = .next { s with tx := s.tx ++ buildFrame s.cfg.fcSetAccel A y }) ∧
    (s.busy = true →
      exec (.moveabs A x) s = .next s ∧ exec (.rotate A x) s = .next s ∧ exec (.origin A) s = .next s ∧
      exec (.enable A) s = .next s ∧ exec (.disable A) s = .next s ∧ exec (.setgain A x) s = .next s ∧
      exec (.setspeed A x) s = .next s ∧ exec (.setaccel A x) s = .next s)

/-- R156: a setter's value from 1 to 63 goes in a 4-byte frame, and one from 64 to 127 in a 5-byte frame whose
payload is `[0x80, 0x80 | v]`. -/
def Obligations.SetterFramesGrowAbove63 : Prop :=
  ∀ (F : FnCode) (A : Axis) (x : Word),
    (clampSetter x).toInt = max 1 (min 127 x.toInt) ∧
    (x.toInt ≤ 63 → ∃ ck, buildFrame F A (clampSetter x) =
      [A.setWidth 8, 0x80#8 ||| F.setWidth 8, 0x80#8 ||| (clampSetter x).setWidth 8, ck]) ∧
    (64 ≤ x.toInt → ∃ ck, buildFrame F A (clampSetter x) =
      [A.setWidth 8, 0xA0#8 ||| F.setWidth 8, 0x80#8, 0x80#8 ||| (clampSetter x).setWidth 8, ck])

/-- R122, R123: the fields of a status value, and the class of every alarm code; no state of the engine changes.
That STATUS_DECODE run alone on a value answers in every state, also while `S.dval` is unwritten, is the model's
choice (log entry 18). -/
def Obligations.StatusFieldsAndAlarmClasses : Prop :=
  (∀ (v : Word) (s : State), ∃ st, exec (.statusDecode v) s = .next (s.setRet (.status st)) ∧
    (st.inPosition = true ↔ v.toNat % 2 = 1) ∧ (st.engaged = true ↔ v.toNat / 2 % 2 = 1) ∧
    st.alarm.toNat = v.toNat / 4 % 8 ∧ (st.motionBusy = true ↔ v.toNat / 32 % 2 = 1) ∧
    (st.ioPin = true ↔ v.toNat / 64 % 2 = 1) ∧
    exec (.alarmClass st.alarm) s = .next (s.setRet (.alarm st.alarmFatal st.alarmAdvisory))) ∧
  ∀ (a : BitVec 3) (s : State), ∃ fatal advisory, exec (.alarmClass a) s = .next (s.setRet (.alarm fatal advisory)) ∧
    (fatal = true ↔ 1 ≤ a.toNat ∧ a.toNat ≤ 3) ∧ (advisory = true ↔ 4 ≤ a.toNat)

/-! ## Reset, configuration, restart -/

/-- R143: what reset leaves: the ring empty, the parser Idle, outcome InProgress, busy and pumps 0, the Decoded Value
and the result unwritten, the histories empty; and R8 holds of the parameters. -/
def Obligations.ResetLeavesTheEngineEmpty : Prop :=
  let s := State.reset
  s.ring.head = 0 ∧ s.ring.tail = 0 ∧ s.frame.count = 0 ∧ s.frame.expected = 0 ∧ s.outcome = .inProgress ∧
    s.busy = false ∧ s.pumps = 0 ∧ s.dval = none ∧ s.dfc = none ∧ s.dkind = none ∧ s.result = none ∧ s.tx = [] ∧
    s.reports = [] ∧ s.cfg.wf

/-- R142, R143, R145: a restart puts every field of the engine at its reset value and leaves the transport's bytes
alone.  That a restart is a step, that the new instance has the old one's configuration (R7 fixes it for one instance
only), and that the host's actions to come and its record of reads stay, is the model's choice (log entry 9). -/
def Obligations.RestartKeepsTheTransport : Prop :=
  ∀ (s : State) (rest : List HostAction), s.host = .restart :: rest →
    step s = .next { State.resetWith s.cfg with rx := s.rx, host := rest, reads := s.reads }

/-- R7, R34, R146: an engine boots only with an open port, `MAX_PUMPS` at least 1, a decode-kind table that has an
entry for each of the 32 codes, and a ready sink; it then starts at reset with every given parameter and the
table's kinds.  The form of the check is the model's choice (log entry 10). -/
def Obligations.BootChecksTheConfiguration : Prop :=
  ∀ (port sink : Bool) (c : Params) (table : List (Nat × Kind)),
    ((boot port c table sink).isSome = true ↔
      port = true ∧ sink = true ∧ 1 ≤ c.maxPumps ∧ ∀ F, F < 32 → ∃ k, (F, k) ∈ table) ∧
    ∀ s, boot port c table sink = some s →
      s = State.resetWith s.cfg ∧ (∃ kinds, s.cfg = { c with decodeKind := kinds }) ∧
      ∀ F : FnCode, (F.toNat, kindOf s.cfg F) ∈ table

/-! ## Whole-machine rules -/

/-- The invariant of a run holds at reset. -/
def Obligations.ResetSatisfiesTheInvariant : Prop := Inv State.reset

/-- The invariant of a run is kept by every step: the two spaces keep their canonical form and their unread bytes
are written (R16, R20), the parser's invariants hold (R103), a pending QUERY is InProgress with a pump left (R108,
R113), Success has a Decoded Value (R35), which is in range (R79, R81), and so is the result (R110). -/
def Obligations.EveryStepKeepsTheInvariant : Prop := ∀ s t : State, Inv s → step s = .next t → Inv t

/-- R35, R40, R130: in a run, the only fault is a host read of an unwritten register, and the only refusals are of a
reserved port and of a reserved or undecoded command word: the engine's own steps never stop. -/
def Obligations.OnlyHostActionsStopARun : Prop :=
  ∀ s : State, Inv s →
    (∀ e, step s = .fault e →
      ∃ p rest reg, s.host = .read p :: rest ∧ 1 ≤ p ∧ p ≤ 4 ∧ e = .readUnwritten reg) ∧
    (∀ r, step s = .refused r →
      (∃ p rest, s.host = .read p :: rest ∧ 9 ≤ p ∧ r = .reservedPort p) ∨
      (∃ w rest, s.host = .command w :: rest ∧ s.busy = false ∧ (r = .reservedCommand w ∨ r = .undecodedCommand w)))

/-- R24, R97, R98, R101: over every step but a restart, either no frame was reported and the Decoded Value is as it
was, or a Value report of exactly the new Decoded Value, or a ChecksumErr report and the Decoded Value as it was. -/
def Obligations.DecodedValueFollowsTheReports : Prop :=
  ∀ s t : State, (∀ rest, s.host ≠ .restart :: rest) → step s = .next t →
    (t.reports = s.reports ∧ t.dval = s.dval ∧ t.dfc = s.dfc ∧ t.dkind = s.dkind) ∨
    (t.reports = s.reports ++ [.checksumErr] ∧ t.outcome = .checksumError ∧ t.dval = s.dval ∧ t.dfc = s.dfc ∧
      t.dkind = s.dkind) ∨
    ∃ F v, t.reports = s.reports ++ [.value F (kindOf s.cfg F) v] ∧ t.outcome = .success ∧ t.dval = some v ∧
      t.dfc = some F ∧ t.dkind = some (kindOf s.cfg F)

/-- R48, R15: the transmit history only grows, and only by one whole frame of an operation that sends. -/
def Obligations.OnlySendersTransmit : Prop :=
  ∀ (i : Instr) (s t : State), exec i s = .next t →
    t.tx = s.tx ∨ ∃ F A v, t.tx = s.tx ++ buildFrame F A v ∧
      (i = .send F A v ∨ i = .buildAndSend F A v ∨ (i = .query F A ∧ v = 0#32) ∨
        expandHelper s.cfg i = some (F, A, v))

/-- R26: busy rises only when a QUERY is accepted and falls only when one finishes. -/
def Obligations.OnlyQueryRaisesBusy : Prop :=
  ∀ (i : Instr) (s t : State), exec i s = .next t →
    (s.busy = false → t.busy = true → ∃ F A, i = .query F A) ∧
    (s.busy = true → t.busy = false → i = .queryWait ∨ i = .queryFinish)

/-- R34: no instruction and no step changes the configuration.  That the new instance a restart step makes has the
old one's parameters is the model's choice (log entry 9): R7 fixes them for one instance only. -/
def Obligations.ConfigurationNeverChanges : Prop :=
  (∀ (i : Instr) (s t : State), exec i s = .next t → t.cfg = s.cfg) ∧
  ∀ s t : State, step s = .next t → t.cfg = s.cfg

/-- R16, R20: what the two spaces hold in slots with no unread byte and no byte of the current frame, their contents
after reset among it, cannot be observed: two such states take the same step, up to such slots. -/
def Obligations.StaleBytesCannotBeObserved : Prop :=
  ∀ s t : State, FrameInv s.frame → FrameInv t.frame → SameButStale s t → sameOutcome (step s) (step t)
end

