-- ==== Sys2Proof/Laws/Boot.lean ====
section
/-! SUPPORT. What boot can do (R146), and the decode kinds it gives an instance (R34). -/

namespace Sys2Proof.Machine

theorem withKinds_maxPumps (c : Params) (table : List (Nat × Kind)) : (withKinds c table).maxPumps = c.maxPumps := by
  rw [withKinds]

theorem kindOf_withKinds (c : Params) (table : List (Nat × Kind)) (F : FnCode) :
    kindOf (withKinds c table) F = (kindFrom table F.toNat).getD .signed := by
  simp only [kindOf, withKinds, Vector.get_ofFn]; rfl

/-- R34: the kind found for a code is one the table lists for it. -/
theorem mem_of_kindFrom {table : List (Nat × Kind)} {F : Nat} {k : Kind} (h : kindFrom table F = some k) :
    (F, k) ∈ table := by
  simp only [kindFrom, Option.map_eq_some_iff] at h
  obtain ⟨⟨a, b⟩, h1, h2⟩ := h
  have h3 := List.find?_some h1
  have hm := List.mem_of_find?_eq_some h1
  simp only [beq_iff_eq] at h3
  simp only at h2
  subst h3 h2
  exact hm

/-- R34: the check passes exactly when every code has an entry. -/
theorem kindTableTotal_iff (table : List (Nat × Kind)) :
    kindTableTotal table = true ↔ ∀ F, F < 32 → ∃ k, (F, k) ∈ table := by
  simp only [kindTableTotal, List.all_eq_true, List.mem_range]
  refine forall_congr' fun F => forall_congr' fun _ => ⟨fun h => ?_, fun ⟨k, h⟩ => ?_⟩
  · obtain ⟨k, hk⟩ := Option.isSome_iff_exists.1 h
    exact ⟨k, mem_of_kindFrom hk⟩
  · simp only [kindFrom, Option.isSome_map, List.find?_isSome]
    exact ⟨_, h, by simp⟩

/-- R146: boot gives an engine exactly when each of its conditions holds, and the engine is then at reset. -/
theorem boot_eq_some {port sink : Bool} {c : Params} {table : List (Nat × Kind)} {s : State} :
    boot port c table sink = some s ↔
      port = true ∧ sink = true ∧ kindTableTotal table = true ∧ c.wf ∧ s = State.resetWith (withKinds c table) := by
  by_cases hc : kindTableTotal table = true ∧ c.wf
  · have hb : buildConfig c table = some (withKinds c table) := if_pos hc
    cases port <;> cases sink <;> simp [boot, hb, hc, eq_comm]
  · have hb : buildConfig c table = none := if_neg hc
    refine ⟨fun h => ?_, fun h => absurd ⟨h.2.2.1, h.2.2.2.1⟩ hc⟩
    cases port <;> simp [boot, hb] at h

end Sys2Proof.Machine
end

