-- ==== Sys2Proof/Laws/Codec.lean ====
section
/-! SUPPORT. The value codec, the checksum and the byte fields as arithmetic on numbers. -/

namespace Sys2Proof.Machine

/-! ## Byte fields -/

theorem group_toNat (b : Byte) : (group b).toNat = b.toNat % 128 := by
  simp [group, BitVec.extractLsb'_toNat]

theorem lenCode_eq (b : Byte) : lenCode b = b.toNat / 32 % 4 := by
  simp [lenCode, BitVec.extractLsb'_toNat, Nat.shiftRight_eq_div_pow]

theorem codeFc_toNat (b : Byte) : (codeFc b).toNat = b.toNat % 32 := by
  simp [codeFc, BitVec.extractLsb'_toNat]

theorem isStart_eq_false (b : Byte) : isStart b = false ↔ 128 ≤ b.toNat := by
  have h := b.isLt
  simp only [isStart, BitVec.getLsbD, Bool.not_eq_false', Nat.testBit, Nat.shiftRight_eq_div_pow]
  rw [bne_iff_ne, Nat.one_and_eq_mod_two]; omega

theorem isStart_eq_true (b : Byte) : isStart b = true ↔ b.toNat < 128 := by
  rw [← Bool.not_eq_false, isStart_eq_false]; omega

theorem startByte_toNat (d : BitVec 7) : (startByte d).toNat = d.toNat := by
  have := d.isLt
  simp only [startByte, BitVec.toNat_setWidth]; omega

theorem or_high (n : Nat) (h : n < 128) : 128 ||| n = 128 + n := by
  have := (Nat.two_pow_add_eq_or_of_lt (i := 7) h 1).symm
  simpa using this

theorem contByte_toNat (d : BitVec 7) : (contByte d).toNat = 128 + d.toNat := by
  have := d.isLt
  rw [contByte, BitVec.toNat_or, BitVec.toNat_setWidth, Nat.mod_eq_of_lt (by omega)]
  exact or_high _ this

theorem codeByte_toNat (L : BitVec 2) (F : FnCode) : (codeByte L F).toNat = 128 + 32 * L.toNat + F.toNat := by
  revert L F; decide

theorem group_startByte (d : BitVec 7) : group (startByte d) = d := by
  apply BitVec.eq_of_toNat_eq
  have := d.isLt
  rw [group_toNat, startByte_toNat]; omega

theorem group_contByte (d : BitVec 7) : group (contByte d) = d := by
  apply BitVec.eq_of_toNat_eq
  have := d.isLt
  rw [group_toNat, contByte_toNat]; omega

theorem isStart_startByte (d : BitVec 7) : isStart (startByte d) = true := by
  rw [isStart_eq_true, startByte_toNat]; exact d.isLt

theorem isStart_contByte (d : BitVec 7) : isStart (contByte d) = false := by
  rw [isStart_eq_false, contByte_toNat]; omega

theorem isStart_codeByte (L : BitVec 2) (F : FnCode) : isStart (codeByte L F) = false := by
  rw [isStart_eq_false, codeByte_toNat]; omega

theorem lenCode_codeByte (L : BitVec 2) (F : FnCode) : lenCode (codeByte L F) = L.toNat := by
  have := F.isLt
  have := L.isLt
  rw [lenCode_eq, codeByte_toNat]; omega

theorem codeFc_codeByte (L : BitVec 2) (F : FnCode) : codeFc (codeByte L F) = F := by
  apply BitVec.eq_of_toNat_eq
  have := F.isLt
  rw [codeFc_toNat, codeByte_toNat]; omega

/-! ## Decoding as a number in base 128 -/

theorem zext7_toNat (b : Byte) : (zext7 b).toNat = b.toNat % 128 := by
  have := (group b).isLt
  rw [zext7, BitVec.toNat_setWidth, Nat.mod_eq_of_lt (by omega), group_toNat]

theorem sext7_toInt (b : Byte) :
    (sext7 b).toInt = if b.toNat % 128 < 64 then (b.toNat % 128 : Int) else (b.toNat % 128 : Int) - 128 := by
  rw [sext7, BitVec.toInt_signExtend_of_le (by omega), BitVec.toInt_eq_toNat_cond, group_toNat]
  split <;> split <;> omega

theorem accumulate_toNat (v : Word) (b : Byte) :
    (accumulate v b).toNat = (v.toNat * 128 + b.toNat % 128) % 4294967296 := by
  have hb := (group b).isLt
  rw [accumulate, BitVec.toNat_or, BitVec.toNat_shiftLeft, zext7_toNat, Nat.shiftLeft_eq]
  have h1 : v.toNat * 2 ^ 7 % 2 ^ 32 = 2 ^ 7 * (v.toNat % 2 ^ 25) := by
    rw [mul_comm, show (2 : Nat) ^ 32 = 2 ^ 7 * 2 ^ 25 by norm_num, Nat.mul_mod_mul_left]
  rw [h1, ← Nat.two_pow_add_eq_or_of_lt (by omega)]
  omega

theorem accumulate_toInt (v : Word) (b : Byte) (h1 : -16777216 ≤ v.toInt) (h2 : v.toInt < 16777216) :
    (accumulate v b).toInt = v.toInt * 128 + (b.toNat % 128 : Int) := by
  have h := accumulate_toNat v b
  have hv := v.isLt
  have e1 := BitVec.toInt_eq_toNat_cond v
  have e2 := BitVec.toInt_eq_toNat_cond (accumulate v b)
  rw [h] at e2
  split at e1 <;> split at e2 <;> omega

/-- R80: the value of a payload of up to four groups, in base 128. -/
theorem decodeUnsigned_toNat (first : Byte) (rest : List Byte) (h : rest.length ≤ 3) :
    (decodeUnsigned first rest).toNat =
      rest.foldl (fun a b => a * 128 + b.toNat % 128) (first.toNat % 128) := by
  have h0 := zext7_toNat first
  match rest, h with
  | [], _ => simpa [decodeUnsigned] using h0
  | [a], _ => simp only [decodeUnsigned, List.foldl, accumulate_toNat, h0]; omega
  | [a, b], _ => simp only [decodeUnsigned, List.foldl, accumulate_toNat, h0]; omega
  | [a, b, c], _ => simp only [decodeUnsigned, List.foldl, accumulate_toNat, h0]; omega

/-- R78: the value of a payload of up to four groups, in base 128, its first group signed. -/
theorem decodeSigned_toInt (first : Byte) (rest : List Byte) (h : rest.length ≤ 3) :
    (decodeSigned first rest).toInt =
      rest.foldl (fun a b => a * 128 + (b.toNat % 128 : Int)) (sext7 first).toInt := by
  have h0 := sext7_toInt first
  have hlo : -64 ≤ (sext7 first).toInt := by split at h0 <;> omega
  have hhi : (sext7 first).toInt < 64 := by split at h0 <;> omega
  match rest, h with
  | [], _ => rfl
  | [a], _ =>
    simp only [decodeSigned, List.foldl]
    rw [accumulate_toInt _ _ (by omega) (by omega)]
  | [a, b], _ =>
    simp only [decodeSigned, List.foldl]
    have e1 := accumulate_toInt (sext7 first) a (by omega) (by omega)
    rw [accumulate_toInt _ _ (by omega) (by omega), e1]
  | [a, b, c], _ =>
    simp only [decodeSigned, List.foldl]
    have e1 := accumulate_toInt (sext7 first) a (by omega) (by omega)
    have e2 := accumulate_toInt (accumulate (sext7 first) a) b (by omega) (by omega)
    rw [accumulate_toInt _ _ (by omega) (by omega), e2, e1]

/-! ## Encoding -/

/-- R74: the windows of ENCODE_LEN as ranges. -/
theorem fitsAbove_iff (v : Word) (k : Nat) :
    fitsAbove v k = true ↔ -(2 ^ k : Int) ≤ v.toInt ∧ v.toInt < 2 ^ k := by
  have hpos : (0 : Int) < 2 ^ k := by positivity
  have hs : (v.sshiftRight k).toInt = v.toInt / 2 ^ k := by
    rw [BitVec.toInt_sshiftRight, Int.shiftRight_eq_div_pow]; norm_cast
  have e0 : v.sshiftRight k = 0#32 ↔ v.toInt / 2 ^ k = 0 := by
    rw [← hs, ← BitVec.toInt_inj]; rfl
  have e1 : v.sshiftRight k = 0xFFFFFFFF#32 ↔ v.toInt / 2 ^ k = -1 := by
    rw [← hs, ← BitVec.toInt_inj]; rfl
  simp only [fitsAbove, Bool.or_eq_true, beq_iff_eq, e0, e1]
  constructor
  · rintro (h | h)
    · have := Int.mul_ediv_add_emod v.toInt (2 ^ k)
      have := Int.emod_nonneg v.toInt hpos.ne'
      have := Int.emod_lt_of_pos v.toInt hpos
      rw [h] at *; constructor <;> linarith
    · have := Int.mul_ediv_add_emod v.toInt (2 ^ k)
      have := Int.emod_nonneg v.toInt hpos.ne'
      have := Int.emod_lt_of_pos v.toInt hpos
      rw [h] at *; constructor <;> linarith
  · rintro ⟨h1, h2⟩
    by_cases h : 0 ≤ v.toInt
    · exact .inl (Int.ediv_eq_zero_of_lt h h2)
    · right
      rw [Int.ediv_eq_iff_of_pos hpos]
      constructor <;> linarith

/-- R74: the number of groups, by the range of the value. -/
theorem encodeLen_cases (v : Word) :
    (encodeLen v = 1 ∧ -64 ≤ v.toInt ∧ v.toInt < 64) ∨
      (encodeLen v = 2 ∧ (v.toInt < -64 ∨ 64 ≤ v.toInt) ∧ -8192 ≤ v.toInt ∧ v.toInt < 8192) ∨
      (encodeLen v = 3 ∧ (v.toInt < -8192 ∨ 8192 ≤ v.toInt) ∧ -1048576 ≤ v.toInt ∧ v.toInt < 1048576) ∨
      (encodeLen v = 4 ∧ (v.toInt < -1048576 ∨ 1048576 ≤ v.toInt)) := by
  have h6 := fitsAbove_iff v 6
  have h13 := fitsAbove_iff v 13
  have h20 := fitsAbove_iff v 20
  norm_num at h6 h13 h20
  simp only [encodeLen]
  by_cases a : fitsAbove v 6 = true
  · have := h6.1 a; simp only [a, if_true]; exact .inl ⟨trivial, this.1, this.2⟩
  · have na := h6.not.1 a
    by_cases b : fitsAbove v 13 = true
    · have := h13.1 b; simp only [a, b, if_true]; simp; omega
    · have nb := h13.not.1 b
      by_cases c : fitsAbove v 20 = true
      · have := h20.1 c; simp only [a, b, c, if_true]; simp; omega
      · have nc := h20.not.1 c
        simp only [a, b, c]; simp; omega

/-- R75: group `k` is bits `7k+6 : 7k` of the value, under the framing bit. -/
theorem encodeGroup_eq (v : Word) {k : Nat} (hk : k < 4) : encodeGroup v k = contByte (v.extractLsb' (7 * k) 7) := by
  have : k = 0 ∨ k = 1 ∨ k = 2 ∨ k = 3 := by omega
  apply BitVec.eq_of_getLsbD_eq
  intro i hi
  have hi' : i = 0 ∨ i = 1 ∨ i = 2 ∨ i = 3 ∨ i = 4 ∨ i = 5 ∨ i = 6 ∨ i = 7 := by omega
  rcases this with rfl | rfl | rfl | rfl <;>
    rcases hi' with rfl | rfl | rfl | rfl | rfl | rfl | rfl | rfl <;>
      simp [encodeGroup, contByte]

theorem encodeGroup_toNat (v : Word) {k : Nat} (hk : k < 4) :
    (encodeGroup v k).toNat = 128 + v.toNat / 128 ^ k % 128 := by
  rw [encodeGroup_eq v hk, contByte_toNat, BitVec.extractLsb'_toNat, Nat.shiftRight_eq_div_pow, pow_mul]
  norm_num

/-- R75: the groups by their number. -/
theorem encodeValue_cases (v : Word) :
    (encodeLen v = 1 ∧ encodeValue v = [encodeGroup v 0]) ∨
      (encodeLen v = 2 ∧ encodeValue v = [encodeGroup v 1, encodeGroup v 0]) ∨
      (encodeLen v = 3 ∧ encodeValue v = [encodeGroup v 2, encodeGroup v 1, encodeGroup v 0]) ∨
      (encodeLen v = 4 ∧ encodeValue v = [encodeGroup v 3, encodeGroup v 2, encodeGroup v 1, encodeGroup v 0]) := by
  rcases encodeLen_cases v with ⟨h, _⟩ | ⟨h, _⟩ | ⟨h, _⟩ | ⟨h, _⟩ <;>
    simp [encodeValue, h, List.range_succ]

theorem encodeValue_length (v : Word) : (encodeValue v).length = encodeLen v := by simp [encodeValue]

theorem encodeLen_bounds (v : Word) : 1 ≤ encodeLen v ∧ encodeLen v ≤ 4 := by
  rcases encodeLen_cases v with ⟨h, _⟩ | ⟨h, _⟩ | ⟨h, _⟩ | ⟨h, _⟩ <;> omega

theorem isStart_of_mem_encodeValue {v : Word} {b : Byte} (h : b ∈ encodeValue v) : isStart b = false := by
  simp only [encodeValue, List.mem_map, List.mem_reverse, List.mem_range] at h
  obtain ⟨k, hk, rfl⟩ := h
  have := (encodeLen_bounds v).2
  rw [encodeGroup_eq v (by omega)]
  exact isStart_contByte _

/-! ## Checksum -/

/-- R85: the sum modulo 256. -/
theorem sumBytes_toNat (l : List Byte) : (sumBytes l).toNat = (l.map BitVec.toNat).sum % 256 := by
  suffices ∀ (l : List Byte) (a : Byte), (l.foldl (· + ·) a).toNat = (a.toNat + (l.map BitVec.toNat).sum) % 256 by
    simpa [sumBytes] using this l 0#8
  intro l
  induction l with
  | nil => intro a; have := a.isLt; simp; omega
  | cons b l ih =>
    intro a
    simp only [List.foldl_cons, ih, BitVec.toNat_add, List.map_cons, List.sum_cons]
    omega

/-- R85: the checksum byte's 7 data bits are the sum modulo 128, and its bit 7 is 1. -/
theorem ckGen_toNat (l : List Byte) : (ckGen l).toNat = 128 + (l.map BitVec.toNat).sum % 128 := by
  have h := sumBytes_toNat l
  have key : ∀ b : Byte, (b ||| 0x80#8).toNat = 128 + b.toNat % 128 := by decide
  rw [ckGen, key, h]; omega

/-- R87: the verification compares the sum and the checksum byte modulo 128. -/
theorem ckVer_iff (l : List Byte) (ck : Byte) :
    ckVer l ck = true ↔ (l.map BitVec.toNat).sum % 128 = ck.toNat % 128 := by
  have h := sumBytes_toNat l
  have e : ((sumBytes l ^^^ ck) &&& 0x7F#8).toNat = ((sumBytes l).toNat % 128) ^^^ (ck.toNat % 128) := by
    rw [BitVec.toNat_and, BitVec.toNat_xor]
    show (_ &&& 2 ^ 7 - 1) = _
    rw [Nat.and_two_pow_sub_one_eq_mod]
    exact Nat.xor_mod_two_pow (n := 7)
  rw [ckVer, beq_iff_eq, ← BitVec.toNat_inj, e]
  show (_ ^^^ _) = 0 ↔ _
  rw [Nat.xor_eq_zero_iff, h]
  omega

end Sys2Proof.Machine
end

