-- ==== Sys2Proof/Laws/Encoding.lean ====
section
/-! SUPPORT. The fields of a command word as arithmetic on numbers (spec/30_encoding.md R63). -/

namespace Sys2Proof

theorem append_toNat {n m : Nat} (x : BitVec n) (y : BitVec m) : (x ++ y).toNat = x.toNat * 2 ^ m + y.toNat := by
  rw [BitVec.toNat_append, Nat.shiftLeft_eq, mul_comm, Nat.two_pow_add_eq_or_of_lt y.isLt]

/-- R63: a command word is its fields at their places. -/
theorem packCmd_toNat (op : BitVec 2) (fc : FnCode) (axis : Axis) (value : Word) :
    (packCmd op fc axis value).toNat = value.toNat * 65536 + axis.toNat * 128 + fc.toNat * 4 + op.toNat := by
  have h : (packCmd op fc axis value).toNat = (value ++ (0#2 ++ (axis ++ (fc ++ op)))).toNat := rfl
  rw [h, append_toNat, append_toNat, append_toNat, append_toNat]
  simp only [BitVec.toNat_ofNat]; omega

theorem cmdOp_toNat (w : Cmd) : (cmdOp w).toNat = w.toNat % 4 := by
  simp [cmdOp, BitVec.extractLsb'_toNat]

theorem cmdFc_toNat (w : Cmd) : (cmdFc w).toNat = w.toNat / 4 % 32 := by
  simp [cmdFc, BitVec.extractLsb'_toNat, Nat.shiftRight_eq_div_pow]

theorem cmdAxis_toNat (w : Cmd) : (cmdAxis w).toNat = w.toNat / 128 % 128 := by
  simp [cmdAxis, BitVec.extractLsb'_toNat, Nat.shiftRight_eq_div_pow]

theorem cmdRsv_toNat (w : Cmd) : (cmdRsv w).toNat = w.toNat / 16384 % 4 := by
  simp [cmdRsv, BitVec.extractLsb'_toNat, Nat.shiftRight_eq_div_pow]

theorem cmdValue_toNat (w : Cmd) : (cmdValue w).toNat = w.toNat / 65536 := by
  have := w.isLt
  simp only [cmdValue, BitVec.extractLsb'_toNat, Nat.shiftRight_eq_div_pow]
  omega

end Sys2Proof
end

