-- ==== Sys2Proof/Laws/Memory.lean ====
section
/-! SUPPORT. The laws of the two address spaces: a read after a write, and the canonical form kept. -/

namespace Sys2Proof.Machine

theorem Memory.read_write_same (m : Memory) (i : Nat) (v : Byte) : Memory.read (Memory.write m i v) i = some v := by
  induction m with
  | nil => simp [Memory.write, Memory.read]
  | cons c m ih =>
    obtain ⟨a, b⟩ := c
    by_cases h : i < a
    · simp [Memory.write, Memory.read, h]
    · by_cases e : i = a
      · simp [Memory.write, Memory.read, e]
      · simp [Memory.write, Memory.read, h, e, ih, Ne.symm e]

theorem Memory.read_write_other (m : Memory) {i j : Nat} (v : Byte) (hne : j ≠ i) :
    Memory.read (Memory.write m i v) j = Memory.read m j := by
  induction m with
  | nil => simp [Memory.write, Memory.read, Ne.symm hne]
  | cons c m ih =>
    obtain ⟨a, b⟩ := c
    by_cases h : i < a
    · simp [Memory.write, Memory.read, h, Ne.symm hne]
    · by_cases e : i = a
      · subst e; simp [Memory.write, Memory.read, Ne.symm hne]
      · simp only [Memory.write, h, e, if_false, Memory.read, ih]

theorem Memory.mem_write {m : Memory} {i : Nat} {v : Byte} {c : Host.Cell} (h : c ∈ Memory.write m i v) :
    c = (i, v) ∨ c ∈ m := by
  induction m with
  | nil => simpa [Memory.write] using h
  | cons d m ih =>
    obtain ⟨a, b⟩ := d
    by_cases h1 : i < a
    · simpa [Memory.write, h1] using h
    · by_cases e : i = a
      · subst e
        simp only [Memory.write, lt_irrefl, if_false, if_true, List.mem_cons] at h
        rcases h with h | h <;> simp [h]
      · simp only [Memory.write, h1, e, if_false, List.mem_cons] at h
        rcases h with h | h
        · simp [h]
        · rcases ih h with h | h <;> simp [h]

theorem Memory.write_wf {m : Memory} (h : Memory.wf m) (i : Nat) (v : Byte) : Memory.wf (Memory.write m i v) := by
  induction m with
  | nil => simp [Memory.write]
  | cons c m ih =>
    obtain ⟨a, b⟩ := c
    obtain ⟨ha, hm⟩ := List.pairwise_cons.1 h
    by_cases h1 : i < a
    · simp only [Memory.write, h1, if_true]
      refine List.pairwise_cons.2 ⟨fun d hd => ?_, h⟩
      rcases List.mem_cons.1 hd with rfl | hd
      · exact h1
      · exact lt_trans h1 (ha d hd)
    · by_cases e : i = a
      · subst e
        simp only [Memory.write, lt_irrefl, if_false, if_true]
        exact List.pairwise_cons.2 ⟨ha, hm⟩
      · simp only [Memory.write, h1, e, if_false]
        refine List.pairwise_cons.2 ⟨fun d hd => ?_, ih hm⟩
        rcases Memory.mem_write hd with rfl | hd
        · simp only; omega
        · exact ha d hd

theorem Memory.write_within {m : Memory} {n i : Nat} (h : Memory.within m n) (hi : i < n) (v : Byte) :
    Memory.within (Memory.write m i v) n := by
  intro c hc
  rcases Memory.mem_write hc with rfl | hc
  · exact hi
  · exact h c hc

theorem Memory.read_write_isSome (m : Memory) (i j : Nat) (v : Byte) :
    (Memory.read (Memory.write m i v) j).isSome = (decide (j = i) || (Memory.read m j).isSome) := by
  by_cases h : j = i
  · subst h; simp [Memory.read_write_same]
  · simp [Memory.read_write_other m v h, h]

theorem Memory.reset_wf : Memory.wf State.reset.ring.buf ∧ Memory.wf State.reset.frame.buf := by
  exact ⟨List.Pairwise.nil, List.Pairwise.nil⟩

end Sys2Proof.Machine
end

