-- ==== Sys2Proof/Laws/State.lean ====
section
/-! SUPPORT. Each field after each update of State: one lemma per field per update, so that no later proof
unfolds a record update. -/

namespace Sys2Proof.Machine

variable (s : State)

@[simp] theorem State.setRing_cfg (r : RingBuf) : (s.setRing r).cfg = s.cfg := rfl
@[simp] theorem State.setRing_ring (r : RingBuf) : (s.setRing r).ring = r := rfl
@[simp] theorem State.setRing_frame (r : RingBuf) : (s.setRing r).frame = s.frame := rfl
@[simp] theorem State.setRing_outcome (r : RingBuf) : (s.setRing r).outcome = s.outcome := rfl
@[simp] theorem State.setRing_dval (r : RingBuf) : (s.setRing r).dval = s.dval := rfl
@[simp] theorem State.setRing_dfc (r : RingBuf) : (s.setRing r).dfc = s.dfc := rfl
@[simp] theorem State.setRing_dkind (r : RingBuf) : (s.setRing r).dkind = s.dkind := rfl
@[simp] theorem State.setRing_busy (r : RingBuf) : (s.setRing r).busy = s.busy := rfl
@[simp] theorem State.setRing_pumps (r : RingBuf) : (s.setRing r).pumps = s.pumps := rfl
@[simp] theorem State.setRing_result (r : RingBuf) : (s.setRing r).result = s.result := rfl
@[simp] theorem State.setRing_tx (r : RingBuf) : (s.setRing r).tx = s.tx := rfl
@[simp] theorem State.setRing_reports (r : RingBuf) : (s.setRing r).reports = s.reports := rfl
@[simp] theorem State.setRing_rx (r : RingBuf) : (s.setRing r).rx = s.rx := rfl
@[simp] theorem State.setRing_host (r : RingBuf) : (s.setRing r).host = s.host := rfl
@[simp] theorem State.setRing_reads (r : RingBuf) : (s.setRing r).reads = s.reads := rfl
@[simp] theorem State.setRing_sleeps (r : RingBuf) : (s.setRing r).sleeps = s.sleeps := rfl
@[simp] theorem State.setRing_ret (r : RingBuf) : (s.setRing r).ret = s.ret := rfl

@[simp] theorem State.setFrame_cfg (f : FrameBuf) : (s.setFrame f).cfg = s.cfg := rfl
@[simp] theorem State.setFrame_ring (f : FrameBuf) : (s.setFrame f).ring = s.ring := rfl
@[simp] theorem State.setFrame_frame (f : FrameBuf) : (s.setFrame f).frame = f := rfl
@[simp] theorem State.setFrame_outcome (f : FrameBuf) : (s.setFrame f).outcome = s.outcome := rfl
@[simp] theorem State.setFrame_dval (f : FrameBuf) : (s.setFrame f).dval = s.dval := rfl
@[simp] theorem State.setFrame_dfc (f : FrameBuf) : (s.setFrame f).dfc = s.dfc := rfl
@[simp] theorem State.setFrame_dkind (f : FrameBuf) : (s.setFrame f).dkind = s.dkind := rfl
@[simp] theorem State.setFrame_busy (f : FrameBuf) : (s.setFrame f).busy = s.busy := rfl
@[simp] theorem State.setFrame_pumps (f : FrameBuf) : (s.setFrame f).pumps = s.pumps := rfl
@[simp] theorem State.setFrame_result (f : FrameBuf) : (s.setFrame f).result = s.result := rfl
@[simp] theorem State.setFrame_tx (f : FrameBuf) : (s.setFrame f).tx = s.tx := rfl
@[simp] theorem State.setFrame_reports (f : FrameBuf) : (s.setFrame f).reports = s.reports := rfl
@[simp] theorem State.setFrame_rx (f : FrameBuf) : (s.setFrame f).rx = s.rx := rfl
@[simp] theorem State.setFrame_host (f : FrameBuf) : (s.setFrame f).host = s.host := rfl
@[simp] theorem State.setFrame_reads (f : FrameBuf) : (s.setFrame f).reads = s.reads := rfl
@[simp] theorem State.setFrame_sleeps (f : FrameBuf) : (s.setFrame f).sleeps = s.sleeps := rfl
@[simp] theorem State.setFrame_ret (f : FrameBuf) : (s.setFrame f).ret = s.ret := rfl

@[simp] theorem State.setOutcome_cfg (o : ProtocolOutcome) : (s.setOutcome o).cfg = s.cfg := rfl
@[simp] theorem State.setOutcome_ring (o : ProtocolOutcome) : (s.setOutcome o).ring = s.ring := rfl
@[simp] theorem State.setOutcome_frame (o : ProtocolOutcome) : (s.setOutcome o).frame = s.frame := rfl
@[simp] theorem State.setOutcome_outcome (o : ProtocolOutcome) : (s.setOutcome o).outcome = o := rfl
@[simp] theorem State.setOutcome_dval (o : ProtocolOutcome) : (s.setOutcome o).dval = s.dval := rfl
@[simp] theorem State.setOutcome_dfc (o : ProtocolOutcome) : (s.setOutcome o).dfc = s.dfc := rfl
@[simp] theorem State.setOutcome_dkind (o : ProtocolOutcome) : (s.setOutcome o).dkind = s.dkind := rfl
@[simp] theorem State.setOutcome_busy (o : ProtocolOutcome) : (s.setOutcome o).busy = s.busy := rfl
@[simp] theorem State.setOutcome_pumps (o : ProtocolOutcome) : (s.setOutcome o).pumps = s.pumps := rfl
@[simp] theorem State.setOutcome_result (o : ProtocolOutcome) : (s.setOutcome o).result = s.result := rfl
@[simp] theorem State.setOutcome_tx (o : ProtocolOutcome) : (s.setOutcome o).tx = s.tx := rfl
@[simp] theorem State.setOutcome_reports (o : ProtocolOutcome) : (s.setOutcome o).reports = s.reports := rfl
@[simp] theorem State.setOutcome_rx (o : ProtocolOutcome) : (s.setOutcome o).rx = s.rx := rfl
@[simp] theorem State.setOutcome_host (o : ProtocolOutcome) : (s.setOutcome o).host = s.host := rfl
@[simp] theorem State.setOutcome_reads (o : ProtocolOutcome) : (s.setOutcome o).reads = s.reads := rfl
@[simp] theorem State.setOutcome_sleeps (o : ProtocolOutcome) : (s.setOutcome o).sleeps = s.sleeps := rfl
@[simp] theorem State.setOutcome_ret (o : ProtocolOutcome) : (s.setOutcome o).ret = s.ret := rfl

@[simp] theorem State.setDecoded_cfg (v : Word) (F : FnCode) (k : Kind) : (s.setDecoded v F k).cfg = s.cfg := rfl
@[simp] theorem State.setDecoded_ring (v : Word) (F : FnCode) (k : Kind) : (s.setDecoded v F k).ring = s.ring := rfl
@[simp] theorem State.setDecoded_frame (v : Word) (F : FnCode) (k : Kind) : (s.setDecoded v F k).frame = s.frame := rfl
@[simp] theorem State.setDecoded_outcome (v : Word) (F : FnCode) (k : Kind) : (s.setDecoded v F k).outcome = s.outcome := rfl
@[simp] theorem State.setDecoded_dval (v : Word) (F : FnCode) (k : Kind) : (s.setDecoded v F k).dval = some v := rfl
@[simp] theorem State.setDecoded_dfc (v : Word) (F : FnCode) (k : Kind) : (s.setDecoded v F k).dfc = some F := rfl
@[simp] theorem State.setDecoded_dkind (v : Word) (F : FnCode) (k : Kind) : (s.setDecoded v F k).dkind = some k := rfl
@[simp] theorem State.setDecoded_busy (v : Word) (F : FnCode) (k : Kind) : (s.setDecoded v F k).busy = s.busy := rfl
@[simp] theorem State.setDecoded_pumps (v : Word) (F : FnCode) (k : Kind) : (s.setDecoded v F k).pumps = s.pumps := rfl
@[simp] theorem State.setDecoded_result (v : Word) (F : FnCode) (k : Kind) : (s.setDecoded v F k).result = s.result := rfl
@[simp] theorem State.setDecoded_tx (v : Word) (F : FnCode) (k : Kind) : (s.setDecoded v F k).tx = s.tx := rfl
@[simp] theorem State.setDecoded_reports (v : Word) (F : FnCode) (k : Kind) : (s.setDecoded v F k).reports = s.reports := rfl
@[simp] theorem State.setDecoded_rx (v : Word) (F : FnCode) (k : Kind) : (s.setDecoded v F k).rx = s.rx := rfl
@[simp] theorem State.setDecoded_host (v : Word) (F : FnCode) (k : Kind) : (s.setDecoded v F k).host = s.host := rfl
@[simp] theorem State.setDecoded_reads (v : Word) (F : FnCode) (k : Kind) : (s.setDecoded v F k).reads = s.reads := rfl
@[simp] theorem State.setDecoded_sleeps (v : Word) (F : FnCode) (k : Kind) : (s.setDecoded v F k).sleeps = s.sleeps := rfl
@[simp] theorem State.setDecoded_ret (v : Word) (F : FnCode) (k : Kind) : (s.setDecoded v F k).ret = s.ret := rfl

@[simp] theorem State.setBusy_cfg (b : Bool) : (s.setBusy b).cfg = s.cfg := rfl
@[simp] theorem State.setBusy_ring (b : Bool) : (s.setBusy b).ring = s.ring := rfl
@[simp] theorem State.setBusy_frame (b : Bool) : (s.setBusy b).frame = s.frame := rfl
@[simp] theorem State.setBusy_outcome (b : Bool) : (s.setBusy b).outcome = s.outcome := rfl
@[simp] theorem State.setBusy_dval (b : Bool) : (s.setBusy b).dval = s.dval := rfl
@[simp] theorem State.setBusy_dfc (b : Bool) : (s.setBusy b).dfc = s.dfc := rfl
@[simp] theorem State.setBusy_dkind (b : Bool) : (s.setBusy b).dkind = s.dkind := rfl
@[simp] theorem State.setBusy_busy (b : Bool) : (s.setBusy b).busy = b := rfl
@[simp] theorem State.setBusy_pumps (b : Bool) : (s.setBusy b).pumps = s.pumps := rfl
@[simp] theorem State.setBusy_result (b : Bool) : (s.setBusy b).result = s.result := rfl
@[simp] theorem State.setBusy_tx (b : Bool) : (s.setBusy b).tx = s.tx := rfl
@[simp] theorem State.setBusy_reports (b : Bool) : (s.setBusy b).reports = s.reports := rfl
@[simp] theorem State.setBusy_rx (b : Bool) : (s.setBusy b).rx = s.rx := rfl
@[simp] theorem State.setBusy_host (b : Bool) : (s.setBusy b).host = s.host := rfl
@[simp] theorem State.setBusy_reads (b : Bool) : (s.setBusy b).reads = s.reads := rfl
@[simp] theorem State.setBusy_sleeps (b : Bool) : (s.setBusy b).sleeps = s.sleeps := rfl
@[simp] theorem State.setBusy_ret (b : Bool) : (s.setBusy b).ret = s.ret := rfl

@[simp] theorem State.setPumps_cfg (n : Nat) : (s.setPumps n).cfg = s.cfg := rfl
@[simp] theorem State.setPumps_ring (n : Nat) : (s.setPumps n).ring = s.ring := rfl
@[simp] theorem State.setPumps_frame (n : Nat) : (s.setPumps n).frame = s.frame := rfl
@[simp] theorem State.setPumps_outcome (n : Nat) : (s.setPumps n).outcome = s.outcome := rfl
@[simp] theorem State.setPumps_dval (n : Nat) : (s.setPumps n).dval = s.dval := rfl
@[simp] theorem State.setPumps_dfc (n : Nat) : (s.setPumps n).dfc = s.dfc := rfl
@[simp] theorem State.setPumps_dkind (n : Nat) : (s.setPumps n).dkind = s.dkind := rfl
@[simp] theorem State.setPumps_busy (n : Nat) : (s.setPumps n).busy = s.busy := rfl
@[simp] theorem State.setPumps_pumps (n : Nat) : (s.setPumps n).pumps = n := rfl
@[simp] theorem State.setPumps_result (n : Nat) : (s.setPumps n).result = s.result := rfl
@[simp] theorem State.setPumps_tx (n : Nat) : (s.setPumps n).tx = s.tx := rfl
@[simp] theorem State.setPumps_reports (n : Nat) : (s.setPumps n).reports = s.reports := rfl
@[simp] theorem State.setPumps_rx (n : Nat) : (s.setPumps n).rx = s.rx := rfl
@[simp] theorem State.setPumps_host (n : Nat) : (s.setPumps n).host = s.host := rfl
@[simp] theorem State.setPumps_reads (n : Nat) : (s.setPumps n).reads = s.reads := rfl
@[simp] theorem State.setPumps_sleeps (n : Nat) : (s.setPumps n).sleeps = s.sleeps := rfl
@[simp] theorem State.setPumps_ret (n : Nat) : (s.setPumps n).ret = s.ret := rfl

@[simp] theorem State.setResult_cfg (v : Option Word) : (s.setResult v).cfg = s.cfg := rfl
@[simp] theorem State.setResult_ring (v : Option Word) : (s.setResult v).ring = s.ring := rfl
@[simp] theorem State.setResult_frame (v : Option Word) : (s.setResult v).frame = s.frame := rfl
@[simp] theorem State.setResult_outcome (v : Option Word) : (s.setResult v).outcome = s.outcome := rfl
@[simp] theorem State.setResult_dval (v : Option Word) : (s.setResult v).dval = s.dval := rfl
@[simp] theorem State.setResult_dfc (v : Option Word) : (s.setResult v).dfc = s.dfc := rfl
@[simp] theorem State.setResult_dkind (v : Option Word) : (s.setResult v).dkind = s.dkind := rfl
@[simp] theorem State.setResult_busy (v : Option Word) : (s.setResult v).busy = s.busy := rfl
@[simp] theorem State.setResult_pumps (v : Option Word) : (s.setResult v).pumps = s.pumps := rfl
@[simp] theorem State.setResult_result (v : Option Word) : (s.setResult v).result = v := rfl
@[simp] theorem State.setResult_tx (v : Option Word) : (s.setResult v).tx = s.tx := rfl
@[simp] theorem State.setResult_reports (v : Option Word) : (s.setResult v).reports = s.reports := rfl
@[simp] theorem State.setResult_rx (v : Option Word) : (s.setResult v).rx = s.rx := rfl
@[simp] theorem State.setResult_host (v : Option Word) : (s.setResult v).host = s.host := rfl
@[simp] theorem State.setResult_reads (v : Option Word) : (s.setResult v).reads = s.reads := rfl
@[simp] theorem State.setResult_sleeps (v : Option Word) : (s.setResult v).sleeps = s.sleeps := rfl
@[simp] theorem State.setResult_ret (v : Option Word) : (s.setResult v).ret = s.ret := rfl

@[simp] theorem State.appendTx_cfg (l : List Byte) : (s.appendTx l).cfg = s.cfg := rfl
@[simp] theorem State.appendTx_ring (l : List Byte) : (s.appendTx l).ring = s.ring := rfl
@[simp] theorem State.appendTx_frame (l : List Byte) : (s.appendTx l).frame = s.frame := rfl
@[simp] theorem State.appendTx_outcome (l : List Byte) : (s.appendTx l).outcome = s.outcome := rfl
@[simp] theorem State.appendTx_dval (l : List Byte) : (s.appendTx l).dval = s.dval := rfl
@[simp] theorem State.appendTx_dfc (l : List Byte) : (s.appendTx l).dfc = s.dfc := rfl
@[simp] theorem State.appendTx_dkind (l : List Byte) : (s.appendTx l).dkind = s.dkind := rfl
@[simp] theorem State.appendTx_busy (l : List Byte) : (s.appendTx l).busy = s.busy := rfl
@[simp] theorem State.appendTx_pumps (l : List Byte) : (s.appendTx l).pumps = s.pumps := rfl
@[simp] theorem State.appendTx_result (l : List Byte) : (s.appendTx l).result = s.result := rfl
@[simp] theorem State.appendTx_tx (l : List Byte) : (s.appendTx l).tx = s.tx ++ l := rfl
@[simp] theorem State.appendTx_reports (l : List Byte) : (s.appendTx l).reports = s.reports := rfl
@[simp] theorem State.appendTx_rx (l : List Byte) : (s.appendTx l).rx = s.rx := rfl
@[simp] theorem State.appendTx_host (l : List Byte) : (s.appendTx l).host = s.host := rfl
@[simp] theorem State.appendTx_reads (l : List Byte) : (s.appendTx l).reads = s.reads := rfl
@[simp] theorem State.appendTx_sleeps (l : List Byte) : (s.appendTx l).sleeps = s.sleeps := rfl
@[simp] theorem State.appendTx_ret (l : List Byte) : (s.appendTx l).ret = s.ret := rfl

@[simp] theorem State.appendReport_cfg (e : Report) : (s.appendReport e).cfg = s.cfg := rfl
@[simp] theorem State.appendReport_ring (e : Report) : (s.appendReport e).ring = s.ring := rfl
@[simp] theorem State.appendReport_frame (e : Report) : (s.appendReport e).frame = s.frame := rfl
@[simp] theorem State.appendReport_outcome (e : Report) : (s.appendReport e).outcome = s.outcome := rfl
@[simp] theorem State.appendReport_dval (e : Report) : (s.appendReport e).dval = s.dval := rfl
@[simp] theorem State.appendReport_dfc (e : Report) : (s.appendReport e).dfc = s.dfc := rfl
@[simp] theorem State.appendReport_dkind (e : Report) : (s.appendReport e).dkind = s.dkind := rfl
@[simp] theorem State.appendReport_busy (e : Report) : (s.appendReport e).busy = s.busy := rfl
@[simp] theorem State.appendReport_pumps (e : Report) : (s.appendReport e).pumps = s.pumps := rfl
@[simp] theorem State.appendReport_result (e : Report) : (s.appendReport e).result = s.result := rfl
@[simp] theorem State.appendReport_tx (e : Report) : (s.appendReport e).tx = s.tx := rfl
@[simp] theorem State.appendReport_reports (e : Report) : (s.appendReport e).reports = s.reports ++ [e] := rfl
@[simp] theorem State.appendReport_rx (e : Report) : (s.appendReport e).rx = s.rx := rfl
@[simp] theorem State.appendReport_host (e : Report) : (s.appendReport e).host = s.host := rfl
@[simp] theorem State.appendReport_reads (e : Report) : (s.appendReport e).reads = s.reads := rfl
@[simp] theorem State.appendReport_sleeps (e : Report) : (s.appendReport e).sleeps = s.sleeps := rfl
@[simp] theorem State.appendReport_ret (e : Report) : (s.appendReport e).ret = s.ret := rfl

@[simp] theorem State.setRx_cfg (l : List (List Byte)) : (s.setRx l).cfg = s.cfg := rfl
@[simp] theorem State.setRx_ring (l : List (List Byte)) : (s.setRx l).ring = s.ring := rfl
@[simp] theorem State.setRx_frame (l : List (List Byte)) : (s.setRx l).frame = s.frame := rfl
@[simp] theorem State.setRx_outcome (l : List (List Byte)) : (s.setRx l).outcome = s.outcome := rfl
@[simp] theorem State.setRx_dval (l : List (List Byte)) : (s.setRx l).dval = s.dval := rfl
@[simp] theorem State.setRx_dfc (l : List (List Byte)) : (s.setRx l).dfc = s.dfc := rfl
@[simp] theorem State.setRx_dkind (l : List (List Byte)) : (s.setRx l).dkind = s.dkind := rfl
@[simp] theorem State.setRx_busy (l : List (List Byte)) : (s.setRx l).busy = s.busy := rfl
@[simp] theorem State.setRx_pumps (l : List (List Byte)) : (s.setRx l).pumps = s.pumps := rfl
@[simp] theorem State.setRx_result (l : List (List Byte)) : (s.setRx l).result = s.result := rfl
@[simp] theorem State.setRx_tx (l : List (List Byte)) : (s.setRx l).tx = s.tx := rfl
@[simp] theorem State.setRx_reports (l : List (List Byte)) : (s.setRx l).reports = s.reports := rfl
@[simp] theorem State.setRx_rx (l : List (List Byte)) : (s.setRx l).rx = l := rfl
@[simp] theorem State.setRx_host (l : List (List Byte)) : (s.setRx l).host = s.host := rfl
@[simp] theorem State.setRx_reads (l : List (List Byte)) : (s.setRx l).reads = s.reads := rfl
@[simp] theorem State.setRx_sleeps (l : List (List Byte)) : (s.setRx l).sleeps = s.sleeps := rfl
@[simp] theorem State.setRx_ret (l : List (List Byte)) : (s.setRx l).ret = s.ret := rfl

@[simp] theorem State.offerRx_cfg (l : List Byte) : (s.offerRx l).cfg = s.cfg := rfl
@[simp] theorem State.offerRx_ring (l : List Byte) : (s.offerRx l).ring = s.ring := rfl
@[simp] theorem State.offerRx_frame (l : List Byte) : (s.offerRx l).frame = s.frame := rfl
@[simp] theorem State.offerRx_outcome (l : List Byte) : (s.offerRx l).outcome = s.outcome := rfl
@[simp] theorem State.offerRx_dval (l : List Byte) : (s.offerRx l).dval = s.dval := rfl
@[simp] theorem State.offerRx_dfc (l : List Byte) : (s.offerRx l).dfc = s.dfc := rfl
@[simp] theorem State.offerRx_dkind (l : List Byte) : (s.offerRx l).dkind = s.dkind := rfl
@[simp] theorem State.offerRx_busy (l : List Byte) : (s.offerRx l).busy = s.busy := rfl
@[simp] theorem State.offerRx_pumps (l : List Byte) : (s.offerRx l).pumps = s.pumps := rfl
@[simp] theorem State.offerRx_result (l : List Byte) : (s.offerRx l).result = s.result := rfl
@[simp] theorem State.offerRx_tx (l : List Byte) : (s.offerRx l).tx = s.tx := rfl
@[simp] theorem State.offerRx_reports (l : List Byte) : (s.offerRx l).reports = s.reports := rfl
@[simp] theorem State.offerRx_rx (l : List Byte) : (s.offerRx l).rx = s.rx ++ [l] := rfl
@[simp] theorem State.offerRx_host (l : List Byte) : (s.offerRx l).host = s.host := rfl
@[simp] theorem State.offerRx_reads (l : List Byte) : (s.offerRx l).reads = s.reads := rfl
@[simp] theorem State.offerRx_sleeps (l : List Byte) : (s.offerRx l).sleeps = s.sleeps := rfl
@[simp] theorem State.offerRx_ret (l : List Byte) : (s.offerRx l).ret = s.ret := rfl

@[simp] theorem State.setHost_cfg (l : List HostAction) : (s.setHost l).cfg = s.cfg := rfl
@[simp] theorem State.setHost_ring (l : List HostAction) : (s.setHost l).ring = s.ring := rfl
@[simp] theorem State.setHost_frame (l : List HostAction) : (s.setHost l).frame = s.frame := rfl
@[simp] theorem State.setHost_outcome (l : List HostAction) : (s.setHost l).outcome = s.outcome := rfl
@[simp] theorem State.setHost_dval (l : List HostAction) : (s.setHost l).dval = s.dval := rfl
@[simp] theorem State.setHost_dfc (l : List HostAction) : (s.setHost l).dfc = s.dfc := rfl
@[simp] theorem State.setHost_dkind (l : List HostAction) : (s.setHost l).dkind = s.dkind := rfl
@[simp] theorem State.setHost_busy (l : List HostAction) : (s.setHost l).busy = s.busy := rfl
@[simp] theorem State.setHost_pumps (l : List HostAction) : (s.setHost l).pumps = s.pumps := rfl
@[simp] theorem State.setHost_result (l : List HostAction) : (s.setHost l).result = s.result := rfl
@[simp] theorem State.setHost_tx (l : List HostAction) : (s.setHost l).tx = s.tx := rfl
@[simp] theorem State.setHost_reports (l : List HostAction) : (s.setHost l).reports = s.reports := rfl
@[simp] theorem State.setHost_rx (l : List HostAction) : (s.setHost l).rx = s.rx := rfl
@[simp] theorem State.setHost_host (l : List HostAction) : (s.setHost l).host = l := rfl
@[simp] theorem State.setHost_reads (l : List HostAction) : (s.setHost l).reads = s.reads := rfl
@[simp] theorem State.setHost_sleeps (l : List HostAction) : (s.setHost l).sleeps = s.sleeps := rfl
@[simp] theorem State.setHost_ret (l : List HostAction) : (s.setHost l).ret = s.ret := rfl

@[simp] theorem State.logRead_cfg (p : Nat) (v : Word) : (s.logRead p v).cfg = s.cfg := rfl
@[simp] theorem State.logRead_ring (p : Nat) (v : Word) : (s.logRead p v).ring = s.ring := rfl
@[simp] theorem State.logRead_frame (p : Nat) (v : Word) : (s.logRead p v).frame = s.frame := rfl
@[simp] theorem State.logRead_outcome (p : Nat) (v : Word) : (s.logRead p v).outcome = s.outcome := rfl
@[simp] theorem State.logRead_dval (p : Nat) (v : Word) : (s.logRead p v).dval = s.dval := rfl
@[simp] theorem State.logRead_dfc (p : Nat) (v : Word) : (s.logRead p v).dfc = s.dfc := rfl
@[simp] theorem State.logRead_dkind (p : Nat) (v : Word) : (s.logRead p v).dkind = s.dkind := rfl
@[simp] theorem State.logRead_busy (p : Nat) (v : Word) : (s.logRead p v).busy = s.busy := rfl
@[simp] theorem State.logRead_pumps (p : Nat) (v : Word) : (s.logRead p v).pumps = s.pumps := rfl
@[simp] theorem State.logRead_result (p : Nat) (v : Word) : (s.logRead p v).result = s.result := rfl
@[simp] theorem State.logRead_tx (p : Nat) (v : Word) : (s.logRead p v).tx = s.tx := rfl
@[simp] theorem State.logRead_reports (p : Nat) (v : Word) : (s.logRead p v).reports = s.reports := rfl
@[simp] theorem State.logRead_rx (p : Nat) (v : Word) : (s.logRead p v).rx = s.rx := rfl
@[simp] theorem State.logRead_host (p : Nat) (v : Word) : (s.logRead p v).host = s.host := rfl
@[simp] theorem State.logRead_reads (p : Nat) (v : Word) : (s.logRead p v).reads = s.reads ++ [(p, v)] := rfl
@[simp] theorem State.logRead_sleeps (p : Nat) (v : Word) : (s.logRead p v).sleeps = s.sleeps := rfl
@[simp] theorem State.logRead_ret (p : Nat) (v : Word) : (s.logRead p v).ret = s.ret := rfl

@[simp] theorem State.logSleep_cfg (n : Nat) : (s.logSleep n).cfg = s.cfg := rfl
@[simp] theorem State.logSleep_ring (n : Nat) : (s.logSleep n).ring = s.ring := rfl
@[simp] theorem State.logSleep_frame (n : Nat) : (s.logSleep n).frame = s.frame := rfl
@[simp] theorem State.logSleep_outcome (n : Nat) : (s.logSleep n).outcome = s.outcome := rfl
@[simp] theorem State.logSleep_dval (n : Nat) : (s.logSleep n).dval = s.dval := rfl
@[simp] theorem State.logSleep_dfc (n : Nat) : (s.logSleep n).dfc = s.dfc := rfl
@[simp] theorem State.logSleep_dkind (n : Nat) : (s.logSleep n).dkind = s.dkind := rfl
@[simp] theorem State.logSleep_busy (n : Nat) : (s.logSleep n).busy = s.busy := rfl
@[simp] theorem State.logSleep_pumps (n : Nat) : (s.logSleep n).pumps = s.pumps := rfl
@[simp] theorem State.logSleep_result (n : Nat) : (s.logSleep n).result = s.result := rfl
@[simp] theorem State.logSleep_tx (n : Nat) : (s.logSleep n).tx = s.tx := rfl
@[simp] theorem State.logSleep_reports (n : Nat) : (s.logSleep n).reports = s.reports := rfl
@[simp] theorem State.logSleep_rx (n : Nat) : (s.logSleep n).rx = s.rx := rfl
@[simp] theorem State.logSleep_host (n : Nat) : (s.logSleep n).host = s.host := rfl
@[simp] theorem State.logSleep_reads (n : Nat) : (s.logSleep n).reads = s.reads := rfl
@[simp] theorem State.logSleep_sleeps (n : Nat) : (s.logSleep n).sleeps = s.sleeps ++ [n] := rfl
@[simp] theorem State.logSleep_ret (n : Nat) : (s.logSleep n).ret = s.ret := rfl

@[simp] theorem State.setRet_cfg (r : Ret) : (s.setRet r).cfg = s.cfg := rfl
@[simp] theorem State.setRet_ring (r : Ret) : (s.setRet r).ring = s.ring := rfl
@[simp] theorem State.setRet_frame (r : Ret) : (s.setRet r).frame = s.frame := rfl
@[simp] theorem State.setRet_outcome (r : Ret) : (s.setRet r).outcome = s.outcome := rfl
@[simp] theorem State.setRet_dval (r : Ret) : (s.setRet r).dval = s.dval := rfl
@[simp] theorem State.setRet_dfc (r : Ret) : (s.setRet r).dfc = s.dfc := rfl
@[simp] theorem State.setRet_dkind (r : Ret) : (s.setRet r).dkind = s.dkind := rfl
@[simp] theorem State.setRet_busy (r : Ret) : (s.setRet r).busy = s.busy := rfl
@[simp] theorem State.setRet_pumps (r : Ret) : (s.setRet r).pumps = s.pumps := rfl
@[simp] theorem State.setRet_result (r : Ret) : (s.setRet r).result = s.result := rfl
@[simp] theorem State.setRet_tx (r : Ret) : (s.setRet r).tx = s.tx := rfl
@[simp] theorem State.setRet_reports (r : Ret) : (s.setRet r).reports = s.reports := rfl
@[simp] theorem State.setRet_rx (r : Ret) : (s.setRet r).rx = s.rx := rfl
@[simp] theorem State.setRet_host (r : Ret) : (s.setRet r).host = s.host := rfl
@[simp] theorem State.setRet_reads (r : Ret) : (s.setRet r).reads = s.reads := rfl
@[simp] theorem State.setRet_sleeps (r : Ret) : (s.setRet r).sleeps = s.sleeps := rfl
@[simp] theorem State.setRet_ret (r : Ret) : (s.setRet r).ret = r := rfl

end Sys2Proof.Machine
end

