-- ==== Sys2Proof/Laws/Parser.lean ====
section
/-! SUPPORT. What PARSE_BYTE and COMPLETE can do, and that they keep the parser's invariants (R103). -/

namespace Sys2Proof.Machine

/-- The fields that no part of a pump writes. -/
structure SameRest (s t : State) : Prop where
  cfg : t.cfg = s.cfg
  busy : t.busy = s.busy
  pumps : t.pumps = s.pumps
  result : t.result = s.result
  tx : t.tx = s.tx
  host : t.host = s.host
  reads : t.reads = s.reads
  sleeps : t.sleeps = s.sleeps
  ret : t.ret = s.ret

theorem SameRest.refl (s : State) : SameRest s s := ⟨rfl, rfl, rfl, rfl, rfl, rfl, rfl, rfl, rfl⟩

theorem SameRest.trans {s t u : State} (h : SameRest s t) (k : SameRest t u) : SameRest s u :=
  ⟨k.cfg.trans h.cfg, k.busy.trans h.busy, k.pumps.trans h.pumps, k.result.trans h.result, k.tx.trans h.tx,
    k.host.trans h.host, k.reads.trans h.reads, k.sleeps.trans h.sleeps, k.ret.trans h.ret⟩

theorem lenCode_le (b : Byte) : lenCode b ≤ 3 := by
  have := (b.extractLsb' 5 2).isLt
  simp only [lenCode]; omega

theorem succ_count {c : Fin 8} (h : c.val < 7) : (c + 1).val = c.val + 1 := by
  simp only [Fin.val_add, Fin.val_one]; omega

/-! ## The bytes of FRAME -/

theorem frameSlot_append_same (f : FrameBuf) (b : Byte) : frameSlot (appendFrame f b) f.count.val = b := by
  simp [frameSlot, appendFrame, Memory.read_write_same]

theorem frameSlot_append_other (f : FrameBuf) (b : Byte) {i : Nat} (h : i ≠ f.count.val) :
    frameSlot (appendFrame f b) i = frameSlot f i := by
  simp [frameSlot, appendFrame, Memory.read_write_other _ _ h]

@[simp] theorem frameSlot_idle (f : FrameBuf) (i : Nat) : frameSlot (idleFrame f) i = frameSlot f i := rfl

@[simp] theorem frameSlot_learn (f : FrameBuf) (i : Nat) : frameSlot (learnLength f) i = frameSlot f i := rfl

@[simp] theorem learnLength_count (f : FrameBuf) : (learnLength f).count = f.count := rfl

@[simp] theorem learnLength_buf (f : FrameBuf) : (learnLength f).buf = f.buf := rfl

@[simp] theorem idleFrame_count (f : FrameBuf) : (idleFrame f).count = 0 := rfl

@[simp] theorem idleFrame_expected (f : FrameBuf) : (idleFrame f).expected = 0 := rfl

@[simp] theorem idleFrame_buf (f : FrameBuf) : (idleFrame f).buf = f.buf := rfl

@[simp] theorem appendFrame_count (f : FrameBuf) (b : Byte) : (appendFrame f b).count = f.count + 1 := rfl

@[simp] theorem appendFrame_expected (f : FrameBuf) (b : Byte) : (appendFrame f b).expected = f.expected := rfl

@[simp] theorem appendFrame_buf (f : FrameBuf) (b : Byte) :
    (appendFrame f b).buf = Memory.write f.buf f.count.val b := rfl

theorem learnLength_expected (f : FrameBuf) : (learnLength f).expected.val = frameLength f := by
  have := lenCode_le (frameSlot f 1)
  simp only [learnLength, Fin.ofNat, frameLength]; omega

/-! ## COMPLETE -/

/-- R96 to R99: everything COMPLETE can do. -/
theorem completeFrame_cases (s : State) :
    (frameOk s.frame = true ∧
        completeFrame s =
          (((s.setDecoded (frameValue s.cfg s.frame) (frameFc s.frame) (frameKind s.cfg s.frame)).setOutcome
            .success).appendReport (.value (frameFc s.frame) (frameKind s.cfg s.frame)
              (frameValue s.cfg s.frame))).setFrame (idleFrame s.frame)) ∨
      (frameOk s.frame = false ∧
        completeFrame s = ((s.setOutcome .checksumError).appendReport .checksumErr).setFrame (idleFrame s.frame)) := by
  cases h : frameOk s.frame
  · exact .inr ⟨rfl, by simp [completeFrame, h]⟩
  · exact .inl ⟨rfl, by simp [completeFrame, h]⟩

theorem completeFrame_rest (s : State) :
    SameRest s (completeFrame s) ∧ (completeFrame s).ring = s.ring ∧ (completeFrame s).rx = s.rx ∧
      (completeFrame s).frame = idleFrame s.frame ∧ (completeFrame s).outcome ≠ .inProgress ∧
      (completeFrame s).outcome ≠ .timeoutError := by
  rcases completeFrame_cases s with ⟨_, h⟩ | ⟨_, h⟩ <;>
    (rw [h]; refine ⟨⟨rfl, rfl, rfl, rfl, rfl, rfl, rfl, rfl, rfl⟩, rfl, rfl, rfl, ?_, ?_⟩ <;> simp)

/-! ## PARSE_BYTE -/

/-- R92 to R94: the frame buffer once the byte is stored and the length learned. -/
def frameAfter (b : Byte) (f : FrameBuf) : FrameBuf :=
  if (appendFrame (startFrame b f) b).count = 2 then learnLength (appendFrame (startFrame b f) b)
  else appendFrame (startFrame b f) b

/-- R95: with `FRAME_CAP` = 7 no length is malformed, so PARSE_BYTE stores the byte and finishes. -/
theorem parseByte_eq (b : Byte) (s : State) :
    parseByte b s =
      if (startFrame b s.frame).count.val < 7 then .next (finishByte (s.setFrame (frameAfter b s.frame)))
      else .fault (.noSuchFrameIndex (startFrame b s.frame).count.val) := by
  have hcap : ¬ 7 < frameLength (appendFrame (startFrame b s.frame) b) := by
    have := lenCode_le (frameSlot (appendFrame (startFrame b s.frame) b) 1)
    simp only [frameLength]; omega
  simp only [parseByte, parseByteCap, storeByte, Config.frameCap, State.setFrame_frame, hcap, if_false, frameAfter]
  split <;> [split; rfl] <;> rfl

/-- R91: everything PARSE_BYTE can do: it only moves the parser, or it completes the frame it has stored. -/
theorem parseByte_cases {b : Byte} {s t : State} {done : Bool} (h : parseByte b s = .next (done, t)) :
    (done = false ∧ frameComplete (frameAfter b s.frame) = false ∧ t = s.setFrame (frameAfter b s.frame)) ∨
      (done = true ∧ frameComplete (frameAfter b s.frame) = true ∧
        t = completeFrame (s.setFrame (frameAfter b s.frame))) := by
  rw [parseByte_eq] at h
  split at h
  · simp only [finishByte, State.setFrame_frame] at h
    cases hc : frameComplete (frameAfter b s.frame)
    · left; simp only [hc, Bool.false_eq_true, if_false, Host.Outcome.next.injEq, Prod.mk.injEq] at h
      exact ⟨h.1.symm, rfl, h.2.symm⟩
    · right; simp only [hc, if_true, Host.Outcome.next.injEq, Prod.mk.injEq] at h
      exact ⟨h.1.symm, rfl, h.2.symm⟩
  · cases h

theorem parseByte_never_refuses (b : Byte) (s : State) (r : Refusal) : parseByte b s ≠ .refused r := by
  rw [parseByte_eq]; split <;> simp

theorem parseByte_rest {b : Byte} {s t : State} {done : Bool} (h : parseByte b s = .next (done, t)) :
    SameRest s t ∧ t.ring = s.ring ∧ t.rx = s.rx := by
  rcases parseByte_cases h with ⟨_, _, rfl⟩ | ⟨_, _, rfl⟩
  · exact ⟨⟨rfl, rfl, rfl, rfl, rfl, rfl, rfl, rfl, rfl⟩, rfl, rfl⟩
  · have := completeFrame_rest (s.setFrame (frameAfter b s.frame))
    exact ⟨SameRest.trans (t := s.setFrame (frameAfter b s.frame)) ⟨rfl, rfl, rfl, rfl, rfl, rfl, rfl, rfl, rfl⟩ this.1,
      this.2.1, this.2.2.1⟩

/-! ## The parser's invariants (R103) -/

theorem idleFrame_inv {f : FrameBuf} (h1 : Memory.wf f.buf) (h2 : Memory.within f.buf Config.frameCap) :
    FrameInv (idleFrame f) where
  ordered := h1
  inside := h2
  count_le := by simp
  unknown := by simp
  known := by simp
  written := by simp
  continued := fun i h1 h2 => by simp at h2

/-- The byte just stored: the buffer stays in form, the count is one more, and the bytes held are as before. -/
theorem frameAfter_spec {b : Byte} {f : FrameBuf} (hc : (startFrame b f).count.val < 7) :
    (frameAfter b f).count.val = (startFrame b f).count.val + 1 ∧
      (frameAfter b f).buf = Memory.write f.buf (startFrame b f).count.val b ∧
      frameSlot (frameAfter b f) (startFrame b f).count.val = b ∧
      (∀ i, i ≠ (startFrame b f).count.val → frameSlot (frameAfter b f) i = frameSlot f i) ∧
      (frameAfter b f).expected.val =
        if (startFrame b f).count.val = 1 then 4 + lenCode b else (startFrame b f).expected.val := by
  have hbuf : (startFrame b f).buf = f.buf := by simp only [startFrame]; split <;> rfl
  have hslot : ∀ i, frameSlot (startFrame b f) i = frameSlot f i := by
    intro i; simp only [frameSlot, hbuf]
  have h2 : (appendFrame (startFrame b f) b).count = 2 ↔ (startFrame b f).count.val = 1 := by
    rw [Fin.ext_iff, appendFrame_count, succ_count hc]
    show _ + 1 = 2 ↔ _
    omega
  by_cases h1 : (startFrame b f).count.val = 1
  · simp only [frameAfter, h2.2 h1, if_true, learnLength_count, learnLength_buf, frameSlot_learn,
      learnLength_expected, h1]
    refine ⟨rfl, by simp [hbuf, h1], ?_, fun i hi => ?_, ?_⟩
    · have := frameSlot_append_same (startFrame b f) b
      rwa [h1] at this
    · rw [frameSlot_append_other _ _ (by omega), hslot]
    · have := frameSlot_append_same (startFrame b f) b
      rw [h1] at this
      simp [frameLength, this]
  · simp only [frameAfter, h2, h1, if_false]
    refine ⟨succ_count hc, by simp [hbuf], frameSlot_append_same _ _, fun i hi => ?_, rfl⟩
    rw [frameSlot_append_other _ _ hi, hslot]

theorem startFrame_of_start {b : Byte} (h : isStart b = true) (f : FrameBuf) : startFrame b f = idleFrame f := by
  simp [startFrame, h]

theorem startFrame_of_cont {b : Byte} (h : isStart b = false) (f : FrameBuf) : startFrame b f = f := by
  simp [startFrame, h]

/-- R103: under the invariants, the write index lies in FRAME (R40). -/
theorem startFrame_count_lt {f : FrameBuf} (hf : FrameInv f) (b : Byte) : (startFrame b f).count.val < 7 := by
  have := hf.count_le
  cases h : isStart b
  · rw [startFrame_of_cont h]; omega
  · rw [startFrame_of_start h]; simp

/-- R103 items 1 to 3: PARSE_BYTE keeps the parser's invariants, whether or not the frame completes. -/
theorem frameAfter_inv {f : FrameBuf} (hf : FrameInv f) (b : Byte) :
    Memory.wf (frameAfter b f).buf ∧ Memory.within (frameAfter b f).buf Config.frameCap ∧
      (frameComplete (frameAfter b f) = true →
        (frameAfter b f).expected.val = frameLength (frameAfter b f) ∧
          (frameAfter b f).count.val = frameLength (frameAfter b f)) ∧
      (frameComplete (frameAfter b f) = false → FrameInv (frameAfter b f)) := by
  have hc := startFrame_count_lt hf b
  obtain ⟨hcount, hbuf, hsame, hother, hexp⟩ := frameAfter_spec hc
  have hwf : Memory.wf (frameAfter b f).buf := hbuf ▸ Memory.write_wf hf.ordered _ _
  have hin : Memory.within (frameAfter b f).buf Config.frameCap := by
    rw [hbuf]; exact Memory.write_within hf.inside hc _
  have hwritten : ∀ i, (Memory.read (frameAfter b f).buf i).isSome =
      (decide (i = (startFrame b f).count.val) || (Memory.read f.buf i).isSome) := by
    intro i; rw [hbuf, Memory.read_write_isSome]
  refine ⟨hwf, hin, ?_⟩
  have hcomp : frameComplete (frameAfter b f) = true ↔
      2 ≤ (frameAfter b f).count.val ∧ (frameAfter b f).count.val = (frameAfter b f).expected.val := by
    simp [frameComplete, Fin.ext_iff]
  have hcomp' : frameComplete (frameAfter b f) = false ↔
      ¬ (2 ≤ (frameAfter b f).count.val ∧ (frameAfter b f).count.val = (frameAfter b f).expected.val) := by
    rw [← hcomp]; simp
  rw [hcomp, hcomp']
  cases hs : isStart b
  · rw [startFrame_of_cont hs] at *
    have hle := hf.count_le
    by_cases h1 : f.count.val = 1
    · rw [if_pos h1] at hexp
      rw [h1] at hsame hcount
      have hlen : frameLength (frameAfter b f) = 4 + lenCode b := by simp [frameLength, hsame]
      have hL := lenCode_le b
      refine ⟨fun ⟨_, h⟩ => by omega, fun _ => ⟨hwf, hin, by omega, by omega, by omega, fun i hi => ?_, fun i h0 hi => ?_⟩⟩
      · rw [hwritten]
        by_cases h : i = f.count.val
        · simp [h]
        · simp [hf.written i (by omega)]
      · have : i = 1 := by omega
        rw [this, hsame, hs]
    · rw [if_neg h1] at hexp
      have hlen : frameLength (frameAfter b f) = frameLength f := by
        simp only [frameLength]; rw [hother 1 (fun h => h1 h.symm)]
      have hwr : ∀ i, i < (frameAfter b f).count.val → (Memory.read (frameAfter b f).buf i).isSome = true := by
        intro i hi
        rw [hwritten]
        by_cases h : i = f.count.val
        · simp [h]
        · simp [hf.written i (by omega)]
      have hct : ∀ i, 1 ≤ i → i < (frameAfter b f).count.val → isStart (frameSlot (frameAfter b f) i) = false := by
        intro i h0 hi
        by_cases h : i = f.count.val
        · rw [h, hsame, hs]
        · rw [hother i h]; exact hf.continued i h0 (by omega)
      have hu := hf.unknown
      have hk := hf.known
      by_cases h0 : f.count.val = 0
      · exact ⟨fun ⟨_, h⟩ => by omega, fun _ => ⟨hwf, hin, by omega, by omega, by omega, hwr, hct⟩⟩
      · have := hk (by omega)
        have hL := lenCode_le (frameSlot f 1)
        have hfl : frameLength f = 4 + lenCode (frameSlot f 1) := rfl
        exact ⟨fun ⟨_, h⟩ => by omega, fun h => ⟨hwf, hin, by omega, by omega, by omega, hwr, hct⟩⟩
  · rw [startFrame_of_start hs] at *
    rw [if_neg (by simp)] at hexp
    simp only [idleFrame_count, Fin.val_zero, idleFrame_expected] at *
    refine ⟨fun ⟨_, h⟩ => by omega, fun _ => ⟨hwf, hin, by omega, by omega, by omega, fun i hi => ?_,
      fun i h0 hi => by omega⟩⟩
    have : i = 0 := by omega
    simp [hwritten, this]

/-- R103: under the invariants PARSE_BYTE always answers, and it keeps them. -/
theorem parseByte_answers {s : State} (hf : FrameInv s.frame) (b : Byte) :
    ∃ done t, parseByte b s = .next (done, t) ∧ FrameInv t.frame := by
  obtain ⟨hwf, hin, _, hno⟩ := frameAfter_inv hf b
  rw [parseByte_eq, if_pos (startFrame_count_lt hf b)]
  cases hc : frameComplete (frameAfter b s.frame)
  · exact ⟨_, _, by simp only [finishByte, State.setFrame_frame, hc]; rfl, hno hc⟩
  · refine ⟨true, completeFrame (s.setFrame (frameAfter b s.frame)), by simp [finishByte, hc], ?_⟩
    rw [(completeFrame_rest _).2.2.2.1]
    exact idleFrame_inv hwf hin

end Sys2Proof.Machine
end

