-- ==== Sys2Proof/Laws/Ring.lean ====
section
/-! SUPPORT. What PUSH, POP and DRAIN do to the unread bytes of the ring buffer. -/

namespace Sys2Proof.Machine

theorem ringSlot_write_same (r : RingBuf) (i : Fin 8) (b : Byte) (h t : Fin 8) :
    ringSlot { buf := Memory.write r.buf i.val b, head := h, tail := t } i = b := by
  simp [ringSlot, Memory.read_write_same]

theorem ringSlot_write_other (r : RingBuf) {i j : Fin 8} (b : Byte) (h t : Fin 8) (hne : j ≠ i) :
    ringSlot { buf := Memory.write r.buf i.val b, head := h, tail := t } j = ringSlot r j := by
  have : j.val ≠ i.val := fun e => hne (Fin.ext e)
  simp [ringSlot, Memory.read_write_other _ _ this]

theorem ringLevel_eq_zero (r : RingBuf) : (ringLevel r).val = 0 ↔ r.head = r.tail := by
  obtain ⟨buf, h, t⟩ := r
  simp only [ringLevel]
  revert h t; decide

theorem ringLevel_le (r : RingBuf) : (ringLevel r).val ≤ 7 := by omega

/-- R19: full is 7 bytes held. -/
theorem ringFull_iff (r : RingBuf) : ringFull r = true ↔ (ringLevel r).val = 7 := by
  obtain ⟨buf, h, t⟩ := r
  simp only [ringFull, ringLevel]
  revert h t; decide

theorem ringLevel_succ_head {h t : Fin 8} (hne : h + 1 ≠ t) : ((h + 1) - t).val = (h - t).val + 1 := by
  revert h t; decide

theorem ringLevel_succ_tail {h t : Fin 8} (hne : h ≠ t) : (h - t).val = (h - (t + 1)).val + 1 := by
  revert h t; decide

theorem ringIndex_level {h t : Fin 8} : ringIndex t (h - t).val = h := by
  revert h t; decide

theorem ringIndex_zero (t : Fin 8) : ringIndex t 0 = t := by
  revert t; decide

theorem slot_ne_head {h t : Fin 8} {k : Nat} (hk : k < (h - t).val) : ringIndex t k ≠ h := by
  have h8 : k < 8 := by omega
  obtain ⟨k, rfl⟩ : ∃ j : Fin 8, k = j.val := ⟨⟨k, h8⟩, rfl⟩
  revert h t k; decide

theorem ringIndex_succ (t : Fin 8) (k : Nat) : ringIndex (t + 1) k = ringIndex t (k + 1) := by
  ext
  simp only [ringIndex, Fin.val_add, Fin.ofNat]
  omega

/-- R19: the ring is empty exactly when it holds no unread byte. -/
theorem ringBytes_length (r : RingBuf) : (ringBytes r).length = (ringLevel r).val := by simp [ringBytes]

theorem ringBytes_of_empty {r : RingBuf} (h : r.head = r.tail) : ringBytes r = [] := by
  simp [ringBytes, (ringLevel_eq_zero r).2 h]

/-- R68, R69: everything PUSH can do. -/
theorem ringPush_cases (r : RingBuf) (b : Byte) :
    ((ringBytes r).length = 7 ∧ ringPush r b = (false, r)) ∨
      ((ringBytes r).length ≤ 6 ∧ (ringPush r b).1 = true ∧ (ringPush r b).2.head = r.head + 1 ∧
        (ringPush r b).2.tail = r.tail ∧ (ringPush r b).2.buf = Memory.write r.buf r.head.val b ∧
        ringBytes (ringPush r b).2 = ringBytes r ++ [b]) := by
  rw [ringBytes_length]
  by_cases hf : ringFull r = true
  · exact .inl ⟨(ringFull_iff r).1 hf, by simp [ringPush, hf]⟩
  · right
    have h7 : (ringLevel r).val ≤ 6 := by
      have := (ringFull_iff r).not.1 hf
      have := ringLevel_le r
      omega
    refine ⟨h7, ?_⟩
    simp only [ringPush, hf, Bool.false_eq_true, if_false, true_and]
    have hne : r.head + 1 ≠ r.tail := by simpa [ringFull] using hf
    simp only [ringBytes, ringLevel, ringLevel_succ_head hne, List.range_succ, List.map_append, List.map_cons,
      List.map_nil, ringIndex_level]
    congr 1
    · refine List.map_congr_left fun k hk => ?_
      exact ringSlot_write_other r b _ _ (slot_ne_head (List.mem_range.1 hk))
    · simp [ringSlot_write_same]

/-- R70, R71: everything POP can do. -/
theorem ringPop_cases (r : RingBuf) :
    (ringBytes r = [] ∧ r.head = r.tail ∧ ringPop r = (none, r)) ∨
      ∃ b, r.head ≠ r.tail ∧ ringPop r = (some b, { r with tail := r.tail + 1 }) ∧
        ringBytes r = b :: ringBytes { r with tail := r.tail + 1 } := by
  by_cases he : r.head = r.tail
  · exact .inl ⟨ringBytes_of_empty he, he, by simp [ringPop, ringEmpty, he]⟩
  · refine .inr ⟨ringSlot r r.tail, he, by simp [ringPop, ringEmpty, he], ?_⟩
    simp only [ringBytes, ringLevel]
    rw [ringLevel_succ_tail he, List.range_succ_eq_map, List.map_cons, List.map_map, ringIndex_zero]
    congr 1
    refine List.map_congr_left fun k _ => ?_
    simp only [Function.comp, Nat.succ_eq_add_one, ← ringIndex_succ]
    rfl

/-- R102: the bytes a drain leaves, oldest first. -/
theorem drainBytes_bytes (l : List Byte) (r : RingBuf) :
    ringBytes (drainBytes l r) = (ringBytes r ++ l).take 7 := by
  induction l generalizing r with
  | nil =>
    have := ringBytes_length r
    have := ringLevel_le r
    simp only [drainBytes, List.append_nil]
    rw [List.take_of_length_le (by omega)]
  | cons b l ih =>
    rcases ringPush_cases r b with ⟨h7, hp⟩ | ⟨h6, _, _, _, _, hb⟩
    · simp only [drainBytes, hp, ih]
      rw [List.take_append_of_le_length (by omega), List.take_append_of_le_length (by omega)]
    · simp only [drainBytes, ih, hb, List.append_assoc, List.singleton_append]

theorem drainBytes_tail (l : List Byte) (r : RingBuf) : (drainBytes l r).tail = r.tail := by
  induction l generalizing r with
  | nil => rfl
  | cons b l ih =>
    rcases ringPush_cases r b with ⟨_, hp⟩ | ⟨_, _, _, ht, _⟩
    · simp [drainBytes, ih, hp]
    · simp [drainBytes, ih, ht]

theorem ringPush_inv {r : RingBuf} (hr : RingInv r) (b : Byte) : RingInv (ringPush r b).2 := by
  rcases ringPush_cases r b with ⟨_, hp⟩ | ⟨h6, _, hh, ht, hb, _⟩
  · rw [hp]; exact hr
  · rw [ringBytes_length] at h6
    refine ⟨hb ▸ Memory.write_wf hr.ordered _ _, ?_, fun k hk => ?_⟩
    · rw [hb]; exact Memory.write_within hr.inside (by simp [Config.ringCap]) _
    · rw [hb, ht, Memory.read_write_isSome]
      have hne : r.head + 1 ≠ r.tail := by
        intro e
        have : ringFull r = true := by simp [ringFull, e]
        have := (ringFull_iff r).1 this
        omega
      simp only [ringLevel, hh, ht, ringLevel_succ_head hne] at hk
      by_cases hk' : k < (r.head - r.tail).val
      · rw [hr.written k hk', Bool.or_true]
      · have : k = (r.head - r.tail).val := by omega
        simp [this, ringIndex_level]

theorem ringPop_inv {r : RingBuf} (hr : RingInv r) : RingInv (ringPop r).2 := by
  rcases ringPop_cases r with ⟨_, _, hp⟩ | ⟨b, hne, hp, _⟩
  · rw [hp]; exact hr
  · rw [hp]
    refine ⟨hr.ordered, hr.inside, fun k hk => ?_⟩
    simp only [ringLevel] at hk
    have hl := ringLevel_succ_tail hne
    have := hr.written (k + 1) (by simp only [ringLevel]; omega)
    rwa [← ringIndex_succ] at this

theorem drainBytes_inv {r : RingBuf} (hr : RingInv r) (l : List Byte) : RingInv (drainBytes l r) := by
  induction l generalizing r with
  | nil => exact hr
  | cons b l ih => exact ih (ringPush_inv hr b)

end Sys2Proof.Machine
end

