-- ==== Sys2Proof/Laws/Pump.lean ====
section
/-! SUPPORT. What a pump can do (R100), what a sequence of bytes does to the parser, and that a pump is such a
sequence over the unread bytes. -/

namespace Sys2Proof.Machine

/-! ## A pump -/

theorem completeFrame_setRing (s : State) (r : RingBuf) :
    completeFrame (s.setRing r) = (completeFrame s).setRing r := by
  by_cases h : frameOk s.frame = true
  · rw [completeFrame, completeFrame, State.setRing_frame, if_pos h, if_pos h]; rfl
  · rw [completeFrame, completeFrame, State.setRing_frame, if_neg h, if_neg h]; rfl

theorem finishByte_setRing (s : State) (r : RingBuf) :
    finishByte (s.setRing r) = ((finishByte s).1, (finishByte s).2.setRing r) := by
  by_cases h : frameComplete s.frame = true
  · rw [finishByte, finishByte, State.setRing_frame, if_pos h, if_pos h, completeFrame_setRing]
  · rw [finishByte, finishByte, State.setRing_frame, if_neg h, if_neg h]

theorem parseByte_setRing (b : Byte) (s : State) (r : RingBuf) :
    parseByte b (s.setRing r) =
      match parseByte b s with
      | .next (done, t) => .next (done, t.setRing r)
      | .fault e => .fault e
      | .refused e => .refused e := by
  rw [parseByte_eq, parseByte_eq, State.setRing_frame]
  by_cases h : (startFrame b s.frame).count.val < 7
  · rw [if_pos h, if_pos h]
    exact congrArg Host.Outcome.next (finishByte_setRing (s.setFrame (frameAfter b s.frame)) r)
  · rw [if_neg h, if_neg h]

/-- R100: everything a pump's loop can do. Either it takes bytes until the ring is empty and only moves the
parser, or it stops after the first frame it completes. -/
theorem pumpLoop_cases {n : Nat} {s t : State} (h : pumpLoop n s = .next t) :
    ∃ r f, ringBytes r <:+ ringBytes s.ring ∧
      ((t = (s.setRing r).setFrame f ∧ ((ringBytes s.ring).length < n → ringBytes r = [])) ∨
        (frameComplete f = true ∧ t = completeFrame ((s.setRing r).setFrame f))) := by
  induction n generalizing s with
  | zero =>
    obtain rfl : s = t := by simpa [pumpLoop] using h
    exact ⟨s.ring, s.frame, List.suffix_rfl, .inl ⟨rfl, fun h => absurd h (Nat.not_lt_zero _)⟩⟩
  | succ n ih =>
    rcases ringPop_cases s.ring with ⟨he, _, hp⟩ | ⟨b, _, hp, hb⟩
    · obtain rfl : s = t := by simpa [pumpLoop, hp] using h
      exact ⟨s.ring, s.frame, List.suffix_rfl, .inl ⟨rfl, fun _ => he⟩⟩
    · simp only [pumpLoop, hp] at h
      set r := { s.ring with tail := s.ring.tail + 1 } with hr
      have hsuf : ringBytes r <:+ ringBytes s.ring := hb ▸ List.suffix_cons b _
      cases hpb : parseByte b (s.setRing r) with
      | fault e => simp [hpb] at h
      | refused e => simp [hpb] at h
      | next p =>
        obtain ⟨done, u⟩ := p
        simp only [hpb] at h
        rcases parseByte_cases hpb with ⟨rfl, _, rfl⟩ | ⟨rfl, hc, rfl⟩
        · simp only [Bool.false_and, Bool.false_eq_true, if_false] at h
          obtain ⟨q, f, hq, hcase⟩ := ih h
          simp only [State.setFrame_ring, State.setRing_ring] at hq hcase
          refine ⟨q, f, hq.trans hsuf, ?_⟩
          rcases hcase with ⟨rfl, hlen⟩ | ⟨hc, rfl⟩
          · refine .inl ⟨rfl, fun hl => hlen ?_⟩
            rw [hb, List.length_cons] at hl; omega
          · exact .inr ⟨hc, rfl⟩
        · have hout := (completeFrame_rest ((s.setRing r).setFrame (frameAfter b (s.setRing r).frame))).2.2.2.2.1
          simp only [Bool.true_and, bne_iff_ne, ne_eq, hout, not_false_eq_true, if_true, Host.Outcome.next.injEq] at h
          subst h
          exact ⟨r, _, hsuf, .inr ⟨hc, rfl⟩⟩

theorem pumpLoop_never_refuses (n : Nat) (s : State) (e : Refusal) : pumpLoop n s ≠ .refused e := by
  induction n generalizing s with
  | zero => simp [pumpLoop]
  | succ n ih =>
    rcases ringPop_cases s.ring with ⟨_, _, hp⟩ | ⟨b, _, hp, _⟩
    · simp [pumpLoop, hp]
    · simp only [pumpLoop, hp]
      cases hpb : parseByte b (s.setRing { s.ring with tail := s.ring.tail + 1 }) with
      | fault e => simp
      | refused e => exact absurd hpb (parseByte_never_refuses _ _ _)
      | next p => simp only; split <;> simp [ih]

/-- R100, R103: under the parser's invariants a pump's loop always answers, and it keeps the invariants. -/
theorem pumpLoop_answers (n : Nat) {s : State} (hf : FrameInv s.frame) :
    ∃ t, pumpLoop n s = .next t ∧ FrameInv t.frame ∧ (RingInv s.ring → RingInv t.ring) := by
  induction n generalizing s with
  | zero => exact ⟨s, rfl, hf, id⟩
  | succ n ih =>
    rcases ringPop_cases s.ring with ⟨_, _, hp⟩ | ⟨b, _, hp, _⟩
    · exact ⟨s, by simp [pumpLoop, hp], hf, id⟩
    · obtain ⟨done, u, hu, hfu⟩ :=
        parseByte_answers (s := s.setRing { s.ring with tail := s.ring.tail + 1 }) hf b
      have hru : RingInv s.ring → RingInv u.ring := fun hr => by
        have hr' := ringPop_inv hr
        rw [hp] at hr'
        rw [(parseByte_rest hu).2.1]; exact hr'
      simp only [pumpLoop, hp, hu]
      split
      · exact ⟨u, rfl, hfu, hru⟩
      · obtain ⟨t, h1, h2, h3⟩ := ih hfu
        exact ⟨t, h1, h2, h3 ∘ hru⟩

/-- R102: what a drain leaves. -/
theorem drainStep_eq (s : State) :
    drainStep s = (s.setRx s.rx.tail).setRing (drainBytes (s.rx.headD []) s.ring) := by
  cases h : s.rx with
  | nil =>
    simp only [drainStep, rxDraw, h, List.tail_nil, List.headD_nil]
    have : s.setRx [] = s := by rw [← h]; rfl
    rw [this]
  | cons l rest => simp [drainStep, rxDraw, h]

/-- R100: everything a pump can do. -/
theorem pumpBody_cases {s t : State} (h : pumpBody s = .next t) :
    ∃ r f, ringBytes r <:+ (ringBytes s.ring ++ s.rx.headD []).take 7 ∧
      ((t = ((s.setRx s.rx.tail).setRing r).setFrame f ∧ ringBytes r = []) ∨
        (frameComplete f = true ∧ t = completeFrame (((s.setRx s.rx.tail).setRing r).setFrame f))) := by
  obtain ⟨r, f, hsuf, hcase⟩ := pumpLoop_cases h
  rw [drainStep_eq] at hsuf hcase
  simp only [State.setRing_ring, drainBytes_bytes] at hsuf hcase
  refine ⟨r, f, hsuf, ?_⟩
  rcases hcase with ⟨rfl, hl⟩ | ⟨hc, rfl⟩
  · refine .inl ⟨rfl, hl ?_⟩
    rw [List.length_take, Config.ringCap]; omega
  · exact .inr ⟨hc, rfl⟩

theorem pumpBody_never_refuses (s : State) (e : Refusal) : pumpBody s ≠ .refused e := pumpLoop_never_refuses _ _ _

/-- R100, R103: under the invariants a pump always answers, and it keeps them. -/
theorem pumpBody_answers {s : State} (hf : FrameInv s.frame) :
    ∃ t, pumpBody s = .next t ∧ FrameInv t.frame ∧ (RingInv s.ring → RingInv t.ring) := by
  obtain ⟨t, h1, h2, h3⟩ := pumpLoop_answers Config.ringCap (s := drainStep s) (by rw [drainStep_eq]; exact hf)
  exact ⟨t, h1, h2, fun hr => h3 (by rw [drainStep_eq]; exact drainBytes_inv hr _)⟩

/-- R112: the fields a pump leaves alone, and the drain it takes. -/
theorem pumpBody_rest {s t : State} (h : pumpBody s = .next t) : SameRest s t ∧ t.rx = s.rx.tail := by
  obtain ⟨r, f, _, ⟨rfl, _⟩ | ⟨_, rfl⟩⟩ := pumpBody_cases h
  · exact ⟨⟨rfl, rfl, rfl, rfl, rfl, rfl, rfl, rfl, rfl⟩, rfl⟩
  · have := completeFrame_rest (((s.setRx s.rx.tail).setRing r).setFrame f)
    exact ⟨SameRest.trans (t := ((s.setRx s.rx.tail).setRing r).setFrame f)
      ⟨rfl, rfl, rfl, rfl, rfl, rfl, rfl, rfl, rfl⟩ this.1, this.2.2.1⟩

/-! ## Sequences of bytes -/

/-- A frame buffer holds the bytes `l` of the current frame. -/
def Holds (f : FrameBuf) (l : List Byte) : Prop :=
  f.count.val = l.length ∧ ∀ i, i < l.length → some (frameSlot f i) = l[i]?

theorem Holds.after_start {f : FrameBuf} {b : Byte} (hs : isStart b = true) :
    Holds (frameAfter b f) [b] ∧ (frameAfter b f).expected.val = 0 := by
  have h0 : (startFrame b f).count.val = 0 := by rw [startFrame_of_start hs]; rfl
  have := frameAfter_spec (b := b) (f := f) (by omega)
  rw [h0] at this
  refine ⟨⟨by simp [this.1], fun i hi => ?_⟩, ?_⟩
  · have : i = 0 := by simpa using hi
    subst this; simp [this.2.2.1]
  · rw [this.2.2.2.2, if_neg (by decide), startFrame_of_start hs]; rfl

theorem Holds.after_cont {f : FrameBuf} {l : List Byte} {b : Byte} (h : Holds f l) (hl : l.length ≤ 6)
    (hs : isStart b = false) :
    Holds (frameAfter b f) (l ++ [b]) ∧
      (frameAfter b f).expected.val = if l.length = 1 then 4 + lenCode b else f.expected.val := by
  have hst := startFrame_of_cont hs f
  have := frameAfter_spec (b := b) (f := f) (by rw [hst, h.1]; omega)
  rw [hst, h.1] at this
  obtain ⟨hc, _, hsame, hother, hexp⟩ := this
  refine ⟨⟨by simp [hc], fun i hi => ?_⟩, hexp⟩
  by_cases hi' : i = l.length
  · subst hi'; simp [hsame]
  · rw [hother i hi', h.2 i (by simp at hi; omega)]
    rw [List.getElem?_append_left (by simp at hi; omega)]

theorem frameComplete_iff (f : FrameBuf) :
    frameComplete f = true ↔ 2 ≤ f.count.val ∧ f.count.val = f.expected.val := by
  simp [frameComplete, Fin.ext_iff]

theorem parseByte_start {b : Byte} (hs : isStart b = true) (s : State) :
    parseByte b s = .next (false, s.setFrame (frameAfter b s.frame)) := by
  obtain ⟨hh, he⟩ := Holds.after_start (f := s.frame) hs
  have hc : frameComplete (frameAfter b s.frame) = false := by
    rw [← Bool.not_eq_true, frameComplete_iff, hh.1]; simp
  rw [parseByte_eq, if_pos (by rw [startFrame_of_start hs]; simp)]
  simp [finishByte, hc]

theorem parseByte_cont {b : Byte} {s : State} (hs : isStart b = false) (hc : s.frame.count.val < 7) :
    parseByte b s = .next (finishByte (s.setFrame (frameAfter b s.frame))) := by
  rw [parseByte_eq, if_pos (by rw [startFrame_of_cont hs]; exact hc)]

/-- Continuation bytes short of the expected length only move the parser. -/
theorem parseAll_short {conts l : List Byte} {s : State} (hh : Holds s.frame l) (h2 : 2 ≤ l.length)
    (he : s.frame.expected.val ≤ 7) (hshort : l.length + conts.length < s.frame.expected.val)
    (hc : ∀ b ∈ conts, isStart b = false) :
    ∃ f, parseAll conts s = .next (false, [], s.setFrame f) ∧ Holds f (l ++ conts) ∧
      f.expected.val = s.frame.expected.val := by
  induction conts generalizing s l with
  | nil => exact ⟨s.frame, rfl, by simpa using hh, rfl⟩
  | cons b conts ih =>
    simp only [List.length_cons] at hshort
    have hs := hc b (by simp)
    obtain ⟨hh', hexp⟩ := hh.after_cont (by omega) hs
    rw [if_neg (by omega)] at hexp
    have hnc : frameComplete (frameAfter b s.frame) = false := by
      rw [← Bool.not_eq_true, frameComplete_iff, hh'.1, hexp]; simp; omega
    have hp : parseByte b s = .next (false, s.setFrame (frameAfter b s.frame)) := by
      rw [parseByte_cont hs (by rw [hh.1]; omega)]; simp [finishByte, hnc]
    obtain ⟨f, hf, hhf, hef⟩ := ih (s := s.setFrame (frameAfter b s.frame)) (l := l ++ [b]) hh' (by simp; omega)
      (by simp [hexp, he]) (by simp [hexp]; omega) (fun c hc' => hc c (by simp [hc']))
    refine ⟨f, by simp only [parseAll, hp, hf]; rfl, by simpa using hhf, by simpa [hexp] using hef⟩

/-- The byte that reaches the expected length completes the frame. -/
theorem parseAll_completes {conts l : List Byte} {ck : Byte} {s : State} (hh : Holds s.frame l) (h2 : 2 ≤ l.length)
    (he : s.frame.expected.val ≤ 7) (hlen : l.length + conts.length + 1 = s.frame.expected.val)
    (hc : ∀ b ∈ conts, isStart b = false) (hck : isStart ck = false) (more : List Byte) :
    ∃ f, parseAll (conts ++ ck :: more) s = .next (true, more, completeFrame (s.setFrame f)) ∧
      Holds f (l ++ conts ++ [ck]) := by
  induction conts generalizing s l with
  | nil =>
    simp only [List.length_nil, Nat.add_zero] at hlen
    obtain ⟨hh', hexp⟩ := hh.after_cont (by omega) hck
    rw [if_neg (by omega)] at hexp
    have hcc : frameComplete (frameAfter ck s.frame) = true := by
      rw [frameComplete_iff, hh'.1, hexp]; simp; omega
    refine ⟨frameAfter ck s.frame, ?_, by simpa using hh'⟩
    simp only [List.nil_append, parseAll, parseByte_cont hck (by rw [hh.1]; omega), finishByte, State.setFrame_frame,
      hcc, if_true]
  | cons b conts ih =>
    simp only [List.length_cons] at hlen
    have hs := hc b (by simp)
    obtain ⟨hh', hexp⟩ := hh.after_cont (by omega) hs
    rw [if_neg (by omega)] at hexp
    have hnc : frameComplete (frameAfter b s.frame) = false := by
      rw [← Bool.not_eq_true, frameComplete_iff, hh'.1, hexp]; simp; omega
    have hp : parseByte b s = .next (false, s.setFrame (frameAfter b s.frame)) := by
      rw [parseByte_cont hs (by rw [hh.1]; omega)]; simp [finishByte, hnc]
    obtain ⟨f, hf, hhf⟩ := ih (s := s.setFrame (frameAfter b s.frame)) (l := l ++ [b]) hh' (by simp; omega)
      (by simp [hexp, he]) (by simp [hexp]; omega) (fun c hc' => hc c (by simp [hc']))
    refine ⟨f, by simp only [List.cons_append, parseAll, hp, hf]; rfl, by simpa using hhf⟩

/-- R92 to R96: a start byte and a code byte fix the length from any state. -/
theorem parseAll_header {axis code : Byte} (ha : isStart axis = true) (hc : isStart code = false) (s : State)
    (more : List Byte) :
    ∃ f, parseAll (axis :: code :: more) s = parseAll more (s.setFrame f) ∧ Holds f [axis, code] ∧
      f.expected.val = 4 + lenCode code := by
  obtain ⟨h1, _⟩ := Holds.after_start (f := s.frame) ha
  obtain ⟨h2, he⟩ := h1.after_cont (b := code) (by simp) hc
  rw [if_pos (by simp)] at he
  have hnc : frameComplete (frameAfter code (frameAfter axis s.frame)) = false := by
    rw [← Bool.not_eq_true, frameComplete_iff, h2.1, he]; simp; omega
  have hp : parseByte code (s.setFrame (frameAfter axis s.frame)) =
      .next (false, s.setFrame (frameAfter code (frameAfter axis s.frame))) := by
    rw [parseByte_cont hc (by rw [State.setFrame_frame, h1.1]; simp)]
    simp only [finishByte, State.setFrame_frame, hnc]; rfl
  exact ⟨_, by simp only [parseAll, parseByte_start ha, hp], h2, he⟩

/-- R58, R96: a well-formed frame completes with exactly its own bytes, from any state. -/
theorem parseAll_frame {axis code first ck : Byte} {rest : List Byte} (hl : rest.length = lenCode code)
    (ha : isStart axis = true) (hc : isStart code = false) (hf : isStart first = false)
    (hr : ∀ b ∈ rest, isStart b = false) (hck : isStart ck = false) (s : State) (more : List Byte) :
    ∃ f, parseAll (axis :: code :: first :: (rest ++ ck :: more)) s =
        .next (true, more, completeFrame (s.setFrame f)) ∧
      Holds f (axis :: code :: first :: (rest ++ [ck])) := by
  obtain ⟨f, h1, h2, h3⟩ := parseAll_header ha hc s (first :: (rest ++ ck :: more))
  have hL := lenCode_le code
  obtain ⟨g, h4, h5⟩ := parseAll_completes (conts := first :: rest) (ck := ck) (s := s.setFrame f) h2 (by simp)
    (by simp only [State.setFrame_frame]; omega) (by simp only [State.setFrame_frame, List.length_cons, List.length_nil]; omega)
    (fun b hb => (List.mem_cons.1 hb).elim (fun e => e ▸ hf) (hr b)) hck more
  refine ⟨g, ?_, by simpa using h5⟩
  rw [h1]; exact h4

theorem Holds.frameBytes (f : FrameBuf) : Holds f (Machine.frameBytes f f.count.val) := by
  refine ⟨by simp [Machine.frameBytes], fun i hi => ?_⟩
  simp only [Machine.frameBytes, List.length_map, List.length_range] at hi
  simp [Machine.frameBytes, hi]

/-- R96, R103: under the parser's invariants, the rest of a frame partly held in FRAME completes it. -/
theorem parseAll_held {axis code first ck : Byte} {rest more bytes : List Byte} {s : State}
    (hl : rest.length = lenCode code) (ha : isStart axis = true) (hc : isStart code = false)
    (hf : isStart first = false) (hr : ∀ b ∈ rest, isStart b = false) (hck : isStart ck = false)
    (hi : FrameInv s.frame)
    (e : frameBytes s.frame s.frame.count.val ++ bytes = axis :: code :: first :: (rest ++ ck :: more)) :
    ∃ f, parseAll bytes s = .next (true, more, completeFrame (s.setFrame f)) ∧
      Holds f (axis :: code :: first :: (rest ++ [ck])) := by
  have hh := Holds.frameBytes s.frame
  have hL := lenCode_le code
  generalize frameBytes s.frame s.frame.count.val = p at hh e
  match p with
  | [] => rw [List.nil_append] at e; rw [e]; exact parseAll_frame hl ha hc hf hr hck s more
  | [a] =>
    simp only [List.cons_append, List.nil_append, List.cons.injEq] at e
    obtain ⟨rfl, rfl⟩ := e
    obtain ⟨h2, he⟩ := hh.after_cont (b := code) (by simp) hc
    rw [if_pos (by simp)] at he
    have hnc : frameComplete (frameAfter code s.frame) = false := by
      rw [← Bool.not_eq_true, frameComplete_iff, h2.1, he]; simp; omega
    obtain ⟨g, h3, h4⟩ := parseAll_completes (conts := first :: rest) (s := s.setFrame (frameAfter code s.frame)) h2
      (by simp) (by simp only [State.setFrame_frame]; omega)
      (by simp only [State.setFrame_frame, List.length_cons, List.length_append, List.length_nil]; omega)
      (fun b hb => (List.mem_cons.1 hb).elim (fun e => e ▸ hf) (hr b)) hck more
    refine ⟨g, ?_, by simpa using h4⟩
    have hp : parseByte code s = .next (false, s.setFrame (frameAfter code s.frame)) := by
      rw [parseByte_cont hc (lt_of_le_of_lt hi.count_le (by decide))]; simp [finishByte, hnc]
    rw [parseAll, hp]
    exact h3
  | a :: b :: q =>
    simp only [List.cons_append, List.cons.injEq] at e
    obtain ⟨rfl, rfl, e⟩ := e
    have hs : frameSlot s.frame 1 = b := by have := hh.2 1 (by simp); simpa using this
    obtain ⟨hk, hlt⟩ := hi.known (by rw [hh.1]; simp)
    simp only [frameLength, hs] at hk
    rw [hh.1, List.length_cons, List.length_cons] at hlt
    obtain ⟨conts, hq⟩ : q <+: first :: rest :=
      List.prefix_of_prefix_length_le (l₃ := (first :: rest) ++ ck :: more) ⟨bytes, by simpa using e⟩
        (List.prefix_append _ _) (by simp only [List.length_cons]; omega)
    have hb : bytes = conts ++ ck :: more :=
      List.append_cancel_left (as := q) (by rw [e, ← List.append_assoc, hq, List.cons_append])
    have hcl : q.length + conts.length = rest.length + 1 := by simpa using congrArg List.length hq
    obtain ⟨g, h3, h4⟩ := parseAll_completes (conts := conts) (s := s) hh (by simp) (by omega)
      (by simp only [List.length_cons]; omega)
      (fun c hc' => by
        have : c ∈ first :: rest := hq ▸ List.mem_append_right q hc'
        exact (List.mem_cons.1 this).elim (fun e => e ▸ hf) (hr c)) hck more
    exact ⟨g, by rw [hb]; exact h3, by simpa only [List.cons_append, hq] using h4⟩

theorem parseAll_setRing {l : List Byte} {s : State} {done : Bool} {rest : List Byte} {t : State}
    (h : parseAll l s = .next (done, rest, t)) (r : RingBuf) :
    parseAll l (s.setRing r) = .next (done, rest, t.setRing r) := by
  induction l generalizing s with
  | nil =>
    simp only [parseAll, Host.Outcome.next.injEq, Prod.mk.injEq] at h
    obtain ⟨rfl, rfl, rfl⟩ := h
    rfl
  | cons b l ih =>
    simp only [parseAll] at h
    simp only [parseAll, parseByte_setRing]
    cases hpb : parseByte b s with
    | fault e => simp [hpb] at h
    | refused e => simp [hpb] at h
    | next p =>
      obtain ⟨d, u⟩ := p
      cases d
      · simp only [hpb] at h; exact ih h
      · simp only [hpb, Host.Outcome.next.injEq, Prod.mk.injEq] at h
        obtain ⟨rfl, rfl, rfl⟩ := h
        rfl

/-- R100: a pump parses the unread bytes in order; what it does not take stays unread. -/
theorem pumpLoop_parseAll {n : Nat} {l : List Byte} {s : State} (hl : ringBytes s.ring = l) (hn : l.length < n)
    {done : Bool} {rest : List Byte} {t : State} (h : parseAll l s = .next (done, rest, t)) :
    ∃ r, pumpLoop n s = .next (t.setRing r) ∧ ringBytes r = rest := by
  induction l generalizing n s t with
  | nil =>
    simp only [parseAll, Host.Outcome.next.injEq, Prod.mk.injEq] at h
    obtain ⟨rfl, rfl, rfl⟩ := h
    refine ⟨s.ring, ?_, hl⟩
    obtain ⟨n, rfl⟩ : ∃ k, n = k + 1 := ⟨n - 1, by simp at hn; omega⟩
    rcases ringPop_cases s.ring with ⟨_, _, hp⟩ | ⟨b, _, _, hb⟩
    · simp only [pumpLoop, hp]; rfl
    · rw [hl] at hb; cases hb
  | cons c l ih =>
    obtain ⟨n, rfl⟩ : ∃ k, n = k + 1 := ⟨n - 1, by simp at hn; omega⟩
    rcases ringPop_cases s.ring with ⟨he, _, _⟩ | ⟨b, _, hp, hb⟩
    · rw [hl] at he; cases he
    · rw [hl] at hb
      obtain ⟨rfl, hb'⟩ := List.cons.inj hb
      simp only [pumpLoop, hp, parseByte_setRing]
      simp only [parseAll] at h
      cases hpb : parseByte c s with
      | fault e => simp [hpb] at h
      | refused e => simp [hpb] at h
      | next p =>
        obtain ⟨d, u⟩ := p
        cases d
        · simp only [hpb] at h
          simp only [Bool.false_and, Bool.false_eq_true, if_false]
          obtain ⟨r, hr, hr'⟩ := ih (s := u.setRing { s.ring with tail := s.ring.tail + 1 })
            (t := t.setRing { s.ring with tail := s.ring.tail + 1 }) hb'.symm (by simp at hn; omega)
            (parseAll_setRing h _)
          exact ⟨r, hr, hr'⟩
        · simp only [hpb, Host.Outcome.next.injEq, Prod.mk.injEq] at h
          obtain ⟨rfl, rfl, rfl⟩ := h
          have hout : u.outcome ≠ .inProgress := by
            rcases parseByte_cases hpb with ⟨h, _⟩ | ⟨_, _, rfl⟩
            · cases h
            · exact (completeFrame_rest _).2.2.2.2.1
          refine ⟨{ s.ring with tail := s.ring.tail + 1 }, ?_, hb'.symm⟩
          simp [hout]

end Sys2Proof.Machine
end

