-- ==== Sys2Proof/Laws/Orchestrator.lean ====
section
/-! SUPPORT. What the orchestrator's shared operations can do: an operation that may be held, the QUERY steps, and
what a pump leaves of the outcome, the Decoded Value and the reports. -/

namespace Sys2Proof.Machine

/-- R104: an operation of the host is held while busy, and has its effect otherwise. -/
theorem whenReady_cases (s t : State) :
    (s.busy = true ∧ whenReady s t = s) ∨ (s.busy = false ∧ whenReady s t = t) := by
  simp only [whenReady]; cases h : s.busy <;> simp

/-- R108: the sleep between pumps changes no field but the record of sleeps. -/
theorem sleepBetween_rest (s : State) : ∃ l, sleepBetween s = { s with sleeps := l } := by
  simp only [sleepBetween]; split
  · exact ⟨_, rfl⟩
  · exact ⟨s.sleeps, rfl⟩

/-- R97, R98, R100: what a pump leaves of the outcome, the Decoded Value and the reports. -/
theorem pumpBody_outcome {s t : State} (h : pumpBody s = .next t) :
    (t.outcome = s.outcome ∧ t.dval = s.dval ∧ t.dfc = s.dfc ∧ t.dkind = s.dkind ∧ t.reports = s.reports) ∨
      (t.outcome = .success ∧ ∃ f, t.dval = some (frameValue s.cfg f) ∧ t.dfc = some (frameFc f) ∧
        t.dkind = some (frameKind s.cfg f) ∧
        t.reports = s.reports ++ [.value (frameFc f) (frameKind s.cfg f) (frameValue s.cfg f)]) ∨
      (t.outcome = .checksumError ∧ t.dval = s.dval ∧ t.dfc = s.dfc ∧ t.dkind = s.dkind ∧
        t.reports = s.reports ++ [.checksumErr]) := by
  obtain ⟨r, f, -, ⟨rfl, -⟩ | ⟨-, rfl⟩⟩ := pumpBody_cases h
  · exact .inl ⟨rfl, rfl, rfl, rfl, rfl⟩
  · rcases completeFrame_cases (((s.setRx s.rx.tail).setRing r).setFrame f) with ⟨_, e⟩ | ⟨_, e⟩
    · right; left; rw [e]; exact ⟨rfl, f, rfl, rfl, rfl, rfl⟩
    · right; right; rw [e]; exact ⟨rfl, rfl, rfl, rfl, rfl⟩

/-- R108, R109: everything a wait step does after its pump. -/
theorem afterPump_cases (s : State) :
    (s.outcome = .inProgress ∧ s.pumps ≠ s.cfg.maxPumps ∧ afterPump s = s) ∨
      (s.outcome = .inProgress ∧ s.pumps = s.cfg.maxPumps ∧
        afterPump s = ((s.setOutcome .timeoutError).setResult (some Config.sentinel)).setBusy false) ∨
      (s.outcome = .success ∧ afterPump s = (s.setResult s.dval).setBusy false) ∨
      (s.outcome ≠ .inProgress ∧ s.outcome ≠ .success ∧
        afterPump s = (s.setResult (some Config.sentinel)).setBusy false) := by
  by_cases h : s.outcome = .inProgress
  · by_cases h' : s.pumps = s.cfg.maxPumps
    · exact .inr (.inl ⟨h, h', by simp [afterPump, h, h', queryFinish]⟩)
    · exact .inl ⟨h, h', by simp [afterPump, h, h']⟩
  · by_cases h' : s.outcome = .success
    · exact .inr (.inr (.inl ⟨h', by simp [afterPump, h', queryFinish]⟩))
    · exact .inr (.inr (.inr ⟨h, h', by simp [afterPump, h, h', queryFinish]⟩))

/-- R108: a wait step is its sleep, its pump and what follows; without a pending QUERY it is nothing. -/
theorem waitStep_cases {s t : State} (h : waitStep s = .next t) :
    (s.busy = false ∧ t = s) ∨
      (s.busy = true ∧ ∃ u, pumpBody (sleepBetween s) = .next u ∧ u.pumps = s.pumps ∧ u.cfg = s.cfg ∧
        t = afterPump (u.setPumps (s.pumps + 1))) := by
  unfold waitStep at h
  by_cases hb : s.busy = true
  · rw [if_pos hb] at h
    cases hp : pumpBody (sleepBetween s) with
    | fault e => simp [hp] at h
    | refused e => simp [hp] at h
    | next u =>
      simp only [hp, Host.Outcome.next.injEq] at h
      obtain ⟨l, hl⟩ := sleepBetween_rest s
      have hr := (pumpBody_rest hp).1
      have e : u.pumps = s.pumps := by rw [hr.pumps, hl]
      exact .inr ⟨hb, u, rfl, e, by rw [hr.cfg, hl], by rw [← h, e]⟩
  · rw [if_neg hb] at h
    cases h
    exact .inl ⟨by simpa using hb, rfl⟩

/-- R108: the wait step of a pending QUERY, from its pump. -/
theorem waitStep_of_pump {s u : State} (hb : s.busy = true) (hp : pumpBody (sleepBetween s) = .next u) :
    waitStep s = .next (afterPump (u.setPumps (s.pumps + 1))) := by
  obtain ⟨l, hl⟩ := sleepBetween_rest s
  have e : u.pumps = s.pumps := by rw [(pumpBody_rest hp).1.pumps, hl]
  simp only [waitStep, hb, if_true, hp, e]

/-- R108, R103: under the parser's invariants a wait step always answers. -/
theorem waitStep_answers {s : State} (hf : FrameInv s.frame) : ∃ t, waitStep s = .next t := by
  by_cases hb : s.busy = true
  · obtain ⟨l, hl⟩ := sleepBetween_rest s
    obtain ⟨u, hu, _⟩ := pumpBody_answers (s := sleepBetween s) (by rw [hl]; exact hf)
    exact ⟨_, waitStep_of_pump hb hu⟩
  · exact ⟨s, by simp [waitStep, hb]⟩

theorem waitStep_never_refuses (s : State) (r : Refusal) : waitStep s ≠ .refused r := by
  unfold waitStep
  split
  · cases h : pumpBody (sleepBetween s) with
    | next t => simp
    | fault e => simp
    | refused e => exact absurd h (pumpBody_never_refuses _ _)
  · simp

end Sys2Proof.Machine
end

