-- ==== Sys2Proof/Laws/PerInstr.lean ====
section
/-! SUPPORT. Statements made per instruction: the family TableRow. -/

namespace Sys2Proof.Laws.TableRow

open Sys2Proof Sys2Proof.Machine

/-- The word an instruction encodes to carries the mask and the match of its row of the opcode table. -/
def Statement (i : Instr) : Prop := ∀ c e, encode c i = some e → e.fits (tableRow i) = true

/-- The fixed bits of a command word: its low 2 bits and its bits 15:14. -/
theorem packCmd_low (op : BitVec 2) (fc : FnCode) (axis : Axis) (value : Word) :
    packCmd op fc axis value &&& 0x00000000C003#48 = op.setWidth 48 := by
  apply BitVec.eq_of_getLsbD_eq
  intro i hi
  simp only [packCmd, BitVec.getLsbD_and, BitVec.getLsbD_append, BitVec.getLsbD_setWidth]
  by_cases h2 : i < 2
  · have : i = 0 ∨ i = 1 := by omega
    rcases this with rfl | rfl <;> simp
  · have hop : op.getLsbD i = false := BitVec.getLsbD_of_ge _ _ (by omega)
    rw [hop]
    by_cases h : i = 14 ∨ i = 15
    · rcases h with rfl | rfl <;> simp
    · have hm : ∀ j : Fin 48, ¬ j.val < 2 → ¬ (j.val = 14 ∨ j.val = 15) →
          (0x00000000C003#48).getLsbD j.val = false := by decide
      simp [hm ⟨i, hi⟩ h2 h]

theorem send_word (fc : FnCode) (axis : Axis) (value : Word) :
    (Encoded.cmd (packCmd 0#2 fc axis value)).fits (.cmd48 0x00000000C003#48 0x000000000000#48) = true := by
  simp only [Encoded.fits, packCmd_low]; rfl

theorem helper_word {c : Params} {i : Instr} {e : Encoded} (h : helperWord c i = some e) :
    e.fits (.cmd48 0x00000000C003#48 0x000000000000#48) = true := by
  simp only [helperWord, Option.map_eq_some_iff] at h
  obtain ⟨x, _, rfl⟩ := h
  exact send_word _ _ _

theorem send (fc : FnCode) (axis : Axis) (value : Word) : Statement (.send fc axis value) := by
  intro c e h; cases h; exact send_word fc axis value

theorem query (fc : FnCode) (axis : Axis) : Statement (.query fc axis) := by
  intro c e h; cases h
  simp only [tableRow, Encoded.fits, beq_iff_eq]
  have hle : (packCmd 1#2 fc axis 0#32).toNat < 2 ^ 14 := by
    have := fc.isLt
    have := axis.isLt
    rw [packCmd_toNat, BitVec.toNat_ofNat, BitVec.toNat_ofNat]; omega
  have hsplit : packCmd 1#2 fc axis 0#32 &&& 0xFFFFFFFFC003#48 = packCmd 1#2 fc axis 0#32 &&& 0x00000000C003#48 := by
    apply BitVec.eq_of_getLsbD_eq
    intro i hi
    rw [BitVec.getLsbD_and, BitVec.getLsbD_and]
    by_cases hi' : i < 14
    · have hm : ∀ j : Fin 14, (0xFFFFFFFFC003#48).getLsbD j.val = (0x00000000C003#48).getLsbD j.val := by decide
      rw [hm ⟨i, hi'⟩]
    · have : (packCmd 1#2 fc axis 0#32).getLsbD i = false := by
        rw [BitVec.getLsbD]
        exact Nat.testBit_eq_false_of_lt (lt_of_lt_of_le hle (Nat.pow_le_pow_right (by omega) (by omega)))
      rw [this, Bool.false_and, Bool.false_and]
  rw [hsplit, packCmd_low]; rfl

theorem pump : Statement .pump := by
  intro c e h; cases h; decide

theorem reservedOp3 (rest : BitVec 46) : Statement (.reservedOp3 rest) := by
  intro c e h; cases h
  simp only [tableRow, Encoded.fits, beq_iff_eq]
  apply BitVec.eq_of_getLsbD_eq
  intro i hi
  rw [BitVec.getLsbD_and, BitVec.getLsbD_append]
  by_cases h2 : i < 2
  · have : i = 0 ∨ i = 1 := by omega
    rcases this with rfl | rfl <;> simp
  · have hm : ∀ j : Fin 48, ¬ j.val < 2 → (0x000000000003#48).getLsbD j.val = false := by decide
    rw [hm ⟨i, hi⟩ h2, Bool.and_false]

theorem parseStart (d : BitVec 7) : Statement (.parseStart d) := by
  intro c e h; cases h; revert d; decide

theorem parseCont (d : BitVec 7) : Statement (.parseCont d) := by
  intro c e h; cases h; revert d; decide

theorem frame4 (fc : FnCode) : Statement (.frame4 fc) := by
  intro c e h; cases h; revert fc; decide

theorem frame5 (fc : FnCode) : Statement (.frame5 fc) := by
  intro c e h; cases h; revert fc; decide

theorem frame6 (fc : FnCode) : Statement (.frame6 fc) := by
  intro c e h; cases h; revert fc; decide

theorem frame7 (fc : FnCode) : Statement (.frame7 fc) := by
  intro c e h; cases h; revert fc; decide

theorem push (b : Byte) : Statement (.push b) := by
  intro c e h; cases h

theorem pop : Statement .pop := by
  intro c e h; cases h

theorem encode (v : Word) : Statement (.encode v) := by
  intro c e h; cases h

theorem decodeS : Statement .decodeS := by
  intro c e h; cases h

theorem decodeU : Statement .decodeU := by
  intro c e h; cases h

theorem decode : Statement .decode := by
  intro c e h; cases h

theorem ckgen (body : List Byte) : Statement (.ckgen body) := by
  intro c e h; cases h

theorem ckver (body : List Byte) (ck : Byte) : Statement (.ckver body ck) := by
  intro c e h; cases h

theorem complete : Statement .complete := by
  intro c e h; cases h

theorem pumpBody : Statement .pumpBody := by
  intro c e h; cases h

theorem drain : Statement .drain := by
  intro c e h; cases h

theorem buildAndSend (fc : FnCode) (axis : Axis) (value : Word) : Statement (.buildAndSend fc axis value) := by
  intro c e h; cases h

theorem queryWait : Statement .queryWait := by
  intro c e h; cases h

theorem queryFinish : Statement .queryFinish := by
  intro c e h; cases h

theorem statusDecode (v : Word) : Statement (.statusDecode v) := by
  intro c e h; cases h

theorem alarmClass (alarm : BitVec 3) : Statement (.alarmClass alarm) := by
  intro c e h; cases h

theorem moveabs (axis : Axis) (pos : Word) : Statement (.moveabs axis pos) := fun _ _ h => helper_word h

theorem rotate (axis : Axis) (v : Word) : Statement (.rotate axis v) := fun _ _ h => helper_word h

theorem origin (axis : Axis) : Statement (.origin axis) := fun _ _ h => helper_word h

theorem setgain (axis : Axis) (g : Word) : Statement (.setgain axis g) := fun _ _ h => helper_word h

theorem setspeed (axis : Axis) (v : Word) : Statement (.setspeed axis v) := fun _ _ h => helper_word h

theorem setaccel (axis : Axis) (a : Word) : Statement (.setaccel axis a) := fun _ _ h => helper_word h

theorem enable (axis : Axis) : Statement (.enable axis) := fun _ _ h => helper_word h

theorem disable (axis : Axis) : Statement (.disable axis) := fun _ _ h => helper_word h

end Sys2Proof.Laws.TableRow
end

