-- ==== Sys2Proof/Laws/Step.lean ====
section
/-! SUPPORT. What a step selects, by the host's next action; what a command word can decode to; and the received
bytes as instructions. -/

namespace Sys2Proof.Machine

/-- The engine left to itself (R108, R142). -/
def engineStep (s : State) : Host.Outcome State Fault Refusal := if s.busy then waitStep s else .next s

theorem step_engine {s t : State} (h : fetch s = fetchEngine t) : step s = engineStep t := by
  simp only [step, h, fetchEngine, engineStep]
  cases t.busy <;> rfl

theorem step_nil {s : State} (h : s.host = []) : step s = engineStep s := step_engine (by simp [fetch, h])

theorem step_idle {s : State} {rest : List HostAction} (h : s.host = .idle :: rest) :
    step s = engineStep (s.setHost rest) := step_engine (by simp [fetch, h])

theorem step_read {s : State} {p : Nat} {rest : List HostAction} (h : s.host = .read p :: rest) :
    step s = hostRead p (s.setHost rest) := by simp [step, fetch, h]

theorem step_offer {s : State} {l : List Byte} {rest : List HostAction} (h : s.host = .offer l :: rest) :
    step s = .next ((s.setHost rest).offerRx l) := by simp [step, fetch, h]

theorem step_restart {s : State} {rest : List HostAction} (h : s.host = .restart :: rest) :
    step s = .next (restartEngine (s.setHost rest)) := by simp [step, fetch, h]

theorem step_held {s : State} {w : Cmd} {rest : List HostAction} (h : s.host = .command w :: rest)
    (hb : s.busy = true) : step s = waitStep s := by
  rw [step_engine (t := s) (by simp [fetch, h, hb]), engineStep, if_pos hb]

theorem step_accepts {s : State} {w : Cmd} {rest : List HostAction} {i : Instr} (h : s.host = .command w :: rest)
    (hb : s.busy = false) (hd : decodeCmd w = some i) : step s = exec i (s.setHost rest) := by
  simp [step, fetch, h, hb, fetchCommand, hd]

theorem step_undecoded {s : State} {w : Cmd} {rest : List HostAction} (h : s.host = .command w :: rest)
    (hb : s.busy = false) (hd : decodeCmd w = none) : step s = .refused (.undecodedCommand w) := by
  simp [step, fetch, h, hb, fetchCommand, hd]

/-- R64: what a command word can decode to. -/
theorem decodeCmd_cases {w : Cmd} {i : Instr} (h : decodeCmd w = some i) :
    (∃ rest, i = .reservedOp3 rest) ∨ (∃ F A v, i = .send F A v) ∨ (∃ F A, i = .query F A) ∨ i = .pump := by
  simp only [decodeCmd] at h
  split_ifs at h <;> simp only [Option.some.injEq] at h
  · exact .inl ⟨_, h.symm⟩
  · exact .inr (.inl ⟨_, _, _, h.symm⟩)
  · exact .inr (.inr (.inl ⟨_, _, h.symm⟩))
  · exact .inr (.inr (.inr h.symm))

/-- R31, R35: what a host read can answer. -/
theorem hostRead_cases (p : Nat) (s : State) :
    (∃ v, hostRead p s = .next (s.logRead p v)) ∨
      (1 ≤ p ∧ p ≤ 4 ∧ ∃ reg, hostRead p s = .fault (.readUnwritten reg)) ∨
      (9 ≤ p ∧ hostRead p s = .refused (.reservedPort p)) := by
  have key : ∀ reg o, (∃ v, readReg reg o = .next v) ∨ readReg reg o = .fault (.readUnwritten reg) := by
    intro reg o
    cases o with
    | none => exact .inr rfl
    | some v => exact .inl ⟨v, rfl⟩
  have reg : ∀ p reg o, 1 ≤ p → p ≤ 4 → readPort s p = readReg reg o →
      (∃ v, hostRead p s = .next (s.logRead p v)) ∨
        (1 ≤ p ∧ p ≤ 4 ∧ ∃ reg, hostRead p s = .fault (.readUnwritten reg)) ∨
        (9 ≤ p ∧ hostRead p s = .refused (.reservedPort p)) := by
    intro p reg o h1 h4 h
    rcases key reg o with ⟨v, e⟩ | e
    · exact .inl ⟨v, by simp [hostRead, h, e]⟩
    · exact .inr (.inl ⟨h1, h4, reg, by simp [hostRead, h, e]⟩)
  match p with
  | 0 => exact .inl ⟨_, rfl⟩
  | 1 => exact reg 1 _ _ (by omega) (by omega) rfl
  | 2 => exact reg 2 _ _ (by omega) (by omega) rfl
  | 3 => exact reg 3 _ _ (by omega) (by omega) rfl
  | 4 => exact reg 4 _ _ (by omega) (by omega) rfl
  | 5 => exact .inl ⟨_, rfl⟩
  | 6 => exact .inl ⟨_, rfl⟩
  | 7 => exact .inl ⟨_, rfl⟩
  | 8 => exact .inl ⟨_, rfl⟩
  | n + 9 => exact .inr (.inr ⟨by omega, rfl⟩)

/-- R11, R94: a byte is the byte its instruction carries. -/
theorem byte_parts (b : Byte) :
    (isStart b = true → startByte (group b) = b) ∧ (isStart b = false → contByte (group b) = b) ∧
      (isStart b = false → lenCode b = 0 → codeByte 0#2 (codeFc b) = b) ∧
      (isStart b = false → lenCode b = 1 → codeByte 1#2 (codeFc b) = b) ∧
      (isStart b = false → lenCode b = 2 → codeByte 2#2 (codeFc b) = b) ∧
      (isStart b = false → lenCode b = 3 → codeByte 3#2 (codeFc b) = b) := by
  revert b; decide

/-- R91: the instruction a byte decodes to, at every count, is PARSE_BYTE of that byte. -/
theorem exec_decodeRx (n : Nat) (b : Byte) (s : State) : exec (decodeRx n b) s = parseAlone b s := by
  obtain ⟨hs, hc, h0, h1, h2, h3⟩ := byte_parts b
  have hL := lenCode_le b
  by_cases h : isStart b = true
  · simp only [decodeRx, h, if_true, exec, execParseStart, hs h]
  · have h : isStart b = false := by simpa using h
    by_cases hn : n = 1
    · have : lenCode b = 0 ∨ lenCode b = 1 ∨ lenCode b = 2 ∨ lenCode b = 3 := by omega
      rcases this with e | e | e | e
      · simp [decodeRx, h, hn, decodeCode, e, exec, execFrame4, h0 h e]
      · simp [decodeRx, h, hn, decodeCode, e, exec, execFrame5, h1 h e]
      · simp [decodeRx, h, hn, decodeCode, e, exec, execFrame6, h2 h e]
      · simp [decodeRx, h, hn, decodeCode, e, exec, execFrame7, h3 h e]
    · simp [decodeRx, h, hn, exec, execParseCont, hc h]

end Sys2Proof.Machine
end

