-- ==== Sys2Proof/Tests/Slice0.lean ====
section
/-! SUPPORT. The model's own tests.  Expected results come from spec/95_test_vectors.md (the vector is named
in each comment), from the encodings of spec/30_encoding.md written out by hand, or from the rule named.  After
them, for each statement that has hypotheses, a state and operands that meet them. -/

namespace Sys2Proof.Tests

open Sys2Proof Sys2Proof.Machine

/-! ## Helpers -/

/-- The premises of 95_test_vectors.md: fc 0x10 decodes unsigned, every other code signed; FC_SET_GAIN = 0x10
and FC_MOVE_ABS = 0x0C; the other codes are the tests' own. -/
def benchParams : Params where
  maxPumps := 3
  decodeKind := Vector.ofFn fun i => if i.val = 0x10 then .unsigned else .signed
  fcMoveAbs := 0x0C#5
  fcRotate := 0x0A#5
  fcOrigin := 0x00#5
  fcSetGain := 0x10#5
  fcSetSpeed := 0x14#5
  fcSetAccel := 0x15#5
  fcEnable := 0x06#5
  fcDisable := 0x06#5
  originPayload := 0#32
  enablePayload := 1#32
  disablePayload := 2#32
  pumpSleepMs := 5

/-- The reset state of an instance with those parameters. -/
def bench : State := State.resetWith benchParams

/-- `bench` with a transport that offers `l` at the next drain. -/
def benchRx (l : List Byte) : State := bench.setRx [l]

/-- A state whose parser holds the bytes `l` with an expected length. -/
def holding (l : List Byte) (expected : Fin 8) : State :=
  bench.setFrame { buf := l.zipIdx.map fun e => (e.2, e.1), count := Fin.ofNat 8 l.length, expected := expected }

/-- A ring whose slots 0.. hold `l`. -/
def ringOf (l : List Byte) (head tail : Fin 8) : State :=
  bench.setRing { buf := l.zipIdx.map fun e => (e.2, e.1), head := head, tail := tail }

/-- A field of the next state. -/
def after {α : Type} (o : Host.Outcome State Fault Refusal) (f : State → α) : Option α :=
  match o with
  | .next s => some (f s)
  | .fault _ => none
  | .refused _ => none

/-- The reason of a refusal. -/
def refusal (o : Host.Outcome State Fault Refusal) : Option Refusal :=
  match o with
  | .next _ => none
  | .fault _ => none
  | .refused r => some r

/-- The reason of a fault. -/
def faultOf (o : Host.Outcome State Fault Refusal) : Option Fault :=
  match o with
  | .next _ => none
  | .fault r => some r
  | .refused _ => none

/-! ## Well-formedness: an ill-formed term for each check -/

/-- R85: fewer than 3 bytes before the checksum. -/
theorem test_wf_ckgen_short : (Instr.ckgen [0x00, 0x90]).wf = false := by decide

/-- R85: more than 6 bytes before the checksum. -/
theorem test_wf_ckgen_long : (Instr.ckgen [0, 0, 0, 0, 0, 0, 0]).wf = false := by decide

/-- R86: fewer than 3 bytes before the checksum. -/
theorem test_wf_ckver_short : (Instr.ckver [0x00] 0x80).wf = false := by decide

/-- R86: a frame of 5 bytes. -/
theorem test_wf_ckver_ok : (Instr.ckver [0x00, 0xB0, 0x80, 0xC1] 0xF1).wf = true := by decide

/-- R67: fc 32 does not fit. -/
theorem test_wf_fc : (AsmLine.query 32 0).wf = false := by decide

/-- R67: axis −1 does not fit. -/
theorem test_wf_axis : (AsmLine.query 0 (-1)).wf = false := by decide

/-- R67: 2^31 does not fit s32. -/
theorem test_wf_value : (AsmLine.send 0 0 2147483648).wf = false := by decide

/-! ## Decoding: words written out bit by bit from the encodings -/

/-- V-SEND-3: value FFFFFFFF, rsv 00, axis 0000011, fc 00101, op 00. -/
theorem test_decode_send :
    decodeCmd 0b111111111111111111111111111111110000000110010100#48 = some (.send 0x05#5 3#7 0xFFFFFFFF#32) := by decide

/-- V-QUERY-1: value 0, rsv 00, axis 0000000, fc 10000, op 01. -/
theorem test_decode_query :
    decodeCmd 0b000000000000000000000000000000000000000001000001#48 = some (.query 0x10#5 0#7) := by decide

/-- V-CMD-2. -/
theorem test_decode_pump : decodeCmd 0x000000000002#48 = some .pump := by decide

/-- V-CMD-4: op 3. -/
theorem test_decode_reserved : decodeCmd 0x000000000003#48 = some (.reservedOp3 0#46) := by decide

/-- V-CMD-5, V-CMD-6, V-CMD-7, V-CMD-8. -/
theorem test_decode_rejects :
    [0x000000004000#48, 0x000000010001#48, 0x000000000006#48, 0x000000000082#48].map decodeCmd =
      [none, none, none, none] := by decide

/-- 0AAAAAAA: a start byte at any count. -/
theorem test_decode_parseStart : decodeRx 1 0b01111111#8 = .parseStart 0x7F#7 := by decide

/-- 1DDDDDDD: at count 0 an orphan, at count 2 a payload byte. -/
theorem test_decode_parseCont :
    (decodeRx 0 0b10000001#8, decodeRx 2 0b11000001#8) = (.parseCont 1#7, .parseCont 0x41#7) := by decide

/-- 100FFFFF, 101FFFFF, 110FFFFF, 111FFFFF at count 1. -/
theorem test_decode_codes :
    [0b10010000#8, 0b10110000#8, 0b11010000#8, 0b11110000#8].map (decodeRx 1) =
      [.frame4 0x10#5, .frame5 0x10#5, .frame6 0x10#5, .frame7 0x10#5] := by decide

/-- V-SEND-1 and V-SEND-7: the words of the command operations. -/
theorem test_encode_send :
    encode benchParams (.send 0x10#5 0#7 65#32) = some (.cmd 0x000000410040#48) ∧
      encode benchParams (.send 0x1F#5 127#7 0xF8000000#32) = some (.cmd 0xF80000003FFC#48) := by decide

/-- V-HELP-3: the setter's word is the word of its clamped SEND (V-SEND-11). -/
theorem test_encode_setgain : encode benchParams (.setgain 0#7 200#32) = some (.cmd 0x0000007F0040#48) := by decide

/-- R65: an assembled query is V-QUERY-3's word. -/
theorem test_assemble_query : assemble benchParams (.query 5 1) = some 0x000000000095#48 := by decide

/-- R67: an assembly error gives no word. -/
theorem test_assemble_error : assemble benchParams (.setgain 128 1) = none := by decide

/-- The opcode table's row words at the host's interface. -/
theorem test_decodeTableWord :
    decodeTableWord 48 0 = some (.send 0#5 0#7 0#32) ∧ decodeTableWord 8 3 = some (.reservedOp3 0#46) ∧
      decodeTableWord 8 0 = some (.parseStart 0#7) ∧ decodeTableWord 8 0xE0 = some (.frame7 0#5) := by decide

/-! ## Ring buffer -/

/-- V-RING-3 and V-RING-5's kind: a push at slot 7 wraps the head. -/
theorem test_push_wraps :
    after (exec (.push 0x90#8) (ringOf [] 7 3)) (fun t => (t.ring.head, ringSlot t.ring 7, t.ret)) =
      some (0, 0x90#8, .flag true) := by decide

/-- V-RING-5: a push onto a full ring is dropped. -/
theorem test_push_full :
    after (exec (.push 0x55#8) (ringOf [] 2 3)) (fun t => (t.ring, t.ret)) =
      some ((ringOf [] 2 3).ring, .flag false) := by decide

/-- R70's example: tail wraps. -/
theorem test_pop_wraps :
    after (exec .pop (ringOf [1, 2, 3, 4, 5, 6, 7, 0x00] 1 7)) (fun t => (t.ring.tail, t.ret)) =
      some (0, .popped (some 0x00#8)) := by decide

/-- V-RING-6: an empty ring. -/
theorem test_pop_empty :
    after (exec .pop (ringOf [] 5 5)) (fun t => (t.ring.tail, t.ret)) = some (5, .popped none) := by decide

/-- V-RING-7: two of four bytes fit. -/
theorem test_drain_drops :
    after (exec .drain ((ringOf [1, 2, 3, 4, 5] 5 0).setRx [[0x11, 0x92, 0x93, 0x94]]))
      (fun t => (ringBytes t.ring, t.ring.head)) = some ([1, 2, 3, 4, 5, 0x11, 0x92], 7) := by decide

/-! ## Value codec -/

/-- V-ENC-13, V-ENC-19, V-ENC-20 and V-ENC-24. -/
theorem test_encode_value :
    [(0xFFFFDFFF#32), 0xF8000000#32, 0x12345678#32, 0x80000000#32].map encodeValue =
      [[0xFF, 0xBF, 0xFF], [0xC0, 0x80, 0x80, 0x80], [0x91, 0xD1, 0xAC, 0xF8], [0x80, 0x80, 0x80, 0x80]] := by decide

/-- V-ENC-7: −65 takes two groups. -/
theorem test_encode_exec :
    after (exec (.encode 0xFFFFFFBF#32) bench) (·.ret) = some (.bytes [0xFF, 0xBF]) := by decide

/-- V-DEC-4: −2^27. -/
theorem test_decodeS :
    after (exec .decodeS (holding [0x00, 0xE0, 0xC0, 0x80, 0x80, 0x80, 0xA0] 7)) (·.ret) =
      some (.value 0xF8000000#32) := by decide

/-- V-DEC-9: 2^28 − 1. -/
theorem test_decodeU :
    after (exec .decodeU (holding [0x00, 0xE0, 0xFF, 0xFF, 0xFF, 0xFF, 0xDC] 7)) (·.ret) =
      some (.value 268435455#32) := by decide

/-- V-DEC-8 under the premise for fc 0x10: 65, where the signed reading is −63. -/
theorem test_decode_kind :
    after (exec .decode (holding [0x00, 0x90, 0xC1, 0xD1] 4)) (·.ret) = some (.decoded 65#32 .unsigned) := by decide

/-! ## Checksum -/

/-- V-CK-2: the sum wraps. -/
theorem test_ckgen : after (exec (.ckgen [0x7F, 0xFF, 0xFF]) bench) (·.ret) = some (.byte 0xFD#8) := by decide

/-- V-CK-5d: a data bit of the checksum flipped. -/
theorem test_ckver_detects :
    after (exec (.ckver [0x00, 0xB0, 0x80, 0xC1] 0xB1) bench) (·.ret) = some (.flag false) := by decide

/-- V-CK-6: a framing bit flipped is not detected. -/
theorem test_ckver_ignores_bit7 :
    after (exec (.ckver [0x00, 0xB0, 0x00, 0xC1] 0xF1) bench) (·.ret) = some (.flag true) := by decide

/-! ## Frame parser -/

/-- V-PARSE-3: a start byte mid-frame. -/
theorem test_parseStart_restarts :
    after (exec (.parseStart 0x02#7) (holding [0x01, 0xA5, 0x83] 5))
      (fun t => (t.frame.count, t.frame.expected, frameSlot t.frame 0, t.reports, t.ret)) =
      some (1, 0, 0x02#8, [], .flag false) := by decide

/-- V-PARSE-5, its first byte: an orphan is stored as byte 0. -/
theorem test_parseCont_orphan :
    after (exec (.parseCont 0x01#7) bench) (fun t => (t.frame.count, frameSlot t.frame 0)) =
      some (1, 0x81#8) := by decide

/-- V-PARSE-1, its last byte: Success. -/
theorem test_parseCont_completes :
    after (exec (.parseCont 0x71#7) (holding [0x00, 0xB0, 0x80, 0xC1] 5))
      (fun t => (t.outcome, t.dval, t.dfc, t.frame.count, t.reports)) =
      some (.success, some 65#32, some 0x10#5, 0, [.value 0x10#5 .unsigned 65#32]) := by decide

/-- V-PARSE-6: byte 1 is 0x80. -/
theorem test_frame4 :
    after (exec (.frame4 0x00#5) (holding [0xB0] 0)) (fun t => (t.frame.count, t.frame.expected)) = some (2, 4) := by
  decide

/-- V-PARSE-1, its second byte. -/
theorem test_frame5 :
    after (exec (.frame5 0x10#5) (holding [0x00] 0)) (fun t => (t.frame.count, t.frame.expected)) = some (2, 5) := by
  decide

/-- R56: L = 2. -/
theorem test_frame6 :
    after (exec (.frame6 0x00#5) (holding [0x00] 0)) (fun t => (t.frame.count, t.frame.expected)) = some (2, 6) := by
  decide

/-- V-PARSE-9, its second byte. -/
theorem test_frame7 :
    after (exec (.frame7 0x05#5) (holding [0x01] 0)) (fun t => (t.frame.count, t.frame.expected)) = some (2, 7) := by
  decide

/-- V-PARSE-8: a bad checksum. -/
theorem test_complete_bad :
    after (exec .complete (holding [0x00, 0xB0, 0x80, 0xC1, 0xF2] 5))
      (fun t => (t.outcome, t.dval, t.frame.count, t.frame.expected, t.reports)) =
      some (.checksumError, none, 0, 0, [.checksumErr]) := by decide

/-- V-PARSE-7: the pump stops after the frame it completes. -/
theorem test_pumpBody_stops :
    after (exec .pumpBody (ringOf [0x00, 0xB0, 0x80, 0xC1, 0xF1, 0x01] 6 0))
      (fun t => (t.outcome, t.dval, t.ring.head, t.ring.tail, t.frame.count)) =
      some (.success, some 65#32, 6, 5, 0) := by decide

/-! ## Orchestrator -/

/-- V-SEND-5. -/
theorem test_send :
    after (exec (.send 0x00#5 0#7 0xFFFFDFFF#32) bench) (·.tx) =
      some [0x00, 0xC0, 0xFF, 0xBF, 0xFF, 0xFD] := by decide

/-- V-SEND-8: a value outside the 28-bit range wraps. -/
theorem test_buildAndSend_wraps :
    after (exec (.buildAndSend 0x05#5 1#7 0x08000000#32) bench) (·.tx) =
      some [0x01, 0xE5, 0xC0, 0x80, 0x80, 0x80, 0xA6] := by decide

/-- V-QUERY-2: the issue step. -/
theorem test_query :
    after (exec (.query 0x1F#5 127#7) (bench.setOutcome .success)) (fun t => (t.tx, t.outcome, t.pumps, t.busy)) =
      some ([0x7F, 0x9F, 0x80, 0x9E], .inProgress, 0, true) := by decide

/-- V-QUERY-4: completion beats timeout in the last wait step. -/
theorem test_queryWait_completion :
    after (exec .queryWait (((benchRx [0x00, 0xB0, 0x80, 0xC1, 0xF1]).setBusy true).setPumps 2))
      (fun t => (t.outcome, t.result, t.pumps, t.busy, t.sleeps)) =
      some (.success, some 65#32, 3, false, [5]) := by decide

/-- V-QUERY-5: an empty drain in the last wait step. -/
theorem test_queryWait_timeout :
    after (exec .queryWait (((benchRx []).setBusy true).setPumps 2))
      (fun t => (t.outcome, t.result, t.pumps, t.busy, t.reports)) =
      some (.timeoutError, some 0x80000000#32, 3, false, []) := by decide

/-- R110's example: a ChecksumError. -/
theorem test_queryFinish :
    after (exec .queryFinish ((bench.setBusy true).setOutcome .checksumError)) (fun t => (t.result, t.busy)) =
      some (some 0x80000000#32, false) := by decide

/-- V-PUMP-1: PUMP with drain G. -/
theorem test_pump :
    after (exec .pump (benchRx [0x00, 0xB0, 0x80, 0xC1, 0xF1]))
      (fun t => (outcomeCode t.outcome, t.dval, t.busy, t.pumps, t.result)) =
      some (1#2, some 65#32, false, 0, none) := by decide

/-- V-PUMP-2: an empty drain changes nothing. -/
theorem test_pump_empty : after (exec .pump (benchRx [])) (fun t => decide (t = bench)) = some true := by decide

/-- V-CMD-4: op 3 is refused. -/
theorem test_reservedOp3 : refusal (exec (.reservedOp3 0#46) bench) = some (.reservedCommand 3#48) := by decide

/-- V-STAT-8: dval −61. -/
theorem test_statusDecode :
    after (exec (.statusDecode 0xFFFFFFC3#32) bench) (·.ret) =
      some (.status ⟨true, true, 0#3, false, true, false, false⟩) := by decide

/-- V-STAT-5 and V-STAT-4: alarm 3 is fatal and alarm 4 advisory. -/
theorem test_alarmClass :
    after (exec (.alarmClass 3#3) bench) (·.ret) = some (.alarm true false) ∧
      after (exec (.alarmClass 4#3) bench) (·.ret) = some (.alarm false true) := by decide

/-! ## Helpers -/

/-- V-HELP-6. -/
theorem test_moveabs :
    after (exec (.moveabs 1#7 1000#32) bench) (·.tx) = some [0x01, 0xAC, 0x87, 0xE8, 0x9C] := by decide

/-- R115: no clamp.  fc 0x0A and value −5: 02, 8A, FB, and the sum 0x187. -/
theorem test_rotate :
    after (exec (.rotate 2#7 0xFFFFFFFB#32) bench) (·.tx) = some [0x02, 0x8A, 0xFB, 0x87] := by decide

/-- R116, with the tests' code 0 and payload 0: V-CMD-9's bytes. -/
theorem test_origin : after (exec (.origin 0#7) bench) (·.tx) = some [0x00, 0x80, 0x80, 0x80] := by decide

/-- V-HELP-2: −5 becomes 1. -/
theorem test_setgain_low :
    after (exec (.setgain 0#7 0xFFFFFFFB#32) bench) (·.tx) = some [0x00, 0x90, 0x81, 0x91] := by decide

/-- V-HELP-3: 200 becomes 127. -/
theorem test_setgain_high :
    after (exec (.setgain 0#7 200#32) bench) (·.tx) = some [0x00, 0xB0, 0x80, 0xFF, 0xAF] := by decide

/-- R118: 63 takes one group, 00 94 BF and the sum 0x153. -/
theorem test_setspeed :
    after (exec (.setspeed 0#7 63#32) bench) (·.tx) = some [0x00, 0x94, 0xBF, 0xD3] := by decide

/-- R119: 0 becomes 1, 00 95 81 and the sum 0x116. -/
theorem test_setaccel :
    after (exec (.setaccel 0#7 0#32) bench) (·.tx) = some [0x00, 0x95, 0x81, 0x96] := by decide

/-- R120: fc 6, payload 1, axis 1: 01 86 81 and the sum 0x108. -/
theorem test_enable : after (exec (.enable 1#7) bench) (·.tx) = some [0x01, 0x86, 0x81, 0x88] := by decide

/-- R121: the same code, payload 2: 01 86 82 and the sum 0x109. -/
theorem test_disable : after (exec (.disable 1#7) bench) (·.tx) = some [0x01, 0x86, 0x82, 0x89] := by decide

/-! ## Read port, step, reset and boot -/

/-- V-PORT-1: the four registers that are unwritten. -/
theorem test_read_unwritten :
    [1, 2, 3, 4].map (fun p => faultOf (hostRead p bench)) =
      [some (.readUnwritten .result), some (.readUnwritten .dvalue), some (.readUnwritten .dfc),
        some (.readUnwritten .status)] := by decide

/-- V-PORT-2: the others read 0. -/
theorem test_read_reset :
    [0, 5, 6, 7, 8].map (fun p => after (hostRead p bench) (·.reads)) =
      [some [(0, 0#32)], some [(5, 0#32)], some [(6, 0#32)], some [(7, 0#32)], some [(8, 0#32)]] := by decide

/-- V-PORT-3, and V-STAT-5's and V-STAT-9's status words. -/
theorem test_read_dfc_status :
    after (hostRead 3 (bench.setDecoded 65#32 0x10#5 .unsigned)) (·.reads) = some [(3, 0x30#32)] ∧
      after (hostRead 4 (bench.setDecoded 12#32 0x19#5 .signed)) (·.reads) = some [(4, 0x08C#32)] ∧
      after (hostRead 4 (bench.setDecoded 0xFFFFFFFF#32 0x19#5 .signed)) (·.reads) = some [(4, 0x17F#32)] := by decide

/-- V-PORT-4. -/
theorem test_read_reserved : refusal (step (bench.setHost [.read 9])) = some (.reservedPort 9) := by decide

/-- V-QUERY-7: a SEND presented while a QUERY is pending is held, and a wait step runs. -/
theorem test_step_holds :
    after (step (((benchRx []).setBusy true).setHost [.command 0x000000410040#48])) (fun t => (t.host, t.tx, t.pumps)) =
      some ([.command 0x000000410040#48], [], 1) := by decide

/-- V-CMD-7: a word that does not decode is refused. -/
theorem test_step_refuses :
    refusal (step (bench.setHost [.command 6#48])) = some (.undecodedCommand 6#48) := by decide

/-- The first step after reset runs a placed word: a command word and a received byte. -/
theorem test_withFetchWord :
    after (step (State.reset.withFetchWord 48 0)) (·.tx) = some [0x00, 0x80, 0x80, 0x80] ∧
      after (step (State.reset.withFetchWord 8 0xE5)) (fun t => (t.frame.count, t.frame.expected)) = some (2, 7) := by
  decide

/-- R145: a restart leaves the transport's bytes. -/
theorem test_restart :
    after (step ((((benchRx [0x81]).setOutcome .success).setBusy true).setHost [.restart]))
      (fun t => (t.rx, t.outcome, t.busy)) = some ([[0x81]], .inProgress, false) := by decide

/-- R146: a decode-kind table that lacks code 31 starts no instance. -/
theorem test_boot_checks :
    (boot true benchParams ((List.range 31).map fun F => (F, .signed)) true).isSome = false ∧
      (boot true benchParams ((List.range 32).map fun F => (F, .signed)) true).isSome = true := by decide

/-- R65, P5: the lines keep their order, so a PUMP before an RX line comes before its list is offered. -/
theorem test_loadProgram :
    (loadProgram benchParams [.pump, .rx [0x02, 0x90, 0x87, 0x99], .pump] bench).map (fun t => (t.host, t.rx)) =
      some ([.command 0x000000000002#48, .offer [0x02, 0x90, 0x87, 0x99], .command 0x000000000002#48], []) := rfl

/-- P5: PUMP 2 has an empty drain, though an RX line follows it, and takes the 3 bytes the first PUMP left. -/
theorem test_program_order :
    after (step ((ringOf [0x02, 0xB0, 0x80] 3 0).setHost [.command 2#48, .offer [0x02, 0x90, 0x87, 0x99]]))
      (fun t => (t.frame.count, t.frame.expected, ringBytes t.ring, t.reports)) = some (3, 5, [], []) := by decide

/-- R65, P1: an RX line after a QUERY is there for its wait steps: it is taken while busy, and no wait step runs. -/
theorem test_offer :
    after (step (((benchRx [0x81]).setBusy true).setHost [.offer [0x00], .command 2#48]))
      (fun t => (t.rx, t.busy, t.pumps)) = some ([[0x81], [0x00]], true, 0) := by decide

/-! ## The hypotheses of the statements, met -/

/-- A field read from an outcome shows that the outcome is a next state. -/
theorem after_next {α : Type} {o : Host.Outcome State Fault Refusal} {f : State → α} {a : α}
    (h : after o f = some a) : ∃ t, o = .next t ∧ f t = a := by
  cases o with
  | next t => exact ⟨t, rfl, Option.some.inj h⟩
  | fault e => cases h
  | refused e => cases h

theorem frameInv_idle (l : List Host.Cell) (h1 : Memory.wf l) (h2 : Memory.within l Config.frameCap) :
    FrameInv { buf := l, count := 0, expected := 0 } :=
  ⟨h1, h2, Nat.zero_le 6, ⟨fun _ => Nat.zero_lt_two, fun _ => rfl⟩, fun h => absurd h (Nat.not_succ_le_zero 1),
    fun i hi => absurd hi (Nat.not_lt_zero i),
    fun i _ hi => absurd hi (Nat.not_lt_zero i)⟩

/-- The invariant depends on no history, host action or drain. -/
theorem bench_inv_with {s : State} (hc : s.cfg = benchParams) (hr : s.ring = bench.ring) (hf : s.frame = bench.frame)
    (ho : s.outcome = .inProgress) (hd : s.dval = none ∧ s.dfc = none ∧ s.dkind = none) (hres : s.result = none)
    (hp : s.pumps < 3) : Inv s where
  params := by rw [hc]; decide
  ring := by rw [hr]; exact ⟨List.Pairwise.nil, by decide, fun k hk => absurd hk (Nat.not_lt_zero k)⟩
  frame := by rw [hf]; exact frameInv_idle [] List.Pairwise.nil (by decide)
  success := by rw [ho]; exact fun h => nomatch h
  decoded := .inl hd
  result := by intro v hv; rw [hres] at hv; cases hv
  pending := fun _ => ⟨ho, by rw [hc]; exact hp⟩
  bounded := by rw [hc]; exact Nat.le_of_lt hp

theorem witness_inv_ready : Inv bench := bench_inv_with rfl rfl rfl rfl ⟨rfl, rfl, rfl⟩ rfl (by decide)

/-- A pending QUERY with a command held and its last pump to come. -/
def heldState : State := (((benchRx []).setBusy true).setPumps 2).setHost [.command 2#48]

theorem witness_inv_pending : Inv heldState ∧ heldState.busy = true ∧ heldState.host = [.command 2#48] :=
  ⟨bench_inv_with rfl rfl rfl rfl ⟨rfl, rfl, rfl⟩ rfl (by decide), rfl, rfl⟩

/-- The parser's invariants for a frame of continuation bytes after its first. -/
theorem frameInv_holding (f : FrameBuf) (h1 : Memory.wf f.buf) (h2 : Memory.within f.buf Config.frameCap)
    (h3 : f.count.val ≤ 6) (h4 : f.expected.val = 0 ↔ f.count.val < 2)
    (h5 : 2 ≤ f.count.val → f.expected.val = frameLength f ∧ f.count.val < f.expected.val)
    (h6 : ∀ i, i < f.count.val → (Memory.read f.buf i).isSome = true ∧ (i = 0 ∨ isStart (frameSlot f i) = false)) :
    FrameInv f :=
  ⟨h1, h2, h3, h4, h5, fun i hi => (h6 i hi).1, fun i h0 hi => (h6 i hi).2.resolve_left (by omega)⟩

/-- Counts 0 and 1, a middle count, and the last two counts of a longest frame. -/
theorem witness_frameInv :
    FrameInv bench.frame ∧ FrameInv (holding [0x01] 0).frame ∧ FrameInv (holding [0x01, 0x85] 4).frame ∧
      FrameInv (holding [0x01, 0xE5, 0xC0, 0x80, 0x80] 7).frame ∧
      FrameInv (holding [0x01, 0xE5, 0xC0, 0x80, 0x80, 0x80] 7).frame := by
  refine ⟨frameInv_idle [] List.Pairwise.nil (by decide), frameInv_holding _ ?_ ?_ ?_ ?_ ?_ ?_,
    frameInv_holding _ ?_ ?_ ?_ ?_ ?_ ?_, frameInv_holding _ ?_ ?_ ?_ ?_ ?_ ?_, frameInv_holding _ ?_ ?_ ?_ ?_ ?_ ?_⟩ <;>
    decide

/-- CommandWordsDecodeByTheTable: each row's words at a boundary, and words of no row. -/
theorem witness_commandWords :
    0xFFFFFFFF3FFC#48 &&& 0x00000000C003#48 = 0x000000000000#48 ∧
      0x000000003FFD#48 &&& 0xFFFFFFFFC003#48 = 0x000000000001#48 ∧
      0x000000000002#48 &&& 0xFFFFFFFFFFFF#48 = 0x000000000002#48 ∧
      (∀ w ∈ [0x000000004000#48, 0x000000010001#48, 0x000000000006#48, 0x000000000003#48],
        w &&& 0x00000000C003#48 ≠ 0x000000000000#48 ∧ w &&& 0xFFFFFFFFC003#48 ≠ 0x000000000001#48 ∧
        w &&& 0xFFFFFFFFFFFF#48 ≠ 0x000000000002#48) ∧
      ∀ w, (bench.setHost [.command w]).busy = false ∧ (bench.setHost [.command w]).host = [.command w] :=
  ⟨by decide, by decide, by decide, by simp, fun _ => ⟨rfl, rfl⟩⟩

/-- EncodedInstructionsDecodeBack: a helper, a command operation, a plain byte and a code byte. -/
theorem witness_encoded :
    (encode benchParams (.setgain 127#7 0x80000000#32)).isSome = true ∧
      expandHelper benchParams (.setgain 127#7 0x80000000#32) = some (0x10#5, 127#7, 1#32) ∧
      (encode benchParams (.send 31#5 127#7 0x80000000#32)).isSome = true ∧
      expandHelper benchParams (.send 31#5 127#7 0x80000000#32) = none ∧
      (encode benchParams (.parseCont 127#7)).isSome = true ∧ expandHelper benchParams (.parseCont 127#7) = none ∧
      (∀ d, Instr.parseCont 127#7 = .parseCont d → 2 ≠ 1) ∧
      (encode benchParams (.frame7 31#5)).isSome = true ∧ expandHelper benchParams (.frame7 31#5) = none := by
  refine ⟨by decide, by decide, by decide, by decide, by decide, by decide, fun _ _ => by decide, by decide, by decide⟩

/-- DecodedWordsEncodeBack. -/
theorem witness_decoded : decodeCmd 0xFFFFFFFFFFFF#48 = some (.reservedOp3 0x3FFFFFFFFFFF#46) := by decide

/-- AssemblerTakesExactlyFittingOperands: the last operands that fit and the first that do not. -/
theorem witness_assembler :
    (AsmLine.send 32 127 0).wf = false ∧ (AsmLine.send 31 127 (-2147483648)).wf = true ∧
      (AsmLine.moveabs 128 0).wf = false ∧ (AsmLine.setgain 127 2147483647).wf = true ∧
      (AsmLine.setgain 127 2147483648).wf = false ∧ (AsmLine.origin 127).wf = true ∧ (AsmLine.disable (-1)).wf = false ∧
      ¬ ((0 : Int) ≤ 32 ∧ (32 : Int) ≤ 31) ∧ ((0 : Int) ≤ 31 ∧ (31 : Int) ≤ 31) ∧ ¬ ((0 : Int) ≤ 128 ∧ (128 : Int) ≤ 127) ∧
      ((0 : Int) ≤ 127 ∧ (127 : Int) ≤ 127) ∧ ¬ ((2147483648 : Int) ≤ 2147483647) ∧
      ((-2147483648 : Int) ≤ -2147483648 ∧ (-2147483648 : Int) ≤ 2147483647) := by decide

/-- StepRunsTheDecodedInstruction, its four clauses. -/
theorem witness_stepRuns :
    ((bench.setHost [.command 2#48]).host = [.command 2#48] ∧ (bench.setHost [.command 2#48]).busy = false ∧
        decodeCmd 2#48 = some .pump) ∧
      ((bench.setBusy true).host = [] ∧ (bench.setBusy true).busy = true) ∧
      (((bench.setBusy true).setHost [.idle]).host = [.idle] ∧ ((bench.setBusy true).setHost [.idle]).busy = true) ∧
      (bench.setHost [.offer []]).host = [.offer []] := by
  decide

/-- The last byte of a frame in the ring, the rest of the frame in FRAME. -/
def lastByteWaits : State := (holding [0x00, 0xB0, 0x80, 0xC1] 5).setRing { buf := [(0, 0xF1)], head := 1, tail := 0 }

/-- PumpRunsEachByteAsItsInstruction, its three clauses; PumpWritesRingOnlyByItsDrain. -/
theorem witness_pumpRuns :
    (∃ d t, exec .drain lastByteWaits = .next d ∧ exec .pumpBody lastByteWaits = .next t) ∧
      (ringPop bench.ring).1 = none ∧
      ∃ r t, ringPop lastByteWaits.ring = (some 0xF1#8, r) ∧
        exec (decodeRx lastByteWaits.frame.count.val 0xF1#8) (lastByteWaits.setRing r) = .next t ∧ t.ret = .flag true := by
  refine ⟨?_, by decide, (ringPop lastByteWaits.ring).2, ?_⟩
  · obtain ⟨t, ht, _⟩ := after_next (o := exec .pumpBody lastByteWaits) (f := (·.busy)) (a := false) (by decide)
    exact ⟨_, t, rfl, ht⟩
  · obtain ⟨t, ht, hr⟩ := after_next
      (o := exec (decodeRx lastByteWaits.frame.count.val 0xF1#8) (lastByteWaits.setRing (ringPop lastByteWaits.ring).2))
      (f := (·.ret)) (a := .flag true) (by decide)
    exact ⟨t, by decide, ht, hr⟩

/-- PumpWritesRingOnlyByItsDrain, its clause about FRAME: no byte after the drain. -/
theorem witness_pumpWrites :
    ∃ d t, exec .drain bench = .next d ∧ exec .pumpBody bench = .next t ∧ ringBytes d.ring = [] := by
  obtain ⟨t, ht, _⟩ := after_next (o := exec .pumpBody bench) (f := (·.busy)) (a := false) (by decide)
  exact ⟨_, t, rfl, ht, by decide⟩

/-- ReservedOperationsAreRefused: op 3, and each field that must be 0; the first reserved port. -/
theorem witness_reserved :
    (∀ w ∈ [3#48, 0xFFFFFFFFFFFF#48], w &&& 3#48 = 3#48) ∧
      (0x4000#48 &&& 3#48 ≠ 3#48 ∧ 0x4000#48 &&& 0xC000#48 ≠ 0#48) ∧
      (0x10001#48 &&& 3#48 = 1#48 ∧ 0x10001#48 &&& 0xFFFFFFFF0000#48 ≠ 0#48) ∧
      (6#48 &&& 3#48 = 2#48 ∧ 6#48 ≠ 2#48) ∧
      (bench.setHost [.command 6#48]).busy = false ∧ (bench.setHost [.read 9]).host = [.read 9] :=
  ⟨by simp, by decide, by decide, by decide, rfl, rfl⟩

/-- A state in which every register of the read port is written. -/
def written : State := ((bench.setDecoded 65#32 0x10#5 .unsigned).setResult (some 65#32)).setOutcome .success

/-- ReadPortValues, its clauses; UnwrittenReadsFault and HostReadsChangeNothing. -/
theorem witness_reads :
    (∀ p ∈ List.range 9, (written.setHost [.read p]).host = [.read p]) ∧ written.result = some 65#32 ∧
      written.dval = some 65#32 ∧ written.dfc = some 0x10#5 ∧ written.dkind = some .unsigned ∧
      written.outcome = .success ∧ (∃ t, step (written.setHost [.read 4]) = .next t) ∧
      (bench.setHost [.read 1]).result = none ∧ (bench.setHost [.read 2]).dval = none ∧
      (bench.setHost [.read 3]).dfc = none ∧ (bench.setHost [.read 9]).host = [.read 9] ∧
      Inv (heldState.setHost [.read 0]) ∧ (heldState.setHost [.read 0]).busy = true := by
  refine ⟨by decide, rfl, rfl, rfl, rfl, rfl, ⟨_, rfl⟩, rfl, rfl, rfl, rfl,
    bench_inv_with rfl rfl rfl rfl ⟨rfl, rfl, rfl⟩ rfl (by decide), rfl⟩

/-- SendTransmitsAndChangesNothingElse, QueryIssueSendsFourBytes, HelpersTransmitOneFrame. -/
theorem witness_ready : bench.busy = false ∧ (bench.setBusy true).busy = true := by decide

/-- EncodeLengthIsMinimal: the ends of the range, where the shorter lengths are 1 to 3. -/
theorem witness_encodeLength :
    -134217728 ≤ (0xF8000000#32).toInt ∧ (0xF8000000#32).toInt ≤ 134217727 ∧ encodeLen 0xF8000000#32 = 4 ∧
      -134217728 ≤ (0x07FFFFFF#32).toInt ∧ (0x07FFFFFF#32).toInt ≤ 134217727 ∧ encodeLen 0x07FFFFFF#32 = 4 := by decide

/-- CodecRoundTrip: FRAME holds the frames of −2^27, 2^27 − 1 and 0. -/
theorem witness_codec :
    frameHolds (holding (buildFrame 0x05#5 1#7 0xF8000000#32) 7).frame (buildFrame 0x05#5 1#7 0xF8000000#32) ∧
      frameHolds (holding (buildFrame 0x05#5 1#7 0x07FFFFFF#32) 7).frame (buildFrame 0x05#5 1#7 0x07FFFFFF#32) ∧
      frameHolds (holding (buildFrame 0x05#5 1#7 0#32) 4).frame (buildFrame 0x05#5 1#7 0#32) := by
  refine ⟨fun i b h => ?_, fun i b h => ?_, fun i b h => ?_⟩ <;>
    (have hi := (List.getElem?_eq_some_iff.1 h).1
     have hl : i < 7 := lt_of_lt_of_le hi (by decide)
     interval_cases i <;> first | (cases h; decide) | (exfalso; revert hi; decide))

/-- SingleBitErrorsAreDetectedUnlessFraming. -/
theorem witness_singleBit :
    ckVer [0x00, 0xB0, 0x80, 0xC1] 0xF1 = true ∧ (0 < 8 ∧ 7 < 8) ∧ 3 < [0x00#8, 0xB0, 0x80, 0xC1].length ∧
      [0xB0#8, 0x00, 0x80, 0xC1].Perm [0x00, 0xB0, 0x80, 0xC1] := by decide

/-- PushAndPopMoveOneByte: a full, a nearly full, an empty and a one-byte ring, at the wrap. -/
theorem witness_pushPop :
    ((ringOf [] 7 0).ring.head.val + 1) % 8 = (ringOf [] 7 0).ring.tail.val ∧
      ((ringOf [] 7 1).ring.head.val + 1) % 8 ≠ (ringOf [] 7 1).ring.tail.val ∧
      (ringOf [] 7 7).ring.head.val = (ringOf [] 7 7).ring.tail.val ∧
      (ringOf [] 0 7).ring.head.val ≠ (ringOf [] 0 7).ring.tail.val := by decide

/-- RingBufferHoldsSevenBytes; DrainKeepsWhatFits, at the slot no drain reaches. -/
theorem witness_ring :
    bench.ring.head = bench.ring.tail ∧ (List.replicate 8 0x80#8).length = 8 ∧
      min 7 (ringBytes bench.ring ++ (benchRx (List.replicate 8 0x80)).rx.headD []).length ≤ 7 := by decide

/-- TransportReadFaultsWhenEmpty. -/
theorem witness_transport : isByteAvailable [] = false ∧ isByteAvailable [0x80] = true := by decide

/-- ContinuationByteIsAppended and CodeByteFixesTheLength, each clause (the invariants: `witness_frameInv`). -/
theorem witness_continuation :
    bench.frame.count.val = 0 ∧ (holding [0x01] 0).frame.count.val = 1 ∧
      (2 ≤ (holding [0x01, 0x85] 4).frame.count.val ∧
        (holding [0x01, 0x85] 4).frame.count.val + 1 < (holding [0x01, 0x85] 4).frame.expected.val) ∧
      (holding [0x01, 0xE5, 0xC0, 0x80, 0x80] 7).frame.count.val + 1 <
        (holding [0x01, 0xE5, 0xC0, 0x80, 0x80] 7).frame.expected.val ∧
      (2 ≤ (holding [0x01, 0xE5, 0xC0, 0x80, 0x80, 0x80] 7).frame.count.val ∧
        (holding [0x01, 0xE5, 0xC0, 0x80, 0x80, 0x80] 7).frame.count.val + 1 =
          (holding [0x01, 0xE5, 0xC0, 0x80, 0x80, 0x80] 7).frame.expected.val) := by decide

/-- CompletionDecidesByTheChecksum: the shortest and the longest frame, unsigned and signed, and a bad checksum. -/
theorem witness_completion :
    (∀ f ∈ [(holding [0x00, 0x90, 0xC1, 0xD1] 4).frame, (holding [0x01, 0xE5, 0xC0, 0x80, 0x80, 0x80, 0xA6] 7).frame],
        2 ≤ f.count.val ∧ f.count = f.expected ∧
          ((frameBytes f (f.count.val - 1)).map BitVec.toNat).sum % 128 = (frameSlot f (f.count.val - 1)).toNat % 128) ∧
      kindOf benchParams 0x10#5 = .unsigned ∧ kindOf benchParams 0x05#5 = .signed ∧
      ((frameBytes (holding [0x00, 0x90, 0xC1, 0xD2] 4).frame 3).map BitVec.toNat).sum % 128 ≠
        (frameSlot (holding [0x00, 0x90, 0xC1, 0xD2] 4).frame 3).toNat % 128 := by decide

/-- StepsNotEnabledChangeNothing. -/
theorem witness_notEnabled :
    (holding [0x01] 0).frame.count.val < 2 ∧
      (holding [0x01, 0x85] 4).frame.count ≠ (holding [0x01, 0x85] 4).frame.expected ∧ bench.busy = false := by decide

/-- MalformedLengthAborts: a buffer one byte too small, and the real one. -/
theorem witness_malformed :
    (holding [0x01] 0).frame.count.val = 1 ∧ isStart 0xE5#8 = false ∧ 6 < 4 + lenCode 0xE5#8 ∧
      3 < 4 + lenCode 0x85#8 := by decide

/-- Built frames are well formed: the source's gain frame. -/
theorem witness_wellFormed : wellFormedFrame [0x00, 0xB0, 0x80, 0xC1, 0xF1] :=
  ⟨0x00, 0xB0, 0x80, [0xC1], 0xF1, by decide⟩

/-- ParserResynchronises: a start byte alone, and a longest frame that lacks its last byte. -/
theorem witness_truncated :
    truncatedFrame [0x05] ∧ truncatedFrame [0x01, 0xE5, 0xC0, 0x80, 0x80, 0x80] :=
  ⟨⟨0x05, [], rfl, by decide, by decide, fun _ _ h => by cases h⟩,
    ⟨0x01, [0xE5, 0xC0, 0x80, 0x80, 0x80], rfl, by decide, by decide, fun code more h => by cases h; decide⟩⟩

/-- PumpReceivesWhatSendTransmits: a signed and an unsigned code. -/
theorem witness_pumpReceives :
    (benchRx (buildFrame 0x05#5 1#7 0xF8000000#32)).busy = false ∧
      ringBytes (benchRx (buildFrame 0x05#5 1#7 0xF8000000#32)).ring = [] ∧
      (benchRx (buildFrame 0x05#5 1#7 0xF8000000#32)).rx = [buildFrame 0x05#5 1#7 0xF8000000#32] ∧
      kindOf benchParams 0x05#5 = .signed ∧ kindOf benchParams 0x10#5 = .unsigned ∧ 0 ≤ (0x07FFFFFF#32).toInt ∧
      (0x07FFFFFF#32).toInt ≤ 134217727 := by decide

/-- A QUERY whose next wait step draws `l` after `n` pumps. -/
def pending (n : Nat) (l : List Byte) : State := ((benchRx l).setBusy true).setPumps n

/-- WaitStepEndsOnOutcomeOrBound: each outcome of the pump, at and before the bound. -/
theorem witness_wait :
    (∃ u, exec .pumpBody ((pending 2 [0x00, 0xB0, 0x80, 0xC1, 0xF1]).logSleep 5) = .next u ∧ u.outcome = .success) ∧
      (∃ u, exec .pumpBody ((pending 2 [0x00, 0xB0, 0x80, 0xC1, 0xF2]).logSleep 5) = .next u ∧
        u.outcome = .checksumError) ∧
      (∃ u, exec .pumpBody ((pending 2 []).logSleep 5) = .next u ∧ u.outcome = .inProgress) ∧
      (∃ u, exec .pumpBody (pending 0 []) = .next u ∧ u.outcome = .inProgress) ∧
      (pending 2 []).pumps + 1 = (pending 2 []).cfg.maxPumps ∧ (pending 0 []).pumps + 1 ≠ (pending 0 []).cfg.maxPumps ∧
      (pending 2 []).busy = true := by
  refine ⟨after_next (f := (·.outcome)) (by decide), after_next (f := (·.outcome)) (by decide),
    after_next (f := (·.outcome)) (by decide), after_next (f := (·.outcome)) (by decide), by decide, by decide, rfl⟩

/-- QueryFinishReturnsValueOrSentinel: an invariant state with outcome Success. -/
theorem witness_finish_success : Inv written ∧ written.outcome = .success where
  left :=
    { params := by decide
      ring := witness_inv_ready.ring
      frame := witness_inv_ready.frame
      success := fun _ h => nomatch h
      decoded := .inr ⟨_, _, rfl, rfl, rfl, by show (65#32).toNat < 268435456; decide⟩
      result := fun v hv => by cases hv; exact .inr ⟨.unsigned, by show (65#32).toNat < 268435456; decide⟩
      pending := fun h => nomatch h
      bounded := Nat.zero_le 3 }
  right := rfl

/-- QueryFinishReturnsValueOrSentinel: the ends of the two ranges. -/
theorem witness_finish :
    (bench.setOutcome .success).outcome = .success ∧ (bench.setOutcome .timeoutError).outcome ≠ .success ∧
      decodedInRange .signed 0xF8000000#32 ∧ decodedInRange .unsigned 0x0FFFFFFF#32 := by
  refine ⟨rfl, by decide, ⟨by decide, by decide⟩, ?_⟩
  show (0x0FFFFFFF#32).toNat < 268435456
  decide

/-- SilentTransportTimesOut, and QueryEndsWithinMaxPumps (its invariant: `witness_inv_ready`). -/
theorem witness_silent :
    (bench.setRx [[], []]).cfg.wf ∧ (bench.setRx [[], []]).busy = false ∧ ringBytes (bench.setRx [[], []]).ring = [] ∧
      (∀ l ∈ (bench.setRx [[], []]).rx, l = []) ∧ bench.busy = false ∧ 0 < bench.cfg.maxPumps := by decide

/-- P7: a partial frame in FRAME, one more byte of it unread in RING, and its last byte and another offered. -/
def partlyHeld : State :=
  (((holding [0x00, 0xB0, 0x80] 5).setRing { buf := [(0, 0xC1)], head := 1, tail := 0 }).setRx [[0xF1, 0x02]]).setBusy true

/-- QueryTakesTheFirstFrame: a whole signed frame offered, and an unsigned one partly held. -/
theorem witness_firstFrame :
    ((pending 0 (buildFrame 0x05#5 1#7 7#32)).busy = true ∧
        (ringBytes (pending 0 (buildFrame 0x05#5 1#7 7#32)).ring ++
          (pending 0 (buildFrame 0x05#5 1#7 7#32)).rx.headD []).take 7 = buildFrame 0x05#5 1#7 7#32 ++ [] ∧
        kindOf benchParams 0x05#5 = .signed) ∧
      (partlyHeld.busy = true ∧ FrameInv partlyHeld.frame ∧
        frameBytes partlyHeld.frame partlyHeld.frame.count.val ++
          (ringBytes partlyHeld.ring ++ partlyHeld.rx.headD []).take 7 = buildFrame 0x10#5 0#7 65#32 ++ [0x02] ∧
        kindOf partlyHeld.cfg 0x10#5 = .unsigned ∧ 0 ≤ (65#32).toInt ∧ (65#32).toInt ≤ 134217727) := by
  refine ⟨by decide, rfl, frameInv_holding _ ?_ ?_ ?_ ?_ ?_ ?_, ?_, ?_, ?_, ?_⟩ <;> decide

/-- OnlyTheLastWaitStepTimesOut; OnlyQueryRaisesBusy, its falling clause. -/
theorem witness_timeout :
    ∃ t, exec .queryWait (pending 2 []) = .next t ∧ (t.outcome, t.busy) = (.timeoutError, false) ∧
      (pending 2 []).outcome ≠ .timeoutError ∧ (pending 2 []).busy = true := by
  obtain ⟨t, h1, h2⟩ := after_next (o := exec .queryWait (pending 2 [])) (f := fun t => (t.outcome, t.busy))
    (a := (.timeoutError, false)) (by decide)
  exact ⟨t, h1, h2, by decide, rfl⟩

/-- OnlyQueryRaisesBusy, its rising clause; OnlySendersTransmit; ConfigurationNeverChanges. -/
theorem witness_query_busy :
    ∃ t, exec (.query 0x10#5 0#7) bench = .next t ∧ bench.busy = false ∧ t.busy = true ∧ t.tx ≠ bench.tx := by
  exact ⟨_, rfl, rfl, rfl, by decide⟩

/-- SetterFramesGrowAbove63: the two sides of the bound. -/
theorem witness_setter : (63#32).toInt ≤ 63 ∧ 64 ≤ (64#32).toInt := by decide

/-- RestartKeepsTheTransport. -/
theorem witness_restart : (heldState.setHost [.restart]).host = [.restart] := rfl

/-- BootChecksTheConfiguration. -/
theorem witness_boot :
    ∃ s, boot true benchParams ((List.range 32).map fun F => (F, .signed)) true = some s :=
  Option.isSome_iff_exists.1 (by decide)

/-- EveryStepKeepsTheInvariant and DecodedValueFollowsTheReports: a step of an invariant state. -/
theorem witness_step : Inv heldState ∧ (∃ t, step heldState = .next t) ∧ ∀ rest, heldState.host ≠ .restart :: rest := by
  refine ⟨witness_inv_pending.1, ?_, fun rest h => by cases h⟩
  obtain ⟨t, h, _⟩ := after_next (o := step heldState) (f := (·.busy)) (a := false) (by decide)
  exact ⟨t, h⟩

/-- OnlyHostActionsStopARun: a fault and each refusal in an invariant state. -/
theorem witness_stops :
    (∀ l, Inv (bench.setHost l)) ∧ faultOf (step (bench.setHost [.read 1])) = some (.readUnwritten .result) ∧
      refusal (step (bench.setHost [.read 9])) = some (.reservedPort 9) ∧
      refusal (step (bench.setHost [.command 3#48])) = some (.reservedCommand 3#48) ∧
      refusal (step (bench.setHost [.command 6#48])) = some (.undecodedCommand 6#48) :=
  ⟨fun _ => bench_inv_with rfl rfl rfl rfl ⟨rfl, rfl, rfl⟩ rfl (Nat.succ_pos 2), by decide, by decide, by decide, by decide⟩

/-- StaleBytesCannotBeObserved: two rings that differ in a slot with no unread byte. -/
theorem witness_stale : SameButStale (ringOf [0x55] 1 1) (ringOf [0xAA] 1 1) ∧ ringOf [0x55] 1 1 ≠ ringOf [0xAA] 1 1 :=
  ⟨⟨⟨rfl, rfl, fun k hk => absurd hk (Nat.not_lt_zero k)⟩, ⟨rfl, rfl, fun _ _ => rfl⟩, rfl⟩, by decide⟩

end Sys2Proof.Tests
end

/-! The scope family: what boot decides (R146), and that nothing changes the configuration (R7, R34). -/

namespace Sys2Proof.Machine

/-! ## Boot -/

/-- R34: with a total table, the kind an instance gives a code is one the table lists for it. -/
theorem kindOf_withKinds_mem (c : Params) {table : List (Nat × Kind)} (ht : kindTableTotal table = true) (F : FnCode) :
    (F.toNat, kindOf (withKinds c table) F) ∈ table := by
  have hsome : (kindFrom table F.toNat).isSome = true :=
    List.all_eq_true.1 ht F.toNat (List.mem_range.2 F.isLt)
  obtain ⟨k, hk⟩ := Option.isSome_iff_exists.1 hsome
  rw [kindOf_withKinds, hk, Option.getD_some]
  exact mem_of_kindFrom hk

/-- R146: the four conditions under which boot gives an engine. -/
theorem boot_isSome_iff (port sink : Bool) (c : Params) (table : List (Nat × Kind)) :
    (boot port c table sink).isSome = true ↔
      port = true ∧ sink = true ∧ kindTableTotal table = true ∧ c.wf := by
  simp only [Option.isSome_iff_exists, boot_eq_some, exists_and_left, exists_eq, and_true]

/-- Settles O52: the conditions are `boot_isSome_iff`, and `boot_eq_some` says what the engine is. -/
theorem bootChecksTheConfiguration : Obligations.BootChecksTheConfiguration := by
  intro port sink c table
  constructor
  · rw [boot_isSome_iff, kindTableTotal_iff, and_comm (b := c.wf)]
  · intro s hs
    obtain ⟨-, -, htotal, -, rfl⟩ := boot_eq_some.1 hs
    exact ⟨rfl, ⟨_, rfl⟩, kindOf_withKinds_mem c htotal⟩

/-! ## What an instruction and a step can do -/

/-- Everything an instruction that answers can do from `s`, by the shared operation that gives its next state. -/
inductive ExecEffect (s : State) : Instr → State → Prop
  | send (F : FnCode) (A : Axis) (v : Word) : ExecEffect s (.send F A v) (sendStep F A v s)
  | helper {i : Instr} {F : FnCode} {A : Axis} {v : Word} (h : expandHelper s.cfg i = some (F, A, v)) :
      ExecEffect s i (sendStep F A v s)
  | buildAndSend (F : FnCode) (A : Axis) (v : Word) : ExecEffect s (.buildAndSend F A v) (buildAndSend F A v s)
  | query (F : FnCode) (A : Axis) : ExecEffect s (.query F A) (queryIssue F A s)
  | queryWait {t : State} (h : waitStep s = .next t) : ExecEffect s .queryWait t
  | queryFinish : ExecEffect s .queryFinish (queryFinish s)
  | pump {t : State} (hb : s.busy = false) (h : pumpBody s = .next t) : ExecEffect s .pump t
  | pumpHeld (hb : s.busy = true) : ExecEffect s .pump s
  | pumpBody {t : State} (h : pumpBody s = .next t) : ExecEffect s .pumpBody t
  | drain : ExecEffect s .drain (drainStep s)
  | parse {i : Instr} {b : Byte} {done : Bool} {u : State} (h : parseByte b s = .next (done, u)) :
      ExecEffect s i (u.setRet (.flag done))
  | complete (h : frameComplete s.frame = true) : ExecEffect s .complete (completeFrame s)
  | incomplete (h : frameComplete s.frame = false) : ExecEffect s .complete s
  | push (b : Byte) : ExecEffect s (.push b) ((s.setRing (ringPush s.ring b).2).setRet (.flag (ringPush s.ring b).1))
  | pop : ExecEffect s .pop ((s.setRing (ringPop s.ring).2).setRet (.popped (ringPop s.ring).1))
  | record {i : Instr} (x : Ret) : ExecEffect s i (s.setRet x)

/-- R91: PARSE_BYTE run on its own answers as PARSE_BYTE does, its result recorded. -/
theorem parseAlone_effect {b : Byte} {s t : State} (h : parseAlone b s = .next t) (i : Instr) : ExecEffect s i t := by
  unfold parseAlone at h
  cases hp : parseByte b s with
  | next p =>
    simp only [hp, Host.Outcome.next.injEq] at h
    exact h ▸ .parse hp
  | fault e => simp [hp] at h
  | refused e => simp [hp] at h

/-- R112: PUMP is held while busy, and is a pump otherwise. -/
theorem execPump_effect {s t : State} (h : execPump s = .next t) : ExecEffect s .pump t := by
  unfold execPump at h
  cases hb : s.busy with
  | true => rw [hb, if_pos rfl] at h; cases h; exact .pumpHeld hb
  | false => rw [hb, if_neg Bool.false_ne_true] at h; exact .pump hb h

/-- R96: COMPLETE has its effect on a complete frame only. -/
theorem execComplete_effect {s t : State} (h : execComplete s = .next t) : ExecEffect s .complete t := by
  unfold execComplete at h
  cases hc : frameComplete s.frame with
  | true => rw [hc, if_pos rfl] at h; cases h; exact .complete hc
  | false => rw [hc, if_neg Bool.false_ne_true] at h; cases h; exact .incomplete hc

/-- The inversion of `exec`. -/
theorem exec_effect {i : Instr} {s t : State} (h : exec i s = .next t) : ExecEffect s i t := by
  cases i with
  | send F A v => cases h; exact .send F A v
  | query F A => cases h; exact .query F A
  | pump => exact execPump_effect h
  | reservedOp3 rest => cases h
  | parseStart d => exact parseAlone_effect h _
  | parseCont d => exact parseAlone_effect h _
  | frame4 F => exact parseAlone_effect h _
  | frame5 F => exact parseAlone_effect h _
  | frame6 F => exact parseAlone_effect h _
  | frame7 F => exact parseAlone_effect h _
  | push b => cases h; exact .push b
  | pop => cases h; exact .pop
  | encode v => cases h; exact .record _
  | decodeS => cases h; exact .record _
  | decodeU => cases h; exact .record _
  | decode => cases h; exact .record _
  | ckgen body => cases h; exact .record _
  | ckver body ck => cases h; exact .record _
  | complete => exact execComplete_effect h
  | pumpBody => exact .pumpBody h
  | drain => cases h; exact .drain
  | buildAndSend F A v => cases h; exact .buildAndSend F A v
  | queryWait => exact .queryWait h
  | queryFinish => cases h; exact .queryFinish
  | statusDecode v => cases h; exact .record _
  | alarmClass alarm => cases h; exact .record _
  | moveabs A pos => cases h; exact .helper rfl
  | rotate A v => cases h; exact .helper rfl
  | origin A => cases h; exact .helper rfl
  | setgain A g => cases h; exact .helper rfl
  | setspeed A v => cases h; exact .helper rfl
  | setaccel A a => cases h; exact .helper rfl
  | enable A => cases h; exact .helper rfl
  | disable A => cases h; exact .helper rfl

/-- Everything a step that answers can do from `s`, by the host's next action. -/
inductive StepEffect (s : State) : State → Prop
  | restart {rest : List HostAction} (h : s.host = .restart :: rest) : StepEffect s (restartEngine (s.setHost rest))
  | read {p : Nat} {rest : List HostAction} (v : Word) (h : s.host = .read p :: rest) :
      StepEffect s ((s.setHost rest).logRead p v)
  | offer {l : List Byte} {rest : List HostAction} (h : s.host = .offer l :: rest) :
      StepEffect s ((s.setHost rest).offerRx l)
  | idle {rest : List HostAction} {t : State} (h : s.host = .idle :: rest)
      (he : engineStep (s.setHost rest) = .next t) : StepEffect s t
  | alone {t : State} (h : s.host = []) (he : engineStep s = .next t) : StepEffect s t
  | wait {w : Cmd} {rest : List HostAction} {t : State} (h : s.host = .command w :: rest) (hb : s.busy = true)
      (he : waitStep s = .next t) : StepEffect s t
  | accept {w : Cmd} {rest : List HostAction} {i : Instr} {t : State} (h : s.host = .command w :: rest)
      (hb : s.busy = false) (hd : decodeCmd w = some i) (he : exec i (s.setHost rest) = .next t) : StepEffect s t

/-- R31, R35: a host read that answers only records what it read. -/
theorem hostRead_next {p : Nat} {s t : State} (h : hostRead p s = .next t) : ∃ v, t = s.logRead p v := by
  rcases hostRead_cases p s with ⟨v, hv⟩ | ⟨-, -, reg, hf⟩ | ⟨-, hr⟩
  · rw [hv] at h; cases h; exact ⟨v, rfl⟩
  · rw [hf] at h; cases h
  · rw [hr] at h; cases h

/-- The inversion of `step`. -/
theorem step_effect {s t : State} (h : step s = .next t) : StepEffect s t := by
  cases ha : s.host with
  | nil => rw [step_nil ha] at h; exact .alone ha h
  | cons a rest =>
    cases a with
    | restart => rw [step_restart ha] at h; cases h; exact .restart ha
    | read p =>
      rw [step_read ha] at h
      obtain ⟨v, rfl⟩ := hostRead_next h
      exact .read v ha
    | offer l => rw [step_offer ha] at h; cases h; exact .offer ha
    | idle => rw [step_idle ha] at h; exact .idle ha h
    | command w =>
      cases hb : s.busy with
      | true => rw [step_held ha hb] at h; exact .wait ha hb h
      | false =>
        cases hd : decodeCmd w with
        | none => rw [step_undecoded ha hb hd] at h; cases h
        | some i => rw [step_accepts ha hb hd] at h; exact .accept ha hb hd h

/-! ## The configuration after each shared operation -/

theorem whenReady_cfg {s t : State} (h : t.cfg = s.cfg) : (whenReady s t).cfg = s.cfg := by
  rcases whenReady_cases s t with ⟨-, e⟩ | ⟨-, e⟩ <;> rw [e]
  exact h

@[simp] theorem buildAndSend_cfg (F : FnCode) (A : Axis) (v : Word) (s : State) :
    (buildAndSend F A v s).cfg = s.cfg := rfl

@[simp] theorem sendStep_cfg (F : FnCode) (A : Axis) (v : Word) (s : State) : (sendStep F A v s).cfg = s.cfg :=
  whenReady_cfg rfl

@[simp] theorem queryIssue_cfg (F : FnCode) (A : Axis) (s : State) : (queryIssue F A s).cfg = s.cfg :=
  whenReady_cfg rfl

@[simp] theorem queryFinish_cfg (s : State) : (queryFinish s).cfg = s.cfg := rfl

@[simp] theorem restartEngine_cfg (s : State) : (restartEngine s).cfg = s.cfg := rfl

@[simp] theorem drainStep_cfg (s : State) : (drainStep s).cfg = s.cfg := by rw [drainStep_eq]; rfl

@[simp] theorem afterPump_cfg (s : State) : (afterPump s).cfg = s.cfg := by
  rcases afterPump_cases s with ⟨-, -, e⟩ | ⟨-, -, e⟩ | ⟨-, e⟩ | ⟨-, -, e⟩ <;> rw [e] <;> rfl

theorem waitStep_cfg {s t : State} (h : waitStep s = .next t) : t.cfg = s.cfg := by
  rcases waitStep_cases h with ⟨-, rfl⟩ | ⟨-, u, -, -, hu, rfl⟩
  · rfl
  · rw [afterPump_cfg, State.setPumps_cfg, hu]

theorem engineStep_cfg {s t : State} (h : engineStep s = .next t) : t.cfg = s.cfg := by
  unfold engineStep at h
  split at h
  · exact waitStep_cfg h
  · cases h; rfl

theorem exec_cfg {i : Instr} {s t : State} (h : exec i s = .next t) : t.cfg = s.cfg := by
  cases exec_effect h with
  | send F A v => exact sendStep_cfg F A v s
  | helper => exact sendStep_cfg _ _ _ s
  | buildAndSend F A v => exact buildAndSend_cfg F A v s
  | query F A => exact queryIssue_cfg F A s
  | queryWait hw => exact waitStep_cfg hw
  | queryFinish => exact queryFinish_cfg s
  | pump _ hp => exact (pumpBody_rest hp).1.cfg
  | pumpHeld => rfl
  | pumpBody hp => exact (pumpBody_rest hp).1.cfg
  | drain => exact drainStep_cfg s
  | parse hp => exact (parseByte_rest hp).1.cfg
  | complete => exact (completeFrame_rest s).1.cfg
  | incomplete => rfl
  | push b => rfl
  | pop => rfl
  | record x => rfl

theorem step_cfg {s t : State} (h : step s = .next t) : t.cfg = s.cfg := by
  cases step_effect h with
  | restart => exact restartEngine_cfg _
  | read => rfl
  | offer => rfl
  | @idle rest _ _ he => exact (engineStep_cfg he).trans (State.setHost_cfg s rest)
  | alone _ he => exact engineStep_cfg he
  | wait _ _ he => exact waitStep_cfg he
  | @accept _ rest _ _ _ _ _ he => exact (exec_cfg he).trans (State.setHost_cfg s rest)

/-- Settles O59, from the inversions of `exec` and `step`. -/
theorem configurationNeverChanges : Obligations.ConfigurationNeverChanges :=
  ⟨fun _ _ _ => exec_cfg, fun _ _ => step_cfg⟩

end Sys2Proof.Machine

/-! The state family: the read port, the invariant of a run, what stops a run, and what moves the histories, the
Decoded Value and busy, and the step taken from states that differ in stale bytes. -/

namespace Sys2Proof.Machine

/-! ## The read port -/

/-- R31: what a port shows does not depend on the host's actions to come. -/
theorem readPort_setHost (s : State) (l : List HostAction) (p : Nat) : readPort (s.setHost l) p = readPort s p := rfl

/-- R113: the step of a host read that has a value records it. -/
theorem step_read_value {s : State} {p : Nat} {rest : List HostAction} {v : Word} (h : s.host = .read p :: rest)
    (hv : readPort s p = .next v) : step s = .next ((s.setHost rest).logRead p v) := by
  simp only [step_read h, hostRead, readPort_setHost, hv]

/-- R35: the step of a host read that faults. -/
theorem step_read_fault {s : State} {p : Nat} {rest : List HostAction} {e : Fault} (h : s.host = .read p :: rest)
    (he : readPort s p = .fault e) : step s = .fault e := by
  simp only [step_read h, hostRead, readPort_setHost, he]

theorem dfcWord_written {s : State} {F : FnCode} {k : Kind} (hF : s.dfc = some F) (hk : s.dkind = some k) :
    dfcWord s = some ((BitVec.ofBool (kindBit k) ++ F).setWidth 32) := by
  simp only [dfcWord, hF, hk]

theorem dfcWord_unwritten {s : State} (h : s.dfc = none ∨ s.dkind = none) : dfcWord s = none := by
  rcases h with h | h
  · cases hk : s.dkind <;> simp only [dfcWord, h, hk]
  · simp only [dfcWord, h]

/-- R31 port 3: the kind bit stands above the five bits of the function code. -/
theorem dfcWord_toNat (F : FnCode) (k : Kind) :
    ((BitVec.ofBool (kindBit k) ++ F).setWidth 32).toNat = F.toNat + (if k = .unsigned then 32 else 0) := by
  cases k <;> revert F <;> decide

/-- R62, R122: a status value is read from its bits 6:0 alone. -/
theorem statusOf_low (v : Word) : statusOf v = statusOf ((v.extractLsb' 0 7).setWidth 32) := by
  have hbit : ∀ i, i < 7 → ((v.extractLsb' 0 7).setWidth 32).getLsbD i = v.getLsbD i := by
    intro i hi
    simp [hi]; omega
  have halarm : ((v.extractLsb' 0 7).setWidth 32).extractLsb' 2 3 = v.extractLsb' 2 3 := by
    apply BitVec.eq_of_getLsbD_eq
    intro i hi
    simp only [BitVec.getLsbD_extractLsb', hbit (2 + i) (by omega)]
  simp only [statusOf, halarm, hbit 0 (by omega), hbit 1 (by omega), hbit 5 (by omega), hbit 6 (by omega)]

/-- R31 port 4, for the 128 status values. -/
theorem statusWord_toNat_low (b : BitVec 7) :
    (statusWord (statusOf (b.setWidth 32))).toNat = b.toNat +
      (if b.toNat / 4 % 8 = 0 then 0 else if b.toNat / 4 % 8 ≤ 3 then 128 else 256) := by
  revert b; decide

/-- R31 port 4: the seven status bits, and above them the class of the alarm code. -/
theorem statusWord_toNat (v : Word) :
    (statusWord (statusOf v)).toNat = v.toNat % 128 +
      (if v.toNat / 4 % 8 = 0 then 0 else if v.toNat / 4 % 8 ≤ 3 then 128 else 256) := by
  have hlow : (v.extractLsb' 0 7).toNat = v.toNat % 128 := by simp [BitVec.extractLsb'_toNat]
  have halarm : v.toNat % 128 / 4 % 8 = v.toNat / 4 % 8 := by omega
  rw [statusOf_low, statusWord_toNat_low, hlow, halarm]

/-- R19: the occupancy as a number. -/
theorem ringLevel_val (r : RingBuf) : (ringLevel r).val = (r.head.val + 8 - r.tail.val) % 8 := by
  simp only [ringLevel, Fin.sub_def]
  omega

/-- Settles O10: the value of each port, and `step_read_value` for the step. -/
theorem readPortValues : Obligations.ReadPortValues := by
  intro s rest
  refine ⟨fun h => ⟨_, step_read_value h rfl, ?_⟩, fun x h hx => step_read_value h ?_,
    fun x h hx => step_read_value h ?_, fun F k h hF hk => ⟨_, step_read_value h ?_, dfcWord_toNat F k⟩,
    fun x h hx => ⟨_, step_read_value h ?_, statusWord_toNat x⟩, fun h => step_read_value h ?_,
    fun h => ⟨_, step_read_value h rfl, BitVec.toNat_ofNat _ _⟩, fun h => ⟨_, step_read_value h rfl, ?_⟩,
    fun h => ⟨_, step_read_value h rfl, ?_⟩⟩
  · cases s.outcome <;> decide
  · simp only [readPort, hx, readReg]
  · simp only [readPort, hx, readReg]
  · simp only [readPort, dfcWord_written hF hk, readReg]
  · simp only [readPort, hx, Option.map_some, readReg]
  · cases hb : s.busy <;> simp only [readPort, hb] <;> rfl
  · rw [BitVec.toNat_ofNat, ← ringLevel_val]; omega
  · rw [BitVec.toNat_ofNat]; omega

/-- Settles O11: an unwritten register has no value to show. -/
theorem unwrittenReadsFault : Obligations.UnwrittenReadsFault := by
  intro s rest
  refine ⟨fun h hx => step_read_fault h ?_, fun h hx => step_read_fault h ?_, fun h hx => step_read_fault h ?_,
    fun h hx => step_read_fault h ?_⟩
  · simp only [readPort, hx, readReg]
  · simp only [readPort, hx, readReg]
  · simp only [readPort, dfcWord_unwritten hx, readReg]
  · simp only [readPort, hx, Option.map_none, readReg]

/-! ## The transport -/

/-- Settles O30, by whether the transport has a byte. -/
theorem transportReadFaultsWhenEmpty : Obligations.TransportReadFaultsWhenEmpty := by
  intro l
  cases l with
  | nil => exact ⟨fun _ => rfl, fun h => absurd h (by decide)⟩
  | cons b rest => exact ⟨fun h => absurd h (by simp [isByteAvailable]), fun _ => ⟨b, rest, rfl, rfl⟩⟩

/-! ## The decoded range -/

/-- R79: a payload of up to four groups is a 28-bit signed value. -/
theorem decodeSigned_inRange (first : Byte) {rest : List Byte} (h : rest.length ≤ 3) :
    decodedInRange .signed (decodeSigned first rest) := by
  have h0 := sext7_toInt first
  rw [decodedInRange, decodeSigned_toInt first rest h]
  match rest, h with
  | [], _ => simp only [List.foldl]; omega
  | [a], _ => simp only [List.foldl]; omega
  | [a, b], _ => simp only [List.foldl]; omega
  | [a, b, c], _ => simp only [List.foldl]; omega

/-- R81: a payload of up to four groups is a 28-bit unsigned value. -/
theorem decodeUnsigned_inRange (first : Byte) {rest : List Byte} (h : rest.length ≤ 3) :
    decodedInRange .unsigned (decodeUnsigned first rest) := by
  rw [decodedInRange, decodeUnsigned_toNat first rest h]
  match rest, h with
  | [], _ => simp only [List.foldl]; omega
  | [a], _ => simp only [List.foldl]; omega
  | [a, b], _ => simp only [List.foldl]; omega
  | [a, b, c], _ => simp only [List.foldl]; omega

theorem framePayloadRest_length (f : FrameBuf) : (framePayloadRest f).length ≤ 3 := by
  rw [framePayloadRest, List.length_map, List.length_range]
  exact lenCode_le _

/-- R79, R81: what DECODE gives lies in the range of the frame's kind, whatever FRAME holds. -/
theorem frameValue_inRange (c : Params) (f : FrameBuf) : decodedInRange (frameKind c f) (frameValue c f) := by
  cases hk : frameKind c f with
  | signed =>
    simp only [frameValue, hk]
    exact decodeSigned_inRange _ (framePayloadRest_length f)
  | unsigned =>
    simp only [frameValue, hk]
    exact decodeUnsigned_inRange _ (framePayloadRest_length f)

/-! ## The invariant of a run -/

/-- R143: a new engine satisfies the invariant. -/
theorem resetWith_inv {c : Params} (hc : c.wf) : Inv (State.resetWith c) where
  params := hc
  ring := ⟨List.Pairwise.nil, by simp [State.resetWith], by simp [State.resetWith, ringLevel]⟩
  frame := idleFrame_inv (f := { buf := [], count := 0, expected := 0 }) List.Pairwise.nil (by simp)
  success := by simp [State.resetWith]
  decoded := .inl ⟨rfl, rfl, rfl⟩
  result := by simp [ResultInv, State.resetWith]
  pending := by simp [State.resetWith]
  bounded := Nat.zero_le _

/-- Settles O53: the parameters that reset takes satisfy R8. -/
theorem resetSatisfiesTheInvariant : Obligations.ResetSatisfiesTheInvariant :=
  resetWith_inv (Nat.le_add_left 1 _)

theorem sameEngine.refl (s : State) : sameEngine s s := ⟨rfl, rfl, rfl, rfl, rfl, rfl, rfl, rfl, rfl⟩

/-- The invariant speaks of the configuration and the engine's own fields only. -/
theorem Inv.of_sameEngine {s t : State} (h : Inv s) (hc : t.cfg = s.cfg) (he : sameEngine t s) : Inv t := by
  obtain ⟨hring, hframe, hout, hval, hfc, hkind, hbusy, hpumps, hres⟩ := he
  constructor
  · exact hc ▸ h.params
  · exact hring ▸ h.ring
  · exact hframe ▸ h.frame
  · rw [hout, hval]; exact h.success
  · rw [DecodedInv, hval, hfc, hkind, hc]; exact h.decoded
  · rw [ResultInv, hres]; exact h.result
  · rw [hbusy, hout, hpumps, hc]; exact h.pending
  · rw [hpumps, hc]; exact h.bounded

theorem setHost_inv {s : State} (h : Inv s) (l : List HostAction) : Inv (s.setHost l) :=
  h.of_sameEngine rfl (sameEngine.refl s)

/-- What a run keeps inside a wait step too, where a pending QUERY has its outcome and is not yet finished. -/
structure DataInv (s : State) : Prop where
  params : s.cfg.wf
  ring : RingInv s.ring
  frame : FrameInv s.frame
  success : s.outcome = .success → s.dval ≠ none
  decoded : DecodedInv s
  result : ResultInv s

theorem Inv.data {s : State} (h : Inv s) : DataInv s :=
  ⟨h.params, h.ring, h.frame, h.success, h.decoded, h.result⟩

theorem DataInv.inv {s : State} (h : DataInv s)
    (hp : s.busy = true → s.outcome = .inProgress ∧ s.pumps < s.cfg.maxPumps) (hb : s.pumps ≤ s.cfg.maxPumps) :
    Inv s :=
  ⟨h.params, h.ring, h.frame, h.success, h.decoded, h.result, hp, hb⟩

/-- R103, R79, R81: a pump keeps the data in form: a completion writes a Decoded Value of its code's kind, in range,
and any other pump leaves the Decoded Value. -/
theorem pumpBody_data {s t : State} (h : DataInv s) (hp : pumpBody s = .next t) : DataInv t := by
  obtain ⟨t', ht', hframe, hring⟩ := pumpBody_answers h.frame
  obtain rfl : t = t' := by rw [hp] at ht'; cases ht'; rfl
  have hrest := (pumpBody_rest hp).1
  have hparams : t.cfg.wf := hrest.cfg ▸ h.params
  have hresult : ResultInv t := by rw [ResultInv, hrest.result]; exact h.result
  have hkept (h1 : t.dval = s.dval) (h2 : t.dfc = s.dfc) (h3 : t.dkind = s.dkind) : DecodedInv t := by
    rw [DecodedInv, h1, h2, h3, hrest.cfg]; exact h.decoded
  rcases pumpBody_outcome hp with ⟨hout, h1, h2, h3, -⟩ | ⟨-, f, h1, h2, h3, -⟩ | ⟨hout, h1, h2, h3, -⟩
  · refine ⟨hparams, hring h.ring, hframe, ?_, hkept h1 h2 h3, hresult⟩
    rw [hout, h1]; exact h.success
  · refine ⟨hparams, hring h.ring, hframe, fun _ => by simp [h1], .inr ?_, hresult⟩
    exact ⟨_, _, h1, h2, hrest.cfg ▸ h3, hrest.cfg ▸ frameValue_inRange s.cfg f⟩
  · exact ⟨hparams, hring h.ring, hframe, by simp [hout], hkept h1 h2 h3, hresult⟩

/-- R110: the result a finished QUERY gets is the sentinel or the Decoded Value. -/
theorem DecodedInv.inRange {s : State} (h : DecodedInv s) {v : Word} (hv : s.dval = some v) :
    ∃ k, decodedInRange k v := by
  rcases h with ⟨hnone, -, -⟩ | ⟨w, F, hw, -, -, hr⟩
  · simp [hnone] at hv
  · obtain rfl : w = v := by rw [hw] at hv; exact Option.some.inj hv
    exact ⟨_, hr⟩

/-- R109, R110: what follows the pump of a wait step keeps the data in form. -/
theorem afterPump_data {s : State} (h : DataInv s) : DataInv (afterPump s) := by
  have hsentinel : ∀ v, some Config.sentinel = some v → v = Config.sentinel ∨ ∃ k, decodedInRange k v :=
    fun v hv => .inl (Option.some.inj hv).symm
  rcases afterPump_cases s with ⟨-, -, e⟩ | ⟨-, -, e⟩ | ⟨-, e⟩ | ⟨-, -, e⟩ <;> rw [e]
  · exact h
  · exact ⟨h.params, h.ring, h.frame, by simp, h.decoded, hsentinel⟩
  · exact ⟨h.params, h.ring, h.frame, h.success, h.decoded, fun v hv => .inr (h.decoded.inRange hv)⟩
  · exact ⟨h.params, h.ring, h.frame, h.success, h.decoded, hsentinel⟩

@[simp] theorem afterPump_pumps (s : State) : (afterPump s).pumps = s.pumps := by
  rcases afterPump_cases s with ⟨-, -, e⟩ | ⟨-, -, e⟩ | ⟨-, e⟩ | ⟨-, -, e⟩ <;> rw [e] <;> rfl

/-- R109, R113: a QUERY still pending after a wait step has seen no outcome and has not reached the bound. -/
theorem afterPump_pending {s : State} (h : (afterPump s).busy = true) :
    (afterPump s).outcome = .inProgress ∧ s.pumps ≠ s.cfg.maxPumps := by
  rcases afterPump_cases s with ⟨ho, hp, e⟩ | ⟨-, -, e⟩ | ⟨-, e⟩ | ⟨-, -, e⟩ <;> rw [e] at h ⊢
  · exact ⟨ho, hp⟩
  · simp at h
  · simp at h
  · simp at h

/-- R108: the sleep between pumps is no data. -/
theorem sleepBetween_data {s : State} (h : DataInv s) : DataInv (sleepBetween s) := by
  obtain ⟨l, hl⟩ := sleepBetween_rest s
  rw [hl]
  exact ⟨h.params, h.ring, h.frame, h.success, h.decoded, h.result⟩

theorem waitStep_inv {s t : State} (h : Inv s) (hw : waitStep s = .next t) : Inv t := by
  rcases waitStep_cases hw with ⟨-, rfl⟩ | ⟨hb, u, hu, hpumps, hcfg, rfl⟩
  · exact h
  · have hdata := pumpBody_data (sleepBetween_data h.data) hu
    have hroom : s.pumps < s.cfg.maxPumps := (h.pending hb).2
    have hcounted : DataInv (u.setPumps (s.pumps + 1)) :=
      ⟨hdata.params, hdata.ring, hdata.frame, hdata.success, hdata.decoded, hdata.result⟩
    refine (afterPump_data hcounted).inv (fun hbusy => ?_) ?_
    · obtain ⟨hout, hne⟩ := afterPump_pending hbusy
      rw [State.setPumps_pumps, State.setPumps_cfg, hcfg] at hne
      rw [afterPump_pumps, afterPump_cfg, State.setPumps_pumps, State.setPumps_cfg, hcfg]
      exact ⟨hout, by omega⟩
    · rw [afterPump_pumps, afterPump_cfg, State.setPumps_pumps, State.setPumps_cfg, hcfg]
      omega

theorem engineStep_inv {s t : State} (h : Inv s) (he : engineStep s = .next t) : Inv t := by
  unfold engineStep at he
  split at he
  · exact waitStep_inv h he
  · cases he; exact h

theorem sendStep_inv {s : State} (h : Inv s) (F : FnCode) (A : Axis) (v : Word) : Inv (sendStep F A v s) := by
  rcases whenReady_cases s (buildAndSend F A v s) with ⟨-, e⟩ | ⟨-, e⟩ <;> rw [sendStep, e]
  · exact h
  · exact h.of_sameEngine rfl (sameEngine.refl s)

/-- R107, R8: an accepted QUERY is pending with outcome InProgress and no pump counted. -/
theorem queryIssue_inv {s : State} (h : Inv s) (F : FnCode) (A : Axis) : Inv (queryIssue F A s) := by
  rcases whenReady_cases s (((buildAndSend F A 0#32 (s.setOutcome .inProgress)).setPumps 0).setBusy true) with
    ⟨-, e⟩ | ⟨-, e⟩ <;> rw [queryIssue, e]
  · exact h
  · exact ⟨h.params, h.ring, h.frame, by simp [buildAndSend], h.decoded, h.result, fun _ => ⟨rfl, h.params⟩,
      Nat.zero_le _⟩

/-- R112: a pump of a ready engine; nothing is pending before or after it. -/
theorem pumpBody_inv {s t : State} (h : Inv s) (hb : s.busy = false) (hp : pumpBody s = .next t) : Inv t := by
  have hrest := (pumpBody_rest hp).1
  refine (pumpBody_data h.data hp).inv (fun hbusy => ?_) ?_
  · rw [hrest.busy, hb] at hbusy; cases hbusy
  · rw [hrest.pumps, hrest.cfg]; exact h.bounded

/-- R112: PUMP is held while busy, and is a pump otherwise. -/
theorem execPump_cases {s t : State} (h : execPump s = .next t) :
    (s.busy = true ∧ t = s) ∨ (s.busy = false ∧ pumpBody s = .next t) := by
  cases hb : s.busy with
  | true => rw [execPump, hb, if_pos rfl] at h; cases h; exact .inl ⟨rfl, rfl⟩
  | false => rw [execPump, hb, if_neg Bool.false_ne_true] at h; exact .inr ⟨rfl, h⟩

theorem execPump_inv {s t : State} (h : Inv s) (he : execPump s = .next t) : Inv t := by
  rcases execPump_cases he with ⟨-, rfl⟩ | ⟨hb, hp⟩
  · exact h
  · exact pumpBody_inv h hb hp

/-- R104: an accepted command keeps the invariant. -/
theorem accepted_inv {s t : State} {w : Cmd} {i : Instr} (h : Inv s) (hd : decodeCmd w = some i)
    (he : exec i s = .next t) : Inv t := by
  rcases decodeCmd_cases hd with ⟨rest, rfl⟩ | ⟨F, A, v, rfl⟩ | ⟨F, A, rfl⟩ | rfl
  · cases he
  · cases he; exact sendStep_inv h F A v
  · cases he; exact queryIssue_inv h F A
  · exact execPump_inv h he

/-- Settles O54, by the host's next action. -/
theorem everyStepKeepsTheInvariant : Obligations.EveryStepKeepsTheInvariant := by
  intro s t h hstep
  cases step_effect hstep with
  | restart => exact (resetWith_inv h.params).of_sameEngine rfl (sameEngine.refl (State.resetWith s.cfg))
  | read => exact h.of_sameEngine rfl (sameEngine.refl s)
  | offer => exact h.of_sameEngine rfl (sameEngine.refl s)
  | @idle rest _ _ he => exact engineStep_inv (setHost_inv h rest) he
  | alone _ he => exact engineStep_inv h he
  | wait _ _ he => exact waitStep_inv h he
  | @accept _ rest _ _ _ _ hd he => exact accepted_inv (setHost_inv h rest) hd he

/-! ## What stops a run -/

/-- R108, R142: under the parser's invariants the engine left to itself always answers. -/
theorem engineStep_answers {s : State} (hf : FrameInv s.frame) : ∃ t, engineStep s = .next t := by
  unfold engineStep
  split
  · exact waitStep_answers hf
  · exact ⟨s, rfl⟩

/-- R112: under the parser's invariants PUMP always answers. -/
theorem execPump_answers {s : State} (hf : FrameInv s.frame) : ∃ t, execPump s = .next t := by
  unfold execPump
  split
  · exact ⟨s, rfl⟩
  · obtain ⟨t, ht, -⟩ := pumpBody_answers hf
    exact ⟨t, ht⟩

/-- R64: a word that decodes to the reserved operation is its other bits over op = 3. -/
theorem decodeCmd_reserved {w : Cmd} {rest : BitVec 46} (h : decodeCmd w = some (.reservedOp3 rest)) :
    rest ++ 3#2 = w := by
  simp only [decodeCmd] at h
  split_ifs at h with hop <;> simp only [Option.some.injEq, reduceCtorEq, Instr.reservedOp3.injEq] at h
  rw [← h, ← hop, cmdOp, BitVec.extractLsb'_append_extractLsb'_eq_extractLsb' (show 2 = 0 + 2 from rfl),
    BitVec.extractLsb'_eq_self]

/-- R130: an accepted command answers, or its word has op = 3 and is refused with its mark. -/
theorem accepted_answers {s : State} {w : Cmd} {i : Instr} (hf : FrameInv s.frame) (hd : decodeCmd w = some i) :
    (∃ t, exec i s = .next t) ∨ exec i s = .refused (.reservedCommand w) := by
  rcases decodeCmd_cases hd with ⟨rest, rfl⟩ | ⟨F, A, v, rfl⟩ | ⟨F, A, rfl⟩ | rfl
  · exact .inr (by rw [← decodeCmd_reserved hd]; rfl)
  · exact .inl ⟨_, rfl⟩
  · exact .inl ⟨_, rfl⟩
  · exact .inl (execPump_answers hf)

/-- Everything a step can answer under the parser's invariants: a next state, or the fault or the refusal that an
action of the host brings. -/
theorem step_answers_or_stops {s : State} (hf : FrameInv s.frame) :
    (∃ t, step s = .next t) ∨
      (∃ p rest reg, s.host = .read p :: rest ∧ 1 ≤ p ∧ p ≤ 4 ∧ step s = .fault (.readUnwritten reg)) ∨
      (∃ p rest, s.host = .read p :: rest ∧ 9 ≤ p ∧ step s = .refused (.reservedPort p)) ∨
      (∃ w rest r, s.host = .command w :: rest ∧ s.busy = false ∧
        (r = .reservedCommand w ∨ r = .undecodedCommand w) ∧ step s = .refused r) := by
  cases ha : s.host with
  | nil => rw [step_nil ha]; exact .inl (engineStep_answers hf)
  | cons a rest =>
    cases a with
    | restart => exact .inl ⟨_, step_restart ha⟩
    | offer l => exact .inl ⟨_, step_offer ha⟩
    | idle => rw [step_idle ha]; exact .inl (engineStep_answers hf)
    | read p =>
      rw [step_read ha]
      rcases hostRead_cases p (s.setHost rest) with ⟨v, hv⟩ | ⟨h1, h4, reg, hv⟩ | ⟨h9, hv⟩
      · exact .inl ⟨_, hv⟩
      · exact .inr (.inl ⟨p, rest, reg, rfl, h1, h4, hv⟩)
      · exact .inr (.inr (.inl ⟨p, rest, rfl, h9, hv⟩))
    | command w =>
      cases hb : s.busy with
      | true => rw [step_held ha hb]; exact .inl (waitStep_answers hf)
      | false =>
        cases hd : decodeCmd w with
        | none => exact .inr (.inr (.inr ⟨w, rest, _, rfl, rfl, .inr rfl, step_undecoded ha hb hd⟩))
        | some i =>
          rw [step_accepts ha hb hd]
          rcases accepted_answers (s := s.setHost rest) hf hd with ht | hr
          · exact .inl ht
          · exact .inr (.inr (.inr ⟨w, rest, _, rfl, rfl, .inl rfl, hr⟩))

/-- Settles O55, from everything a step can answer. -/
theorem onlyHostActionsStopARun : Obligations.OnlyHostActionsStopARun := by
  intro s h
  rcases step_answers_or_stops h.frame with ⟨t, ht⟩ | ⟨p, rest, reg, hh, h1, h4, ht⟩ | ⟨p, rest, hh, h9, ht⟩ |
    ⟨w, rest, r, hh, hb, hr, ht⟩ <;> rw [ht]
  · exact ⟨nofun, nofun⟩
  · exact ⟨fun e he => ⟨p, rest, reg, hh, h1, h4, by cases he; rfl⟩, nofun⟩
  · exact ⟨nofun, fun r hr => .inl ⟨p, rest, hh, h9, by cases hr; rfl⟩⟩
  · exact ⟨nofun, fun r' hr' => .inr ⟨w, rest, hh, hb, by cases hr'; exact hr⟩⟩

/-! ## Reports and the Decoded Value -/

/-- R97, R98, R101: from `s` to `t` no report is appended, or one, and the Decoded Value changes only with a Value
report, to what it reports. -/
def FollowsReports (s t : State) : Prop :=
  (t.reports = s.reports ∧ t.dval = s.dval ∧ t.dfc = s.dfc ∧ t.dkind = s.dkind) ∨
    (t.reports = s.reports ++ [.checksumErr] ∧ t.outcome = .checksumError ∧ t.dval = s.dval ∧ t.dfc = s.dfc ∧
      t.dkind = s.dkind) ∨
    ∃ F v, t.reports = s.reports ++ [.value F (kindOf s.cfg F) v] ∧ t.outcome = .success ∧ t.dval = some v ∧
      t.dfc = some F ∧ t.dkind = some (kindOf s.cfg F)

theorem pumpBody_followsReports {s t : State} (h : pumpBody s = .next t) : FollowsReports s t := by
  rcases pumpBody_outcome h with ⟨-, hv, hF, hk, hr⟩ | ⟨ho, f, hv, hF, hk, hr⟩ | ⟨ho, hv, hF, hk, hr⟩
  · exact .inl ⟨hr, hv, hF, hk⟩
  · exact .inr (.inr ⟨frameFc f, _, hr, ho, hv, hF, hk⟩)
  · exact .inr (.inl ⟨hr, ho, hv, hF, hk⟩)

/-- R109, R110: what follows the pump of a wait step keeps an outcome that the pump has written, and appends no
report. -/
theorem afterPump_followsReports {s t : State} (h : FollowsReports s t) : FollowsReports s (afterPump t) := by
  rcases afterPump_cases t with ⟨-, -, e⟩ | ⟨ho, -, e⟩ | ⟨-, e⟩ | ⟨-, -, e⟩ <;> rw [e]
  · exact h
  · rcases h with h | ⟨-, ho', -⟩ | ⟨F, v, -, ho', -⟩
    · exact .inl h
    · rw [ho] at ho'; cases ho'
    · rw [ho] at ho'; cases ho'
  · exact h
  · exact h

theorem waitStep_followsReports {s t : State} (h : waitStep s = .next t) : FollowsReports s t := by
  rcases waitStep_cases h with ⟨-, rfl⟩ | ⟨-, u, hu, -, -, rfl⟩
  · exact .inl ⟨rfl, rfl, rfl, rfl⟩
  · obtain ⟨l, hl⟩ := sleepBetween_rest s
    rw [hl] at hu
    have hpump := pumpBody_followsReports hu
    exact afterPump_followsReports (s := s) (t := u.setPumps (s.pumps + 1)) hpump

theorem engineStep_followsReports {s t : State} (h : engineStep s = .next t) : FollowsReports s t := by
  unfold engineStep at h
  split at h
  · exact waitStep_followsReports h
  · cases h; exact .inl ⟨rfl, rfl, rfl, rfl⟩

theorem whenReady_followsReports {s t : State} (h : FollowsReports s t) : FollowsReports s (whenReady s t) := by
  rcases whenReady_cases s t with ⟨-, e⟩ | ⟨-, e⟩ <;> rw [e]
  · exact .inl ⟨rfl, rfl, rfl, rfl⟩
  · exact h

theorem accepted_followsReports {s t : State} {w : Cmd} {i : Instr} (hd : decodeCmd w = some i)
    (h : exec i s = .next t) : FollowsReports s t := by
  rcases decodeCmd_cases hd with ⟨rest, rfl⟩ | ⟨F, A, v, rfl⟩ | ⟨F, A, rfl⟩ | rfl
  · cases h
  · cases h; exact whenReady_followsReports (.inl ⟨rfl, rfl, rfl, rfl⟩)
  · cases h; exact whenReady_followsReports (.inl ⟨rfl, rfl, rfl, rfl⟩)
  · rcases execPump_cases h with ⟨-, rfl⟩ | ⟨-, hp⟩
    · exact .inl ⟨rfl, rfl, rfl, rfl⟩
    · exact pumpBody_followsReports hp

/-- Settles O56, by the host's next action: only a pump completes a frame. -/
theorem decodedValueFollowsTheReports : Obligations.DecodedValueFollowsTheReports := by
  intro s t hno hstep
  show FollowsReports s t
  cases step_effect hstep with
  | restart hh => exact absurd hh (hno _)
  | read => exact .inl ⟨rfl, rfl, rfl, rfl⟩
  | offer => exact .inl ⟨rfl, rfl, rfl, rfl⟩
  | @idle rest _ _ he => exact engineStep_followsReports (s := s.setHost rest) he
  | alone _ he => exact engineStep_followsReports he
  | wait _ _ he => exact waitStep_followsReports he
  | @accept _ rest _ _ _ _ hd he => exact accepted_followsReports (s := s.setHost rest) hd he

/-! ## What transmits -/

theorem sendStep_tx (F : FnCode) (A : Axis) (v : Word) (s : State) :
    (sendStep F A v s).tx = s.tx ∨ (sendStep F A v s).tx = s.tx ++ buildFrame F A v := by
  rcases whenReady_cases s (buildAndSend F A v s) with ⟨-, e⟩ | ⟨-, e⟩ <;> rw [sendStep, e]
  · exact .inl rfl
  · exact .inr rfl

theorem queryIssue_tx (F : FnCode) (A : Axis) (s : State) :
    (queryIssue F A s).tx = s.tx ∨ (queryIssue F A s).tx = s.tx ++ buildFrame F A 0#32 := by
  rcases whenReady_cases s (((buildAndSend F A 0#32 (s.setOutcome .inProgress)).setPumps 0).setBusy true) with
    ⟨-, e⟩ | ⟨-, e⟩ <;> rw [queryIssue, e]
  · exact .inl rfl
  · exact .inr rfl

@[simp] theorem afterPump_tx (s : State) : (afterPump s).tx = s.tx := by
  rcases afterPump_cases s with ⟨-, -, e⟩ | ⟨-, -, e⟩ | ⟨-, e⟩ | ⟨-, -, e⟩ <;> rw [e] <;> rfl

theorem waitStep_tx {s t : State} (h : waitStep s = .next t) : t.tx = s.tx := by
  rcases waitStep_cases h with ⟨-, rfl⟩ | ⟨-, u, hu, -, -, rfl⟩
  · rfl
  · obtain ⟨l, hl⟩ := sleepBetween_rest s
    rw [afterPump_tx, State.setPumps_tx, (pumpBody_rest hu).1.tx, hl]

@[simp] theorem drainStep_tx (s : State) : (drainStep s).tx = s.tx := by rw [drainStep_eq]; rfl

/-- Settles O57, by what the instruction does. -/
theorem onlySendersTransmit : Obligations.OnlySendersTransmit := by
  intro i s t h
  cases exec_effect h with
  | send F A v => exact (sendStep_tx F A v s).imp_right fun e => ⟨F, A, v, e, .inl rfl⟩
  | @helper _ F A v hx => exact (sendStep_tx F A v s).imp_right fun e => ⟨F, A, v, e, .inr (.inr (.inr hx))⟩
  | buildAndSend F A v => exact .inr ⟨F, A, v, rfl, .inr (.inl rfl)⟩
  | query F A => exact (queryIssue_tx F A s).imp_right fun e => ⟨F, A, 0#32, e, .inr (.inr (.inl ⟨rfl, rfl⟩))⟩
  | queryWait hw => exact .inl (waitStep_tx hw)
  | queryFinish => exact .inl rfl
  | pump _ hp => exact .inl (pumpBody_rest hp).1.tx
  | pumpHeld => exact .inl rfl
  | pumpBody hp => exact .inl (pumpBody_rest hp).1.tx
  | drain => exact .inl (drainStep_tx s)
  | parse hp => exact .inl (parseByte_rest hp).1.tx
  | complete => exact .inl (completeFrame_rest s).1.tx
  | incomplete => exact .inl rfl
  | push => exact .inl rfl
  | pop => exact .inl rfl
  | record => exact .inl rfl

/-! ## What moves busy -/

@[simp] theorem sendStep_busy (F : FnCode) (A : Axis) (v : Word) (s : State) : (sendStep F A v s).busy = s.busy := by
  rcases whenReady_cases s (buildAndSend F A v s) with ⟨-, e⟩ | ⟨-, e⟩ <;> rw [sendStep, e]
  rfl

theorem queryIssue_busy (F : FnCode) (A : Axis) (s : State) : (queryIssue F A s).busy = true := by
  rcases whenReady_cases s (((buildAndSend F A 0#32 (s.setOutcome .inProgress)).setPumps 0).setBusy true) with
    ⟨hb, e⟩ | ⟨-, e⟩ <;> rw [queryIssue, e]
  · exact hb
  · rfl

/-- R108: without a pending QUERY the wait step is not enabled. -/
theorem waitStep_ready {s t : State} (hb : s.busy = false) (h : waitStep s = .next t) : t = s := by
  rcases waitStep_cases h with ⟨-, e⟩ | ⟨hb', -⟩
  · exact e
  · rw [hb] at hb'; cases hb'

@[simp] theorem drainStep_busy (s : State) : (drainStep s).busy = s.busy := by rw [drainStep_eq]; rfl

/-- R26: every other instruction leaves busy as it is. -/
theorem exec_busy {i : Instr} {s t : State} (h : exec i s = .next t) :
    (∃ F A, i = .query F A) ∨ i = .queryWait ∨ i = .queryFinish ∨ t.busy = s.busy := by
  cases exec_effect h with
  | send => exact .inr (.inr (.inr (sendStep_busy _ _ _ s)))
  | helper => exact .inr (.inr (.inr (sendStep_busy _ _ _ s)))
  | buildAndSend => exact .inr (.inr (.inr rfl))
  | query F A => exact .inl ⟨F, A, rfl⟩
  | queryWait => exact .inr (.inl rfl)
  | queryFinish => exact .inr (.inr (.inl rfl))
  | pump _ hp => exact .inr (.inr (.inr (pumpBody_rest hp).1.busy))
  | pumpHeld => exact .inr (.inr (.inr rfl))
  | pumpBody hp => exact .inr (.inr (.inr (pumpBody_rest hp).1.busy))
  | drain => exact .inr (.inr (.inr (drainStep_busy s)))
  | parse hp => exact .inr (.inr (.inr (parseByte_rest hp).1.busy))
  | complete => exact .inr (.inr (.inr (completeFrame_rest s).1.busy))
  | incomplete => exact .inr (.inr (.inr rfl))
  | push => exact .inr (.inr (.inr rfl))
  | pop => exact .inr (.inr (.inr rfl))
  | record => exact .inr (.inr (.inr rfl))

/-- Settles O58: the three operations that can move busy, and which way each does. -/
theorem onlyQueryRaisesBusy : Obligations.OnlyQueryRaisesBusy := by
  intro i s t h
  rcases exec_busy h with ⟨F, A, rfl⟩ | rfl | rfl | hbusy
  · cases h
    exact ⟨fun _ _ => ⟨F, A, rfl⟩, fun _ ht => by rw [queryIssue_busy] at ht; cases ht⟩
  · refine ⟨fun hs ht => ?_, fun _ _ => .inl rfl⟩
    rw [waitStep_ready hs h, hs] at ht; cases ht
  · refine ⟨fun _ ht => ?_, fun _ _ => .inr rfl⟩
    cases h; cases ht
  · rw [hbusy]
    exact ⟨fun hs ht => absurd (hs.symm.trans ht) Bool.false_ne_true,
      fun hs ht => absurd (ht.symm.trans hs) Bool.false_ne_true⟩

/-! ## Stale slots of RING -/

theorem sameRing.refl (r : RingBuf) : sameRing r r := ⟨rfl, rfl, fun _ _ => rfl⟩

theorem sameRing.ringLevel_eq {r q : RingBuf} (h : sameRing r q) : ringLevel r = ringLevel q := by
  simp only [ringLevel, h.1, h.2.1]

/-- R68: PUSH decides by the indices, and the slot it writes is unread and the same afterwards. -/
theorem sameRing.push {r q : RingBuf} (h : sameRing r q) (b : Byte) :
    sameRing (ringPush r b).2 (ringPush q b).2 := by
  obtain ⟨hhead, htail, hslot⟩ := h
  have hfull : ringFull q = ringFull r := by simp only [ringFull, hhead, htail]
  cases hf : ringFull r with
  | true =>
    simp only [ringPush, hfull, hf, if_true]
    exact ⟨hhead, htail, hslot⟩
  | false =>
    simp only [ringPush, hfull, hf, Bool.false_eq_true, if_false]
    refine ⟨by rw [hhead], htail, fun k hk => ?_⟩
    have hne : r.head + 1 ≠ r.tail := by simpa [ringFull] using hf
    simp only [ringLevel, ringLevel_succ_head hne] at hk
    simp only [← hhead]
    by_cases hnew : ringIndex r.tail k = r.head
    · rw [hnew, ringSlot_write_same, ringSlot_write_same]
    · rw [ringSlot_write_other _ _ _ _ hnew, ringSlot_write_other _ _ _ _ hnew]
      refine hslot k (Nat.lt_of_le_of_ne (Nat.lt_succ_iff.1 hk) fun e => hnew ?_)
      rw [e]; exact ringIndex_level

theorem sameRing.drain {r q : RingBuf} (h : sameRing r q) (l : List Byte) :
    sameRing (drainBytes l r) (drainBytes l q) := by
  induction l generalizing r q with
  | nil => exact h
  | cons b l ih => exact ih (h.push b)

/-- R70: POP returns an unread byte, which is the same, and leaves the others. -/
theorem sameRing.pop {r q : RingBuf} (h : sameRing r q) :
    (ringPop q).1 = (ringPop r).1 ∧ sameRing (ringPop r).2 (ringPop q).2 := by
  obtain ⟨hhead, htail, hslot⟩ := h
  rcases ringPop_cases r with ⟨-, he, hr⟩ | ⟨b, hne, hr, -⟩
  · have hq : ringPop q = (none, q) := by simp [ringPop, ringEmpty, ← hhead, ← htail, he]
    rw [hr, hq]
    exact ⟨rfl, hhead, htail, hslot⟩
  · have hlevel := ringLevel_succ_tail hne
    have hfirst : ringSlot r r.tail = ringSlot q r.tail := by
      have := hslot 0 (by simp only [ringLevel]; omega)
      rwa [ringIndex_zero] at this
    have hq : ringPop q = (some (ringSlot q q.tail), { q with tail := q.tail + 1 }) := by
      simp [ringPop, ringEmpty, ← hhead, ← htail, hne]
    have hr' : ringPop r = (some (ringSlot r r.tail), { r with tail := r.tail + 1 }) := by
      simp [ringPop, ringEmpty, hne]
    rw [hr', hq]
    refine ⟨by rw [← htail, hfirst], hhead, by rw [htail], fun k hk => ?_⟩
    simp only [ringLevel] at hk
    have := hslot (k + 1) (by simp only [ringLevel]; omega)
    rwa [← ringIndex_succ] at this

/-! ## Stale slots of FRAME -/

theorem sameFrame.refl (f : FrameBuf) : sameFrame f f := ⟨rfl, rfl, fun _ _ => rfl⟩

theorem sameFrame.idle (f g : FrameBuf) : sameFrame (idleFrame f) (idleFrame g) :=
  ⟨rfl, rfl, fun i hi => absurd hi (Nat.not_lt_zero i)⟩

theorem sameFrame.start {f g : FrameBuf} (h : sameFrame f g) (b : Byte) :
    sameFrame (startFrame b f) (startFrame b g) := by
  cases hb : isStart b with
  | true => rw [startFrame_of_start hb, startFrame_of_start hb]; exact sameFrame.idle f g
  | false => rw [startFrame_of_cont hb, startFrame_of_cont hb]; exact h

@[simp] theorem frameSlot_start (b : Byte) (f : FrameBuf) (i : Nat) :
    frameSlot (startFrame b f) i = frameSlot f i := by
  simp only [startFrame]; split <;> rfl

/-- R92 to R94: a byte is stored at the same index and fixes the same length. -/
theorem sameFrame.after {f g : FrameBuf} (h : sameFrame f g) {b : Byte} (hc : (startFrame b f).count.val < 7) :
    sameFrame (frameAfter b f) (frameAfter b g) := by
  obtain ⟨hcount, hexp, hslot⟩ := h.start b
  obtain ⟨hcf, -, hnewf, hotherf, hef⟩ := frameAfter_spec hc
  obtain ⟨hcg, -, hnewg, hotherg, heg⟩ := frameAfter_spec (b := b) (f := g) (hcount ▸ hc)
  rw [← hcount] at hcg hnewg hotherg heg
  rw [← hexp] at heg
  refine ⟨Fin.ext (hcf.trans hcg.symm), Fin.ext (hef.trans heg.symm), fun i hi => ?_⟩
  by_cases hnew : i = (startFrame b f).count.val
  · rw [hnew, hnewf, hnewg]
  · rw [hotherf i hnew, hotherg i hnew]
    have := hslot i (by omega)
    rwa [frameSlot_start, frameSlot_start] at this

theorem sameFrame.complete_eq {f g : FrameBuf} (h : sameFrame f g) : frameComplete g = frameComplete f := by
  simp only [frameComplete, h.1, h.2.1]

/-- R96: the checksum is of the bytes held. -/
theorem sameFrame.ok_eq {f g : FrameBuf} (h : sameFrame f g) (hpos : 1 ≤ f.count.val) : frameOk g = frameOk f := by
  obtain ⟨hcount, -, hslot⟩ := h
  have hheld : frameHeld g = frameHeld f := by
    simp only [frameHeld, ← hcount]
    refine List.map_congr_left fun i hi => (hslot i ?_).symm
    have := List.mem_range.1 hi
    omega
  rw [frameOk, frameOk, hheld, ← hcount, hslot _ (by omega)]

theorem sameFrame.fc_eq {f g : FrameBuf} (h : sameFrame f g) (h2 : 2 ≤ f.count.val) : frameFc g = frameFc f := by
  rw [frameFc, frameFc, h.2.2 1 (by omega)]

/-- R78, R80: the value of a whole frame is of the payload bytes held. -/
theorem sameFrame.value_eq {f g : FrameBuf} (h : sameFrame f g) (hlen : f.count.val = frameLength f) (c : Params) :
    frameValue c g = frameValue c f := by
  have hcount : f.count.val = 4 + lenCode (frameSlot f 1) := hlen
  have hslot := h.2.2
  have hrest : framePayloadRest g = framePayloadRest f := by
    simp only [framePayloadRest, ← hslot 1 (by omega)]
    refine List.map_congr_left fun k hk => (hslot (3 + k) ?_).symm
    have := List.mem_range.1 hk
    omega
  simp only [frameValue, frameKind, h.fc_eq (by omega), frameSigned, frameUnsigned, hrest, hslot 2 (by omega)]

/-! ## Stale slots of a state -/

/-- The form in which the proofs below take two such states apart: the second is the first with other spaces. -/
theorem SameButStale.exists_spaces {s t : State} (h : SameButStale s t) :
    ∃ q g, sameRing s.ring q ∧ sameFrame s.frame g ∧ t = (s.setRing q).setFrame g := by
  obtain ⟨hring, hframe, heq⟩ := h
  refine ⟨t.ring, t.frame, hring, hframe, ?_⟩
  rw [← heq]; rfl

theorem SameButStale.of_spaces {s : State} {q : RingBuf} {g : FrameBuf} (hq : sameRing s.ring q)
    (hg : sameFrame s.frame g) : SameButStale s ((s.setRing q).setFrame g) := ⟨hq, hg, rfl⟩

theorem SameButStale.refl (s : State) : SameButStale s s := ⟨sameRing.refl _, sameFrame.refl _, rfl⟩

/-- An update that neither reads nor writes the two spaces. -/
structure Blind (U : State → State) : Prop where
  comm : ∀ s q g, U ((s.setRing q).setFrame g) = ((U s).setRing q).setFrame g
  ring : ∀ s, (U s).ring = s.ring
  frame : ∀ s, (U s).frame = s.frame

theorem SameButStale.update {s t : State} (h : SameButStale s t) {U : State → State} (hU : Blind U) :
    SameButStale (U s) (U t) := by
  obtain ⟨q, g, hq, hg, rfl⟩ := h.exists_spaces
  rw [hU.comm]
  exact SameButStale.of_spaces (by rwa [hU.ring]) (by rwa [hU.frame])

theorem SameButStale.setRing {s t : State} (h : SameButStale s t) {r q : RingBuf} (hr : sameRing r q) :
    SameButStale (s.setRing r) (t.setRing q) := by
  obtain ⟨q', g, -, hg, rfl⟩ := h.exists_spaces
  exact SameButStale.of_spaces (s := s.setRing r) hr hg

theorem SameButStale.setFrame {s t : State} (h : SameButStale s t) {f g : FrameBuf} (hf : sameFrame f g) :
    SameButStale (s.setFrame f) (t.setFrame g) := by
  obtain ⟨q, g', hq, -, rfl⟩ := h.exists_spaces
  exact SameButStale.of_spaces (s := s.setFrame f) hq hf

/-- R97, R98: the completion of a whole frame is of the bytes held. -/
theorem SameButStale.complete {s t : State} (h : SameButStale s t) (hlen : s.frame.count.val = frameLength s.frame) :
    SameButStale (completeFrame s) (completeFrame t) := by
  obtain ⟨q, g, hq, hg, rfl⟩ := h.exists_spaces
  have h4 : 4 ≤ s.frame.count.val := by rw [hlen]; exact Nat.le_add_right 4 _
  have hfc := hg.fc_eq (by omega)
  simp only [completeFrame, State.setFrame_frame, hg.ok_eq (by omega), State.setFrame_cfg, State.setRing_cfg,
    hg.value_eq hlen, frameKind, hfc]
  split
  · exact SameButStale.of_spaces (s := State.setFrame _ (idleFrame s.frame)) hq (sameFrame.idle _ _)
  · exact SameButStale.of_spaces (s := State.setFrame _ (idleFrame s.frame)) hq (sameFrame.idle _ _)

/-- Two states with the parser's invariants that differ at most in stale slots. -/
structure StaleTwins (s t : State) : Prop where
  left : FrameInv s.frame
  right : FrameInv t.frame
  same : SameButStale s t

/-- R91: PARSE_BYTE does the same to such states. -/
theorem StaleTwins.parse {s t : State} (h : StaleTwins s t) (b : Byte) :
    ∃ done s' t', parseByte b s = .next (done, s') ∧ parseByte b t = .next (done, t') ∧ StaleTwins s' t' := by
  obtain ⟨done, s', hs, hs'⟩ := parseByte_answers h.left b
  obtain ⟨done', t', ht, ht'⟩ := parseByte_answers h.right b
  obtain ⟨-, hframe, -⟩ := h.same
  obtain ⟨-, -, hwhole, -⟩ := frameAfter_inv h.left b
  have hafter := hframe.after (startFrame_count_lt h.left b)
  have hset := h.same.setFrame hafter
  have hcomplete := hafter.complete_eq
  rcases parseByte_cases hs with ⟨rfl, hcs, rfl⟩ | ⟨rfl, hcs, rfl⟩ <;>
    rcases parseByte_cases ht with ⟨rfl, hct, rfl⟩ | ⟨rfl, hct, rfl⟩
  · exact ⟨_, _, _, hs, ht, hs', ht', hset⟩
  · rw [hcomplete, hcs] at hct; cases hct
  · rw [hcomplete, hcs] at hct; cases hct
  · exact ⟨_, _, _, hs, ht, hs', ht', hset.complete (hwhole hcs).2⟩

/-- Two outcomes of the engine's own steps: both have a next state, and the two differ at most in stale slots. -/
def TwinNext (o p : Host.Outcome State Fault Refusal) : Prop :=
  ∃ s t, o = .next s ∧ p = .next t ∧ SameButStale s t

theorem SameButStale.outcome_eq {s t : State} (h : SameButStale s t) : t.outcome = s.outcome := by
  obtain ⟨q, g, -, -, rfl⟩ := h.exists_spaces; rfl

/-- R100: the loop of a pump takes the same bytes from such states. -/
theorem StaleTwins.pumpLoop_next {s t : State} (h : StaleTwins s t) (n : Nat) :
    TwinNext (pumpLoop n s) (pumpLoop n t) := by
  induction n generalizing s t with
  | zero => exact ⟨s, t, rfl, rfl, h.same⟩
  | succ n ih =>
    obtain ⟨hunread, -, -⟩ := h.same
    obtain ⟨hpop, hring⟩ := hunread.pop
    cases hs : ringPop s.ring with
    | mk o r =>
      cases ht : ringPop t.ring with
      | mk o' q =>
        rw [hs, ht] at hpop hring
        obtain rfl : o' = o := hpop
        simp only [pumpLoop, hs, ht]
        cases o' with
        | none => exact ⟨s, t, rfl, rfl, h.same⟩
        | some b =>
          have htwins : StaleTwins (s.setRing r) (t.setRing q) := ⟨h.left, h.right, h.same.setRing hring⟩
          obtain ⟨done, s', t', hs', ht', hnext⟩ := htwins.parse b
          simp only [hs', ht', hnext.same.outcome_eq]
          split
          · exact ⟨s', t', rfl, rfl, hnext.same⟩
          · exact ih hnext

/-- R102: a drain pushes the same list into both rings. -/
theorem StaleTwins.drain {s t : State} (h : StaleTwins s t) : StaleTwins (drainStep s) (drainStep t) := by
  obtain ⟨hs, ht, hst⟩ := h
  rw [drainStep_eq, drainStep_eq]
  refine ⟨hs, ht, ?_⟩
  obtain ⟨q, g, hq, hg, rfl⟩ := hst.exists_spaces
  exact SameButStale.of_spaces (s := (s.setRx s.rx.tail).setRing _) (hq.drain _) hg

theorem StaleTwins.pumpBody_next {s t : State} (h : StaleTwins s t) : TwinNext (pumpBody s) (pumpBody t) :=
  h.drain.pumpLoop_next _

/-! ## The same step -/

theorem blind_setHost (l : List HostAction) : Blind (State.setHost · l) :=
  ⟨fun _ _ _ => rfl, fun _ => rfl, fun _ => rfl⟩

theorem blind_offerRx (l : List Byte) : Blind (State.offerRx · l) := ⟨fun _ _ _ => rfl, fun _ => rfl, fun _ => rfl⟩

theorem blind_logRead (p : Nat) (v : Word) : Blind (State.logRead · p v) :=
  ⟨fun _ _ _ => rfl, fun _ => rfl, fun _ => rfl⟩

theorem blind_id : Blind fun s => s := ⟨fun _ _ _ => rfl, fun _ => rfl, fun _ => rfl⟩

/-- A choice by what no slot of the two spaces decides. -/
theorem Blind.ite {p : State → Prop} [DecidablePred p] {U V : State → State}
    (hp : ∀ s q g, p ((s.setRing q).setFrame g) ↔ p s) (hU : Blind U) (hV : Blind V) :
    Blind fun s => if p s then U s else V s where
  comm s q g := by
    by_cases h : p s
    · rw [if_pos ((hp s q g).2 h), if_pos h, hU.comm]
    · rw [if_neg (mt (hp s q g).1 h), if_neg h, hV.comm]
  ring s := by split <;> [exact hU.ring s; exact hV.ring s]
  frame s := by split <;> [exact hU.frame s; exact hV.frame s]

/-- R104: an operation held while busy. -/
theorem blind_whenReady {U : State → State} (hU : Blind U) : Blind fun s => whenReady s (U s) :=
  Blind.ite (p := fun s => s.busy = true) (fun _ _ _ => Iff.rfl) blind_id hU

theorem blind_sendStep (F : FnCode) (A : Axis) (v : Word) : Blind (sendStep F A v) :=
  blind_whenReady (U := buildAndSend F A v) ⟨fun _ _ _ => rfl, fun _ => rfl, fun _ => rfl⟩

theorem blind_queryIssue (F : FnCode) (A : Axis) : Blind (queryIssue F A) :=
  blind_whenReady (U := fun s => ((buildAndSend F A 0#32 (s.setOutcome .inProgress)).setPumps 0).setBusy true)
    ⟨fun _ _ _ => rfl, fun _ => rfl, fun _ => rfl⟩

theorem blind_sleepBetween : Blind sleepBetween :=
  Blind.ite (p := fun s => 0 < s.pumps ∧ 0 < s.cfg.pumpSleepMs) (fun _ _ _ => Iff.rfl)
    (U := fun s => s.logSleep s.cfg.pumpSleepMs) ⟨fun _ _ _ => rfl, fun _ => rfl, fun _ => rfl⟩ blind_id

theorem blind_countPump : Blind fun s => s.setPumps (s.pumps + 1) :=
  ⟨fun _ _ _ => rfl, fun _ => rfl, fun _ => rfl⟩

/-- R109, R110: the finish and the timeout look at the outcome, the pump count and the bound. -/
theorem blind_afterPump : Blind afterPump :=
  Blind.ite (p := fun s => s.outcome ≠ .inProgress) (fun _ _ _ => Iff.rfl)
    (U := queryFinish) ⟨fun _ _ _ => rfl, fun _ => rfl, fun _ => rfl⟩
    (Blind.ite (p := fun s => s.pumps = s.cfg.maxPumps) (fun _ _ _ => Iff.rfl)
      (U := fun s => queryFinish (s.setOutcome .timeoutError)) ⟨fun _ _ _ => rfl, fun _ => rfl, fun _ => rfl⟩ blind_id)

theorem StaleTwins.update {s t : State} (h : StaleTwins s t) {U : State → State} (hU : Blind U) :
    StaleTwins (U s) (U t) :=
  ⟨by rw [hU.frame]; exact h.left, by rw [hU.frame]; exact h.right, h.same.update hU⟩

theorem SameButStale.busy_eq {s t : State} (h : SameButStale s t) : t.busy = s.busy := by
  obtain ⟨q, g, -, -, rfl⟩ := h.exists_spaces; rfl

theorem SameButStale.host_eq {s t : State} (h : SameButStale s t) : t.host = s.host := by
  obtain ⟨q, g, -, -, rfl⟩ := h.exists_spaces; rfl

theorem TwinNext.sameOutcome {o p : Host.Outcome State Fault Refusal} (h : TwinNext o p) : sameOutcome o p := by
  obtain ⟨s, t, rfl, rfl, hst⟩ := h
  exact hst

/-- R108: a wait step. -/
theorem StaleTwins.waitStep_next {s t : State} (h : StaleTwins s t) : TwinNext (waitStep s) (waitStep t) := by
  cases hb : s.busy with
  | false =>
    have hb' : t.busy = false := h.same.busy_eq.trans hb
    exact ⟨s, t, by simp [waitStep, hb], by simp [waitStep, hb'], h.same⟩
  | true =>
    have hb' : t.busy = true := h.same.busy_eq.trans hb
    obtain ⟨s', t', hs, ht, hst⟩ := (h.update blind_sleepBetween).pumpBody_next
    have hcounted := (hst.update blind_countPump).update blind_afterPump
    exact ⟨_, _, by simp only [waitStep, hb, if_true, hs], by simp only [waitStep, hb', if_true, ht],
      hcounted⟩

theorem StaleTwins.engineStep_next {s t : State} (h : StaleTwins s t) : TwinNext (engineStep s) (engineStep t) := by
  simp only [engineStep, h.same.busy_eq]
  split
  · exact h.waitStep_next
  · exact ⟨s, t, rfl, rfl, h.same⟩

theorem StaleTwins.execPump_next {s t : State} (h : StaleTwins s t) : TwinNext (execPump s) (execPump t) := by
  simp only [execPump, h.same.busy_eq]
  split
  · exact ⟨s, t, rfl, rfl, h.same⟩
  · exact h.pumpBody_next

/-- R31: no port shows a slot of the two spaces. -/
theorem SameButStale.readPort_eq {s t : State} (h : SameButStale s t) (p : Nat) : readPort t p = readPort s p := by
  obtain ⟨q, g, hq, hg, rfl⟩ := h.exists_spaces
  match p with
  | 0 | 1 | 2 | 3 | 4 | 5 | 6 => rfl
  | 7 => simp only [readPort, State.setFrame_ring, State.setRing_ring, hq.ringLevel_eq]
  | 8 => simp only [readPort, State.setFrame_frame, hg.1]
  | n + 9 => rfl

/-- R113: a host read shows the same of both states. -/
theorem SameButStale.hostRead_sameOutcome {s t : State} (h : SameButStale s t) (p : Nat) :
    sameOutcome (hostRead p s) (hostRead p t) := by
  simp only [hostRead, h.readPort_eq]
  cases readPort s p with
  | next v => exact h.update (blind_logRead p v)
  | fault e => rfl
  | refused e => rfl

/-- R143: a restart starts the same engine. -/
theorem SameButStale.restart_eq {s t : State} (h : SameButStale s t) : restartEngine t = restartEngine s := by
  obtain ⟨q, g, -, -, rfl⟩ := h.exists_spaces; rfl

/-- R104: an accepted command. -/
theorem StaleTwins.accepted_sameOutcome {s t : State} (h : StaleTwins s t) {w : Cmd} {i : Instr}
    (hd : decodeCmd w = some i) : sameOutcome (exec i s) (exec i t) := by
  rcases decodeCmd_cases hd with ⟨rest, rfl⟩ | ⟨F, A, v, rfl⟩ | ⟨F, A, rfl⟩ | rfl
  · rfl
  · exact h.same.update (blind_sendStep F A v)
  · exact h.same.update (blind_queryIssue F A)
  · exact h.execPump_next.sameOutcome

/-- Settles O60, by the host's next action. -/
theorem staleBytesCannotBeObserved : Obligations.StaleBytesCannotBeObserved := by
  intro s t hs ht hst
  have htwins : StaleTwins s t := ⟨hs, ht, hst⟩
  have hpast (rest : List HostAction) : StaleTwins (s.setHost rest) (t.setHost rest) :=
    htwins.update (blind_setHost rest)
  have hbusy := hst.busy_eq
  cases ha : s.host with
  | nil =>
    have hat : t.host = [] := hst.host_eq.trans ha
    rw [step_nil ha, step_nil hat]
    exact htwins.engineStep_next.sameOutcome
  | cons a rest =>
    have hat : t.host = a :: rest := hst.host_eq.trans ha
    cases a with
    | restart =>
      rw [step_restart ha, step_restart hat, (hpast rest).same.restart_eq]
      exact SameButStale.refl _
    | read p => rw [step_read ha, step_read hat]; exact (hpast rest).same.hostRead_sameOutcome p
    | offer l => rw [step_offer ha, step_offer hat]; exact (hpast rest).same.update (blind_offerRx l)
    | idle => rw [step_idle ha, step_idle hat]; exact (hpast rest).engineStep_next.sameOutcome
    | command w =>
      cases hb : s.busy with
      | true => rw [step_held ha hb, step_held hat (hbusy.trans hb)]; exact htwins.waitStep_next.sameOutcome
      | false =>
        cases hd : decodeCmd w with
        | none => rw [step_undecoded ha hb hd, step_undecoded hat (hbusy.trans hb) hd]; rfl
        | some i =>
          rw [step_accepts ha hb hd, step_accepts hat (hbusy.trans hb) hd]
          exact (hpast rest).accepted_sameOutcome hd

end Sys2Proof.Machine

/-! The memory family: what a pump writes in RING and in FRAME (R38, R100). -/

namespace Sys2Proof.Machine

/-! ## The memory frame of a pump -/

/-- R38, R100: the loop only pops RING, which moves the tail. -/
theorem pumpLoop_buf_head {n : Nat} {s t : State} (h : pumpLoop n s = .next t) :
    t.ring.buf = s.ring.buf ∧ t.ring.head = s.ring.head := by
  induction n generalizing s with
  | zero => cases h; exact ⟨rfl, rfl⟩
  | succ n ih =>
    rcases ringPop_cases s.ring with ⟨-, -, hp⟩ | ⟨b, -, hp, -⟩
    · simp only [pumpLoop, hp] at h
      cases h; exact ⟨rfl, rfl⟩
    · simp only [pumpLoop, hp] at h
      cases hpb : parseByte b (s.setRing { s.ring with tail := s.ring.tail + 1 }) with
      | fault e => simp [hpb] at h
      | refused e => simp [hpb] at h
      | next p =>
        obtain ⟨done, u⟩ := p
        obtain ⟨-, hring, -⟩ := parseByte_rest hpb
        simp only [hpb] at h
        split at h
        · cases h; simp [hring]
        · simpa [hring] using ih h

/-- R100: with no byte to take, the loop does nothing. -/
theorem pumpLoop_of_empty (n : Nat) {s : State} (h : ringBytes s.ring = []) : pumpLoop n s = .next s := by
  cases n with
  | zero => rfl
  | succ n =>
    rcases ringPop_cases s.ring with ⟨-, -, hp⟩ | ⟨b, -, -, hb⟩
    · simp only [pumpLoop, hp]
    · rw [h] at hb; cases hb

/-- R38: a drain does not write FRAME. -/
@[simp] theorem drainStep_frame (s : State) : (drainStep s).frame = s.frame := by rw [drainStep_eq]; rfl

/-- Settles O39: a pump is its loop run on what its drain leaves. -/
theorem pumpWritesRingOnlyByItsDrain : Obligations.PumpWritesRingOnlyByItsDrain := by
  intro s d t hd ht
  obtain rfl : drainStep s = d := Host.Outcome.next.inj hd
  have hloop : pumpLoop Config.ringCap (drainStep s) = .next t := ht
  obtain ⟨hbuf, hhead⟩ := pumpLoop_buf_head hloop
  refine ⟨hbuf, hhead, fun hempty => ?_⟩
  rw [pumpLoop_of_empty _ hempty] at hloop
  cases hloop
  exact drainStep_frame s

end Sys2Proof.Machine

/-! The encoding family: the command words and the received bytes against the instructions they carry, the
assembler, and the frames a command builds. -/

namespace Sys2Proof

open Sys2Proof.Machine

/-! ## The fields of a command word -/

section
variable (op : BitVec 2) (F : FnCode) (A : Axis) (v : Word)

@[simp] theorem cmdOp_packCmd : cmdOp (packCmd op F A v) = op := by
  apply BitVec.eq_of_toNat_eq
  have := op.isLt
  rw [cmdOp_toNat, packCmd_toNat]; omega

@[simp] theorem cmdFc_packCmd : cmdFc (packCmd op F A v) = F := by
  apply BitVec.eq_of_toNat_eq
  have := op.isLt
  have := F.isLt
  rw [cmdFc_toNat, packCmd_toNat]; omega

@[simp] theorem cmdAxis_packCmd : cmdAxis (packCmd op F A v) = A := by
  apply BitVec.eq_of_toNat_eq
  have := op.isLt
  have := F.isLt
  have := A.isLt
  rw [cmdAxis_toNat, packCmd_toNat]; omega

@[simp] theorem cmdRsv_packCmd : cmdRsv (packCmd op F A v) = 0#2 := by
  apply BitVec.eq_of_toNat_eq
  have := op.isLt
  have := F.isLt
  have := A.isLt
  rw [cmdRsv_toNat, packCmd_toNat, BitVec.toNat_ofNat]; omega

@[simp] theorem cmdValue_packCmd : cmdValue (packCmd op F A v) = v := by
  apply BitVec.eq_of_toNat_eq
  have := op.isLt
  have := F.isLt
  have := A.isLt
  rw [cmdValue_toNat, packCmd_toNat]; omega

end

/-- R63: a word with a clear reserved field is its four other fields at their places. -/
theorem packCmd_fields {w : Cmd} (hr : cmdRsv w = 0#2) :
    packCmd (cmdOp w) (cmdFc w) (cmdAxis w) (cmdValue w) = w := by
  apply BitVec.eq_of_toNat_eq
  have hr := congrArg BitVec.toNat hr
  rw [cmdRsv_toNat, BitVec.toNat_ofNat] at hr
  rw [packCmd_toNat, cmdOp_toNat, cmdFc_toNat, cmdAxis_toNat, cmdValue_toNat]; omega

/-! ## Decoding a command word -/

section
variable {w : Cmd}

theorem decodeCmd_of_send (ho : cmdOp w = 0#2) (hr : cmdRsv w = 0#2) :
    decodeCmd w = some (.send (cmdFc w) (cmdAxis w) (cmdValue w)) := by
  simp [decodeCmd, ho, hr]

theorem decodeCmd_of_query (ho : cmdOp w = 1#2) (hr : cmdRsv w = 0#2) (hv : cmdValue w = 0#32) :
    decodeCmd w = some (.query (cmdFc w) (cmdAxis w)) := by
  simp [decodeCmd, ho, hr, hv]

theorem decodeCmd_of_reservedOp3 (ho : cmdOp w = 3#2) :
    decodeCmd w = some (.reservedOp3 (w.extractLsb' 2 46)) := by
  simp [decodeCmd, ho]

end

@[simp] theorem decodeCmd_packCmd_send (F : FnCode) (A : Axis) (v : Word) :
    decodeCmd (packCmd 0#2 F A v) = some (.send F A v) := by
  rw [decodeCmd_of_send (cmdOp_packCmd ..) (cmdRsv_packCmd ..), cmdFc_packCmd, cmdAxis_packCmd, cmdValue_packCmd]

@[simp] theorem decodeCmd_packCmd_query (F : FnCode) (A : Axis) :
    decodeCmd (packCmd 1#2 F A 0#32) = some (.query F A) := by
  rw [decodeCmd_of_query (cmdOp_packCmd ..) (cmdRsv_packCmd ..) (cmdValue_packCmd ..), cmdFc_packCmd, cmdAxis_packCmd]

theorem decodeCmd_pump : decodeCmd 0x000000000002#48 = some .pump := by decide

@[simp] theorem decodeCmd_append_op3 (rest : BitVec 46) : decodeCmd (rest ++ 3#2) = some (.reservedOp3 rest) := by
  have ho : cmdOp (rest ++ 3#2) = 3#2 := BitVec.extractLsb'_append_eq_right
  rw [decodeCmd_of_reservedOp3 ho, BitVec.extractLsb'_append_eq_left]

/-- R63, R64: the decoder drops no bit of a command word. -/
theorem encode_of_decodeCmd (c : Params) {w : Cmd} {i : Instr} (h : decodeCmd w = some i) :
    encode c i = some (.cmd w) := by
  have hdec := h
  simp only [decodeCmd] at h
  split_ifs at h with h3 hr h0 hv h1 hp <;> cases h
  · rw [encode, decodeCmd_reserved hdec]
  all_goals
    have hw := packCmd_fields (not_not.1 hr)
  · rw [h0] at hw; rw [encode, hw]
  · rw [h1, not_not.1 hv] at hw; rw [encode, hw]
  · have h2 : cmdOp w = 2#2 := by bv_omega
    rw [h2, hp.1, hp.2, not_not.1 hv] at hw; rw [encode, hw]

/-- R63, R66: the command word of an instruction that is no helper decodes to it. -/
theorem decodeCmd_of_encode {c : Params} {w : Cmd} {i : Instr} (h : encode c i = some (.cmd w))
    (hx : expandHelper c i = none) : decodeCmd w = some i := by
  cases i with
  | send F A v => cases h; exact decodeCmd_packCmd_send F A v
  | query F A => cases h; exact decodeCmd_packCmd_query F A
  | pump => cases h; exact decodeCmd_pump
  | reservedOp3 rest => cases h; exact decodeCmd_append_op3 rest
  | moveabs | rotate | origin | setgain | setspeed | setaccel | enable | disable => cases hx
  | _ => cases h

/-- R66: the word of a helper is the SEND word of its expansion. -/
theorem encode_of_expandHelper {c : Params} {i : Instr} {x : FnCode × Axis × Word} (h : expandHelper c i = some x) :
    encode c i = some (.cmd (packCmd 0#2 x.1 x.2.1 x.2.2)) := by
  cases i with
  | moveabs | rotate | origin | setgain | setspeed | setaccel | enable | disable => cases h; rfl
  | _ => cases h

/-! ## Decoding a received byte -/

theorem decodeRx_startByte (n : Nat) (d : BitVec 7) : decodeRx n (startByte d) = .parseStart d := by
  rw [decodeRx, if_pos (isStart_startByte d), group_startByte]

theorem decodeRx_of_cont {n : Nat} {b : Byte} (hs : isStart b = false) (hn : n ≠ 1) :
    decodeRx n b = .parseCont (group b) := by
  rw [decodeRx, hs, if_neg Bool.false_ne_true, if_neg hn]

theorem decodeRx_of_code {b : Byte} (hs : isStart b = false) : decodeRx 1 b = decodeCode b := by
  rw [decodeRx, hs, if_neg Bool.false_ne_true, if_pos rfl]

section
variable {b : Byte}

theorem decodeCode_of_lenCode_zero (h : lenCode b = 0) : decodeCode b = .frame4 (codeFc b) := by
  simp only [decodeCode, h]

theorem decodeCode_of_lenCode_one (h : lenCode b = 1) : decodeCode b = .frame5 (codeFc b) := by
  simp only [decodeCode, h]

theorem decodeCode_of_lenCode_two (h : lenCode b = 2) : decodeCode b = .frame6 (codeFc b) := by
  simp only [decodeCode, h]

theorem decodeCode_of_lenCode_three (h : lenCode b = 3) : decodeCode b = .frame7 (codeFc b) := by
  simp only [decodeCode, h]

end

/-- R53, R94: at count 1 a code byte is the instruction of its length code. -/
theorem decodeRx_codeByte (F : FnCode) :
    decodeRx 1 (codeByte 0#2 F) = .frame4 F ∧ decodeRx 1 (codeByte 1#2 F) = .frame5 F ∧
      decodeRx 1 (codeByte 2#2 F) = .frame6 F ∧ decodeRx 1 (codeByte 3#2 F) = .frame7 F := by
  simp only [decodeRx_of_code (isStart_codeByte _ F), decodeCode_of_lenCode_zero (lenCode_codeByte 0#2 F),
    decodeCode_of_lenCode_one (lenCode_codeByte 1#2 F), decodeCode_of_lenCode_two (lenCode_codeByte 2#2 F),
    decodeCode_of_lenCode_three (lenCode_codeByte 3#2 F), codeFc_codeByte, and_self]

/-- R51, R53, R94: the byte of an instruction decodes to it, a code byte at count 1 and a plain continuation byte
at any other. -/
theorem decodeRx_of_encode {c : Params} {i : Instr} {b : Byte} {n : Nat} (h : encode c i = some (.rx b))
    (hcont : ∀ d, i = .parseCont d → n ≠ 1)
    (hcode : ∀ F, i = .frame4 F ∨ i = .frame5 F ∨ i = .frame6 F ∨ i = .frame7 F → n = 1) : decodeRx n b = i := by
  have hbyte := decodeRx_codeByte
  cases i with
  | parseStart d => cases h; exact decodeRx_startByte n d
  | parseCont d =>
    cases h
    rw [decodeRx_of_cont (isStart_contByte d) (hcont d rfl), group_contByte]
  | frame4 F => cases h; cases hcode F (by simp); exact (hbyte F).1
  | frame5 F => cases h; cases hcode F (by simp); exact (hbyte F).2.1
  | frame6 F => cases h; cases hcode F (by simp); exact (hbyte F).2.2.1
  | frame7 F => cases h; cases hcode F (by simp); exact (hbyte F).2.2.2
  | _ => cases h

/-- R94: encoding the code byte's instruction gives the byte back. -/
theorem encode_decodeCode (c : Params) {b : Byte} (hs : isStart b = false) : encode c (decodeCode b) = some (.rx b) := by
  obtain ⟨-, -, h0, h1, h2, h3⟩ := byte_parts b
  have hL : lenCode b = 0 ∨ lenCode b = 1 ∨ lenCode b = 2 ∨ lenCode b = 3 := by
    have := lenCode_le b; omega
  rcases hL with e | e | e | e
  · rw [decodeCode_of_lenCode_zero e, encode, h0 hs e]
  · rw [decodeCode_of_lenCode_one e, encode, h1 hs e]
  · rw [decodeCode_of_lenCode_two e, encode, h2 hs e]
  · rw [decodeCode_of_lenCode_three e, encode, h3 hs e]

/-- R51, R53: the decoder drops no bit of a received byte. -/
theorem encode_decodeRx (c : Params) (n : Nat) (b : Byte) : encode c (decodeRx n b) = some (.rx b) := by
  obtain ⟨hstart, hcont, -⟩ := byte_parts b
  cases hs : isStart b with
  | true => rw [decodeRx, if_pos hs, encode, hstart hs]
  | false =>
    by_cases hn : n = 1
    · rw [hn, decodeRx_of_code hs, encode_decodeCode c hs]
    · rw [decodeRx_of_cont hs hn, encode, hcont hs]

/-- Settles O2, by the kind of the word: a helper's is a SEND word, and any other is read by its own decoder. -/
theorem encodedInstructionsDecodeBack : Obligations.EncodedInstructionsDecodeBack := by
  intro c i e n he
  constructor
  · intro x hx
    rw [encode_of_expandHelper hx] at he
    cases he
    exact decodeCmd_packCmd_send x.1 x.2.1 x.2.2
  · intro hx hcont hcode
    cases e with
    | cmd w => exact decodeCmd_of_encode he hx
    | rx b => exact congrArg some (decodeRx_of_encode he hcont hcode)

/-- Settles O3, by the decoder of each kind of word. -/
theorem decodedWordsEncodeBack : Obligations.DecodedWordsEncodeBack :=
  fun c => ⟨fun _ _ => encode_of_decodeCmd c, encode_decodeRx c⟩

/-! ## The masks of the opcode table -/

section
variable {w m p : Cmd}

theorem cmdOp_of_mask (h : w &&& m = p) (hm : cmdOp m = BitVec.allOnes 2) : cmdOp w = cmdOp p := by
  rw [← h, cmdOp, cmdOp, BitVec.extractLsb'_and, ← cmdOp, ← cmdOp, hm, BitVec.and_allOnes]

theorem cmdRsv_of_mask (h : w &&& m = p) (hm : cmdRsv m = BitVec.allOnes 2) : cmdRsv w = cmdRsv p := by
  rw [← h, cmdRsv, cmdRsv, BitVec.extractLsb'_and, ← cmdRsv, ← cmdRsv, hm, BitVec.and_allOnes]

theorem cmdValue_of_mask (h : w &&& m = p) (hm : cmdValue m = BitVec.allOnes 32) : cmdValue w = cmdValue p := by
  rw [← h, cmdValue, cmdValue, BitVec.extractLsb'_and, ← cmdValue, ← cmdValue, hm, BitVec.and_allOnes]

end

/-- R64: a word that decodes carries the mask and the match of its instruction's row. -/
theorem fits_of_decodeCmd (c : Params) {w : Cmd} {i : Instr} (h : decodeCmd w = some i)
    (hrow : Laws.TableRow.Statement i) : (Encoded.cmd w).fits (tableRow i) = true :=
  hrow c _ (encode_of_decodeCmd c h)

/-- R64, R130: a word that agrees with no row is refused by a ready engine. -/
theorem step_refuses_of_no_row {w : Cmd} (hsend : w &&& 0x00000000C003#48 ≠ 0x000000000000#48)
    (hquery : w &&& 0xFFFFFFFFC003#48 ≠ 0x000000000001#48) (hpump : w &&& 0xFFFFFFFFFFFF#48 ≠ 0x000000000002#48)
    {s : State} {rest : List HostAction} (hb : s.busy = false) (hh : s.host = .command w :: rest) :
    ∃ r, step s = .refused r := by
  cases hd : decodeCmd w with
  | none => exact ⟨_, step_undecoded hh hb hd⟩
  | some i =>
    rcases decodeCmd_cases hd with ⟨x, rfl⟩ | ⟨F, A, v, rfl⟩ | ⟨F, A, rfl⟩ | rfl
    · exact ⟨_, step_accepts hh hb hd⟩
    · exact absurd (eq_of_beq (fits_of_decodeCmd s.cfg hd (Laws.TableRow.send F A v))) hsend
    · exact absurd (eq_of_beq (fits_of_decodeCmd s.cfg hd (Laws.TableRow.query F A))) hquery
    · exact absurd (eq_of_beq (fits_of_decodeCmd s.cfg hd Laws.TableRow.pump)) hpump

/-- Settles O1: a row's mask fixes the fields its operation does not use. -/
theorem commandWordsDecodeByTheTable : Obligations.CommandWordsDecodeByTheTable := by
  intro w
  refine ⟨fun h => ?_, fun h => ?_, fun h => ?_, fun hsend hquery hpump s rest hb hh => ?_⟩
  · exact decodeCmd_of_send (cmdOp_of_mask h rfl) (cmdRsv_of_mask h rfl)
  · exact decodeCmd_of_query (cmdOp_of_mask h rfl) (cmdRsv_of_mask h rfl) (cmdValue_of_mask h rfl)
  · obtain rfl : w = 0x000000000002#48 := BitVec.and_allOnes.symm.trans h
    exact decodeCmd_pump
  · exact step_refuses_of_no_row hsend hquery hpump hb hh

/-! ## Words written out, and the step -/

/-- Settles O4: the decoders run on each word. -/
theorem wordsWrittenOutDecode : Obligations.WordsWrittenOutDecode := by
  refine ⟨?_, ?_, ?_, ?_, ?_, ?_, ?_, ?_, ?_⟩ <;> decide

/-- R108: a pending QUERY left to itself runs its wait step. -/
theorem engineStep_pending {s : State} (hb : s.busy = true) : engineStep s = exec .queryWait s := if_pos hb

/-- Settles O6, by what the host's next action selects. -/
theorem stepRunsTheDecodedInstruction : Obligations.StepRunsTheDecodedInstruction := by
  intro s w rest i
  refine ⟨step_accepts, fun hh hb => ?_, fun hh hb => ?_, fun l => step_offer⟩
  · exact (step_nil hh).trans (engineStep_pending hb)
  · exact (step_idle hh).trans (engineStep_pending hb)

/-! ## The assembler -/

section
variable {c : Params} {l : AsmLine}

theorem assemble_of_not_wf (h : l.wf = false) : assemble c l = none := by simp [assemble, h]

theorem assemble_of_wf {i : Instr} {w : Cmd} (h : l.wf = true) (hi : lineInstr l = some i)
    (he : encode c i = some (.cmd w)) : assemble c l = some w := by
  simp [assemble, h, hi, he]

end

theorem fcFits_iff (x : Int) : fcFits x = true ↔ 0 ≤ x ∧ x ≤ 31 := decide_eq_true_iff

theorem axisFits_iff (x : Int) : axisFits x = true ↔ 0 ≤ x ∧ x ≤ 127 := decide_eq_true_iff

theorem valueFits_iff (x : Int) : valueFits x = true ↔ -2147483648 ≤ x ∧ x ≤ 2147483647 := decide_eq_true_iff

theorem send_wf_iff (fc axis value : Int) : (AsmLine.send fc axis value).wf = true ↔
    0 ≤ fc ∧ fc ≤ 31 ∧ 0 ≤ axis ∧ axis ≤ 127 ∧ -2147483648 ≤ value ∧ value ≤ 2147483647 := by
  simp only [AsmLine.wf, Bool.and_eq_true, fcFits_iff, axisFits_iff, valueFits_iff, and_assoc]

theorem query_wf_iff (fc axis : Int) : (AsmLine.query fc axis).wf = true ↔
    0 ≤ fc ∧ fc ≤ 31 ∧ 0 ≤ axis ∧ axis ≤ 127 := by
  simp only [AsmLine.wf, Bool.and_eq_true, fcFits_iff, axisFits_iff, and_assoc]

theorem axisFits_and_valueFits_iff (axis value : Int) : (axisFits axis && valueFits value) = true ↔
    0 ≤ axis ∧ axis ≤ 127 ∧ -2147483648 ≤ value ∧ value ≤ 2147483647 := by
  rw [Bool.and_eq_true, axisFits_iff, valueFits_iff, and_assoc]

/-- R67: a line without a value operand counts as one whose value is 0. -/
theorem axisFits_and_zero_iff (axis : Int) : axisFits axis = true ↔
    0 ≤ axis ∧ axis ≤ 127 ∧ -2147483648 ≤ (0 : Int) ∧ (0 : Int) ≤ 2147483647 := by
  rw [axisFits_iff]; omega

/-- R67: an operand that fits an unsigned field of `n` bits is what the field holds. -/
theorem ofInt_toNat {n : Nat} {x : Int} (h0 : 0 ≤ x) (h1 : x < 2 ^ n) : ((BitVec.ofInt n x).toNat : Int) = x := by
  have hmod : x % ((2 ^ n : Nat) : Int) = x := Int.emod_eq_of_lt h0 (by exact_mod_cast h1)
  rw [BitVec.toNat_ofInt, hmod, Int.toNat_of_nonneg h0]

theorem ofInt_axis {x : Int} (h0 : 0 ≤ x) (h1 : x ≤ 127) : ((BitVec.ofInt 7 x).toNat : Int) = x :=
  ofInt_toNat h0 (by omega)

theorem ofInt_value {x : Int} (h0 : -2147483648 ≤ x) (h1 : x ≤ 2147483647) : (BitVec.ofInt 32 x).toInt = x :=
  BitVec.toInt_ofInt_eq_self (by omega) (by omega) (by omega)

/-- R117: the setters' clamp as a number. -/
theorem clampSetter_toInt (x : Word) : (clampSetter x).toInt = max 1 (min 127 x.toInt) := by
  have h1 : (1#32).toInt = 1 := rfl
  have h127 : (127#32).toInt = 127 := rfl
  simp only [clampSetter, clamp, BitVec.slt_iff_toInt_lt, h1, h127]
  split_ifs <;> omega

theorem clampSetter_ofInt {x : Int} (h0 : -2147483648 ≤ x) (h1 : x ≤ 2147483647) :
    (clampSetter (BitVec.ofInt 32 x)).toInt = max 1 (min 127 x) := by
  rw [clampSetter_toInt, ofInt_value h0 h1]

/-- R66, R67: a helper line whose operands fit assembles to the SEND word of its expansion. -/
theorem assemblesToSend_of_expandHelper {c : Params} {l : AsmLine} {i : Instr} {axis value : Int} {F : FnCode}
    {v : Word} {payload : Word → Prop}
    (hwf : l.wf = true ↔ 0 ≤ axis ∧ axis ≤ 127 ∧ -2147483648 ≤ value ∧ value ≤ 2147483647)
    (hi : lineInstr l = some i) (hx : expandHelper c i = some (F, BitVec.ofInt 7 axis, v))
    (hp : -2147483648 ≤ value → value ≤ 2147483647 → payload v) : assemblesToSend c l axis value F payload := by
  unfold assemblesToSend
  split
  case isTrue hfit =>
    have hl : l.wf = true := hwf.2 hfit
    obtain ⟨ha0, ha1, hv0, hv1⟩ := hfit
    exact ⟨_, _, v, assemble_of_wf hl hi (encode_of_expandHelper hx), decodeCmd_packCmd_send _ _ v,
      ofInt_axis ha0 ha1, hp hv0 hv1⟩
  case isFalse hfit => exact assemble_of_not_wf (Bool.eq_false_iff.2 (hwf.not.2 hfit))

/-- R67: a SEND line gives a word exactly when its operands fit, and the word decodes to them. -/
theorem assemble_send {c : Params} {fc axis value : Int} (h : (AsmLine.send fc axis value).wf = true) :
    ∃ w F A v, assemble c (.send fc axis value) = some w ∧ decodeCmd w = some (.send F A v) ∧
      (F.toNat : Int) = fc ∧ (A.toNat : Int) = axis ∧ v.toInt = value := by
  obtain ⟨hf0, hf1, ha0, ha1, hv0, hv1⟩ := (send_wf_iff fc axis value).1 h
  exact ⟨_, _, _, _, assemble_of_wf h rfl rfl, decodeCmd_packCmd_send .., ofInt_toNat hf0 (by omega),
    ofInt_axis ha0 ha1, ofInt_value hv0 hv1⟩

theorem assemble_query {c : Params} {fc axis : Int} (h : (AsmLine.query fc axis).wf = true) :
    ∃ w F A, assemble c (.query fc axis) = some w ∧ decodeCmd w = some (.query F A) ∧
      (F.toNat : Int) = fc ∧ (A.toNat : Int) = axis := by
  obtain ⟨hf0, hf1, ha0, ha1⟩ := (query_wf_iff fc axis).1 h
  exact ⟨_, _, _, assemble_of_wf h rfl rfl, decodeCmd_packCmd_query .., ofInt_toNat hf0 (by omega), ofInt_axis ha0 ha1⟩

/-- Settles O5, by the line. -/
theorem assemblerTakesExactlyFittingOperands : Obligations.AssemblerTakesExactlyFittingOperands := by
  intro c
  refine ⟨fun l => assemble_of_not_wf, fun fc axis value => ⟨fun h => ?_, fun h => ?_⟩,
    fun fc axis => ⟨fun h => ?_, fun h => ?_⟩, ?_, fun bytes => rfl, fun axis x => ?_⟩
  · exact assemble_of_not_wf (Bool.eq_false_iff.2 ((send_wf_iff fc axis value).not.2 h))
  · exact assemble_send ((send_wf_iff fc axis value).2 h)
  · exact assemble_of_not_wf (Bool.eq_false_iff.2 ((query_wf_iff fc axis).not.2 h))
  · exact assemble_query ((query_wf_iff fc axis).2 h)
  · exact assemble_of_wf rfl rfl rfl
  · exact ⟨assemblesToSend_of_expandHelper (axisFits_and_valueFits_iff axis x) rfl rfl ofInt_value,
      assemblesToSend_of_expandHelper (axisFits_and_valueFits_iff axis x) rfl rfl ofInt_value,
      assemblesToSend_of_expandHelper (axisFits_and_zero_iff axis) rfl rfl fun _ _ => rfl,
      assemblesToSend_of_expandHelper (axisFits_and_valueFits_iff axis x) rfl rfl clampSetter_ofInt,
      assemblesToSend_of_expandHelper (axisFits_and_valueFits_iff axis x) rfl rfl clampSetter_ofInt,
      assemblesToSend_of_expandHelper (axisFits_and_valueFits_iff axis x) rfl rfl clampSetter_ofInt,
      assemblesToSend_of_expandHelper (axisFits_and_zero_iff axis) rfl rfl fun _ _ => rfl,
      assemblesToSend_of_expandHelper (axisFits_and_zero_iff axis) rfl rfl fun _ _ => rfl⟩

end Sys2Proof

namespace Sys2Proof.Machine

/-! ## The frame a command builds -/

/-- R75: the groups from the front, the most significant first. -/
theorem encodeValue_getElem? (v : Word) {k : Nat} (hk : k < encodeLen v) :
    (encodeValue v)[k]? = some (encodeGroup v (encodeLen v - 1 - k)) := by
  rw [encodeValue, List.getElem?_map, List.getElem?_reverse (by simpa using hk), List.length_range,
    List.getElem?_range (by omega), Option.map_some]

theorem frameBody_length (F : FnCode) (A : Axis) (v : Word) : (frameBody F A v).length = 2 + encodeLen v := by
  rw [frameBody, List.length_cons, List.length_cons, encodeValue_length]; omega

theorem lengthCode_toNat (v : Word) : (BitVec.ofNat 2 (encodeLen v - 1)).toNat = encodeLen v - 1 := by
  have := encodeLen_bounds v
  rw [BitVec.toNat_ofNat, Nat.mod_eq_of_lt (by omega)]

/-- Settles O13: byte by byte, the length code being one less than the number of groups. -/
theorem builtFramesHaveTheFrameLayout : Obligations.BuiltFramesHaveTheFrameLayout := by
  intro F A v
  obtain ⟨hlo, hhi⟩ := encodeLen_bounds v
  have hbody := frameBody_length F A v
  have hlen : (frameBody F A v).length = 3 + (encodeLen v - 1) := by omega
  refine ⟨encodeLen v - 1, by omega, ?_, rfl, ⟨_, rfl, ?_⟩, fun k hk => ?_, ckGen (frameBody F A v), ?_, ?_, ?_⟩
  · rw [buildFrame, List.length_append, List.length_singleton]; omega
  · rw [codeByte_toNat, lengthCode_toNat]
  · rw [buildFrame, List.getElem?_append_left (by omega), frameBody, Nat.add_comm 2 k, List.getElem?_cons_succ,
      List.getElem?_cons_succ, encodeValue_getElem? v (by omega), encodeGroup_eq v (by omega), contByte]
  · rw [buildFrame, ← hlen, List.getElem?_concat_length]
  · rw [ckGen_toNat]; omega
  · rw [buildFrame, ← hlen, List.take_left, ckGen_toNat]; omega

/-- R88: the checksum byte of a frame verifies. -/
theorem ckVer_ckGen (body : List Byte) : ckVer body (ckGen body) = true := by
  rw [ckVer_iff, ckGen_toNat]; omega

theorem isStart_ckGen (body : List Byte) : isStart (ckGen body) = false := by
  rw [isStart_eq_false, ckGen_toNat]; omega

/-- R74: a payload is a first group and one more for each unit of its length code. -/
theorem encodeValue_eq_cons (v : Word) : ∃ first rest, encodeValue v = first :: rest ∧ rest.length = encodeLen v - 1 := by
  obtain ⟨first, rest, he⟩ := List.exists_cons_of_length_pos (l := encodeValue v)
    (by rw [encodeValue_length]; exact (encodeLen_bounds v).1)
  refine ⟨first, rest, he, ?_⟩
  rw [← encodeValue_length, he, List.length_cons, Nat.add_sub_cancel]

/-- Settles O14, from the payload's groups and the generated checksum. -/
theorem builtFramesAreWellFormed : Obligations.BuiltFramesAreWellFormed := by
  intro F A v
  obtain ⟨first, rest, hpay, hrest⟩ := encodeValue_eq_cons v
  have hcont : ∀ b ∈ first :: rest, isStart b = false := fun b hb => isStart_of_mem_encodeValue (hpay ▸ hb)
  have hbody : frameBody F A v = startByte A :: codeByte (BitVec.ofNat 2 (encodeLen v - 1)) F :: first :: rest := by
    rw [frameBody, hpay]
  refine ⟨startByte A, codeByte (BitVec.ofNat 2 (encodeLen v - 1)) F, first, rest, ckGen (frameBody F A v), ?_, ?_,
    isStart_startByte A, isStart_codeByte _ F, hcont first (by simp), fun b hb => hcont b (by simp [hb]),
    isStart_ckGen _, ?_⟩
  · rw [buildFrame, hbody]; rfl
  · rw [lenCode_codeByte, lengthCode_toNat, hrest]
  · rw [← hbody]; exact ckVer_ckGen _

end Sys2Proof.Machine

/-! The ring buffer family: PUSH and POP on a full, an empty and any other ring (R68 to R71), the order of the bytes
(R72), how many fit (R73), and the slots a drain leaves alone (R102). -/

namespace Sys2Proof.Machine

/-! ## One call -/

section
variable {r : RingBuf}

theorem ringPush_of_full (b : Byte) (h : r.head + 1 = r.tail) : ringPush r b = (false, r) := by
  rw [ringPush, ringFull, beq_iff_eq.2 h, if_pos rfl]

theorem ringPush_of_not_full (b : Byte) (h : r.head + 1 ≠ r.tail) :
    ringPush r b = (true, { r with buf := Memory.write r.buf r.head.val b, head := r.head + 1 }) := by
  rw [ringPush, ringFull, beq_false_of_ne h, if_neg Bool.false_ne_true]

theorem ringPop_of_empty (h : r.head = r.tail) : ringPop r = (none, r) := by
  rw [ringPop, ringEmpty, beq_iff_eq.2 h, if_pos rfl]

theorem ringPop_of_not_empty (h : r.head ≠ r.tail) :
    ringPop r = (some (ringSlot r r.tail), { r with tail := r.tail + 1 }) := by
  rw [ringPop, ringEmpty, beq_false_of_ne h, if_neg Bool.false_ne_true]

end

theorem ringPush_tail (r : RingBuf) (b : Byte) : (ringPush r b).2.tail = r.tail := by
  rcases ringPush_cases r b with ⟨-, hp⟩ | ⟨-, -, -, ht, -⟩
  · rw [hp]
  · exact ht

/-- R68, R69: the slot at head is the only one PUSH can write. -/
theorem ringSlot_ringPush_other (r : RingBuf) (b : Byte) {i : Fin 8} (hi : i ≠ r.head) :
    ringSlot (ringPush r b).2 i = ringSlot r i := by
  by_cases hfull : r.head + 1 = r.tail
  · rw [ringPush_of_full b hfull]
  · rw [ringPush_of_not_full b hfull]
    exact ringSlot_write_other r b _ _ hi

theorem ringPush_accepts_iff (r : RingBuf) (b : Byte) : (ringPush r b).1 = true ↔ (ringBytes r).length ≤ 6 := by
  rcases ringPush_cases r b with ⟨h7, hp⟩ | ⟨h6, ht, -⟩
  · simp [hp, h7]
  · simp [ht, h6]

theorem ringBytes_length_le (r : RingBuf) : (ringBytes r).length ≤ 7 := by
  rw [ringBytes_length]; exact ringLevel_le r

/-- Settles O26: PUSH by whether the ring is full, POP by whether it is empty. -/
theorem pushAndPopMoveOneByte : Obligations.PushAndPopMoveOneByte := by
  intro s b
  have hpush : exec (.push b) s = .next ((s.setRing (ringPush s.ring b).2).setRet (.flag (ringPush s.ring b).1)) := rfl
  have hpop : exec .pop s = .next ((s.setRing (ringPop s.ring).2).setRet (.popped (ringPop s.ring).1)) := rfl
  have hsucc (i : Fin 8) : (i + 1).val = (i.val + 1) % 8 := Fin.val_add i 1
  simp only [← hsucc, ← Fin.ext_iff, ne_eq]
  refine ⟨fun hfull => ?_, fun hroom => ?_, fun hempty => ?_, fun hheld => ?_⟩
  · rw [hpush, ringPush_of_full b hfull]; rfl
  · rw [ringPush_of_not_full b hroom] at hpush
    exact ⟨_, hpush, rfl, rfl, ringSlot_write_same .., fun i hi => ringSlot_write_other _ b _ _ hi⟩
  · rw [hpop, ringPop_of_empty hempty]; rfl
  · rw [ringPop_of_not_empty hheld] at hpop
    exact ⟨_, hpop, rfl, rfl, fun _ => rfl⟩

/-! ## Sequences of calls -/

/-- Settles O27, by induction on the calls: an accepted byte joins the end of those held, a returned one leaves their
front. -/
theorem ringBufferIsFirstInFirstOut : Obligations.RingBufferIsFirstInFirstOut := by
  intro calls
  induction calls with
  | nil => intro r; exact List.append_nil _
  | cons call rest ih =>
    intro r
    cases call with
    | push b =>
      rcases ringPush_cases r b with ⟨-, hp⟩ | ⟨-, hacc, -, -, -, hb⟩
      · simpa [ringCalls, hp] using ih r
      · simpa [ringCalls, hacc, hb] using ih (ringPush r b).2
    | pop =>
      rcases ringPop_cases r with ⟨-, -, hp⟩ | ⟨b, -, hp, hb⟩
      · simpa [ringCalls, hp] using ih r
      · simpa [ringCalls, hp, hb] using ih (ringPop r).2

/-- R73: of a sequence of pushes, those that fit beside the bytes held are accepted. -/
theorem ringCalls_pushes_accepted (l : List Byte) (r : RingBuf) :
    (ringCalls (l.map .push) r).1 = l.take (7 - (ringBytes r).length) := by
  induction l generalizing r with
  | nil => exact List.take_nil.symm
  | cons b l ih =>
    rcases ringPush_cases r b with ⟨h7, hp⟩ | ⟨h6, hacc, -, -, -, hb⟩
    · simp [ringCalls, hp, ih, h7]
    · have hroom : 7 - (ringBytes r).length = 7 - (ringBytes (ringPush r b).2).length + 1 := by
        rw [hb, List.length_append, List.length_singleton]; omega
      simp [ringCalls, hacc, ih, hroom]

/-- Settles O28: eight pushes onto an empty ring are a sequence of pushes with room for seven. -/
theorem ringBufferHoldsSevenBytes : Obligations.RingBufferHoldsSevenBytes := by
  refine fun r => ⟨ringPush_accepts_iff r, ringBytes_length_le r, fun l hempty _ => ?_⟩
  rw [ringCalls_pushes_accepted, ringBytes_of_empty hempty]; rfl

/-! ## A drain -/

/-- R19: among the indices counted from tail, only the one after all the unread bytes is head. -/
theorem ringIndex_ne_head {r : RingBuf} {k : Nat} (hk : k < 8) (hne : k ≠ (ringBytes r).length) :
    ringIndex r.tail k ≠ r.head := by
  intro h
  apply hne
  rw [ringBytes_length, ringLevel, ← h, ringIndex, add_sub_cancel_left]
  exact (Nat.mod_eq_of_lt hk).symm

/-- R102: the slots beyond the bytes a drain leaves keep what they hold. -/
theorem ringSlot_drainBytes_beyond (l : List Byte) (r : RingBuf) {k : Nat} (hk : k < 8)
    (hbeyond : (ringBytes (drainBytes l r)).length ≤ k) :
    ringSlot (drainBytes l r) (ringIndex r.tail k) = ringSlot r (ringIndex r.tail k) := by
  induction l generalizing r with
  | nil => rfl
  | cons b l ih =>
    have hkept := ih (ringPush r b).2 hbeyond
    rw [ringPush_tail] at hkept
    rw [drainBytes, hkept]
    rcases ringPush_cases r b with ⟨-, hp⟩ | ⟨h6, -⟩
    · rw [hp]
    · rw [drainBytes_bytes, List.length_take, List.length_append, List.length_cons] at hbeyond
      exact ringSlot_ringPush_other r b (ringIndex_ne_head hk (by omega))

/-- Settles O29: the drain pushes the transport's next list. -/
theorem drainKeepsWhatFits : Obligations.DrainKeepsWhatFits := by
  intro s
  have hdrain : exec .drain s = .next (drainStep s) := rfl
  refine ⟨drainBytes (s.rx.headD []) s.ring, hdrain.trans (congrArg _ (drainStep_eq s)), drainBytes_bytes _ _,
    drainBytes_tail _ _, fun k hbeyond hk => ringSlot_drainBytes_beyond _ _ hk ?_⟩
  rwa [drainBytes_bytes, List.length_take]

end Sys2Proof.Machine

/-! The value codec family: the groups ENCODE emits (R74 to R77), the payload of a frame as a number in base 128 (R78
to R82), the round trip (R83), and the same round trip over the link, by a pump and by a wait step (R97, R110). -/

namespace Sys2Proof.Machine

/-! ## ENCODE -/

/-- Settles O18: the length by the range of the value, the groups by their index. -/
theorem encodeEmitsTheGroups : Obligations.EncodeEmitsTheGroups := by
  intro v s
  refine ⟨encodeValue v, rfl, ?_, fun j hj => ?_⟩
  · rw [encodeValue_length]
    have := encodeLen_cases v
    split_ifs <;> omega
  · rw [encodeValue_length] at hj ⊢
    have := (encodeLen_bounds v).2
    rw [encodeValue_getElem? v hj, encodeGroup_eq v (by omega), contByte]

/-- R77: `n` groups carry exactly the values of their signed range. -/
theorem signExtend_setWidth_eq_iff (v : Word) {n : Nat} (h1 : 1 ≤ n) (h4 : n ≤ 4) :
    (v.setWidth (7 * n)).signExtend 32 = v ↔
      -(64 * 128 ^ (n - 1) : Int) ≤ v.toInt ∧ v.toInt < 64 * 128 ^ (n - 1) := by
  have hv := BitVec.toInt_eq_toNat_cond v
  rw [← BitVec.toInt_inj, BitVec.toInt_signExtend_of_le (by omega), BitVec.toInt_setWidth,
    Int.bmod_eq_iff (by positivity)]
  interval_cases n <;> norm_num <;> omega

/-- R74: a smaller number of groups is enough exactly for the values of its signed range. -/
theorem encodeLen_le_iff (v : Word) {n : Nat} (h1 : 1 ≤ n) (h3 : n ≤ 3) :
    encodeLen v ≤ n ↔ -(64 * 128 ^ (n - 1) : Int) ≤ v.toInt ∧ v.toInt < 64 * 128 ^ (n - 1) := by
  have := encodeLen_cases v
  interval_cases n <;> norm_num <;> omega

/-- R77: the low groups that ENCODE emits carry the value wrapped to 28 bits. -/
theorem signExtend_encodeLen (v : Word) :
    (v.setWidth (7 * encodeLen v)).signExtend 32 = (v.setWidth (7 * 4)).signExtend 32 := by
  obtain ⟨h1, h4⟩ := encodeLen_bounds v
  by_cases h3 : encodeLen v ≤ 3
  · have hn := (encodeLen_le_iff v h1 h3).1 le_rfl
    have h20 := (encodeLen_le_iff v (by omega) le_rfl).1 h3
    rw [(signExtend_setWidth_eq_iff v h1 h4).2 hn, (signExtend_setWidth_eq_iff v (by omega) le_rfl).2 (by omega)]
  · rw [show encodeLen v = 4 by omega]

/-- R76: a value in the 28-bit signed range is not changed by the wrap. -/
theorem signExtend_setWidth_28 {v : Word} (hlo : -134217728 ≤ v.toInt) (hhi : v.toInt ≤ 134217727) :
    (v.setWidth (7 * 4)).signExtend 32 = v :=
  (signExtend_setWidth_eq_iff v (by omega) le_rfl).2 (by omega)

/-- Settles O19: a number of groups carries the value exactly when ENCODE_LEN is no larger. -/
theorem encodeLengthIsMinimal : Obligations.EncodeLengthIsMinimal := by
  intro v hlo hhi
  obtain ⟨h1, h4⟩ := encodeLen_bounds v
  refine ⟨h1, h4, (signExtend_encodeLen v).trans (signExtend_setWidth_28 hlo hhi), fun m hm hlt hcarries => ?_⟩
  have hle := (encodeLen_le_iff v hm (by omega)).2 ((signExtend_setWidth_eq_iff v hm (by omega)).1 hcarries)
  omega

/-! ## A payload as a number in base 128 -/

/-- R59: the number that the groups of `l` write in base 128, the first the most significant. -/
def groupsNumber : List Byte → Nat
  | [] => 0
  | b :: l => b.toNat % 128 * 128 ^ l.length + groupsNumber l

theorem groupsNumber_lt (l : List Byte) : groupsNumber l < 128 ^ l.length := by
  induction l with
  | nil => exact Nat.one_pos
  | cons b l ih =>
    have hb : b.toNat % 128 < 128 := Nat.mod_lt _ (by decide)
    rw [groupsNumber, List.length_cons, pow_succ]
    nlinarith

/-- R78, R80: shifting the groups of `l` in at the low end of `x`. -/
theorem foldl_groups {R : Type} [CommSemiring R] (l : List Byte) (x : R) :
    l.foldl (fun a b => a * 128 + ((b.toNat % 128 : Nat) : R)) x = x * 128 ^ l.length + (groupsNumber l : R) := by
  induction l generalizing x with
  | nil => simp [groupsNumber]
  | cons b l ih =>
    rw [List.foldl_cons, ih, groupsNumber, List.length_cons]
    push_cast
    ring

/-- R80: DECODE_U of a payload is its number. -/
theorem decodeUnsigned_toNat_eq (first : Byte) {rest : List Byte} (h : rest.length ≤ 3) :
    (decodeUnsigned first rest).toNat = groupsNumber (first :: rest) :=
  (decodeUnsigned_toNat first rest h).trans (foldl_groups rest (first.toNat % 128))

/-- R78: DECODE_S of a payload is its number sign-extended from its top bit. -/
theorem decodeSigned_toInt_eq (first : Byte) {rest : List Byte} (h : rest.length ≤ 3) :
    (decodeSigned first rest).toInt =
      if groupsNumber (first :: rest) < 64 * 128 ^ rest.length then (groupsNumber (first :: rest) : Int)
      else (groupsNumber (first :: rest) : Int) - 128 ^ (rest.length + 1) := by
  have hfold := foldl_groups rest (sext7 first).toInt
  push_cast at hfold
  rw [decodeSigned_toInt first rest h, hfold, sext7_toInt, groupsNumber]
  have hlt := groupsNumber_lt rest
  by_cases htop : first.toNat % 128 < 64
  · rw [if_pos htop, if_pos (by nlinarith)]
    push_cast
    rfl
  · rw [if_neg htop, if_neg (by nlinarith)]
    push_cast
    ring

/-- R75: the groups that ENCODE emits are the low bits of the value. -/
theorem groupsNumber_lowGroups (v : Word) {n : Nat} (h4 : n ≤ 4) :
    groupsNumber ((List.range n).reverse.map (encodeGroup v)) = v.toNat % 128 ^ n := by
  induction n with
  | zero => simp [groupsNumber, Nat.mod_one]
  | succ n ih =>
    have hgroup := encodeGroup_toNat v (k := n) (by omega)
    rw [List.range_succ, List.reverse_append, List.reverse_singleton, List.singleton_append, List.map_cons,
      groupsNumber, ih (by omega), Nat.mod_pow_succ, hgroup]
    simp
    ring

theorem groupsNumber_encodeValue (v : Word) : groupsNumber (encodeValue v) = v.toNat % 128 ^ encodeLen v :=
  groupsNumber_lowGroups v (encodeLen_bounds v).2

/-! ## The frame in FRAME -/

section
variable (f : FrameBuf)

theorem framePayloadRest_length_eq : (framePayloadRest f).length = lenCode (frameSlot f 1) := by
  rw [framePayloadRest, List.length_map, List.length_range]

theorem framePayload_eq_map :
    frameSlot f 2 :: framePayloadRest f =
      (List.range (lenCode (frameSlot f 1) + 1)).map fun k => frameSlot f (2 + k) := by
  rw [List.range_succ_eq_map, List.map_cons, List.map_map, framePayloadRest]
  congr 1
  exact List.map_congr_left fun k _ => congrArg (frameSlot f) (by omega)

theorem payloadNumber_eq : payloadNumber f = groupsNumber (frameSlot f 2 :: framePayloadRest f) := by
  have hfold := foldl_groups (frameSlot f 2 :: framePayloadRest f) (0 : Nat)
  rw [Nat.zero_mul, Nat.zero_add, framePayload_eq_map, List.foldl_map] at hfold
  rw [framePayload_eq_map]
  exact hfold

theorem frameUnsigned_toNat : (frameUnsigned f).toNat = payloadNumber f := by
  rw [payloadNumber_eq]
  exact decodeUnsigned_toNat_eq _ (framePayloadRest_length f)

theorem frameSigned_toInt :
    (frameSigned f).toInt = if payloadNumber f < 64 * 128 ^ lenCode (frameSlot f 1) then (payloadNumber f : Int)
      else (payloadNumber f : Int) - 128 ^ (lenCode (frameSlot f 1) + 1) := by
  rw [payloadNumber_eq, ← framePayloadRest_length_eq]
  exact decodeSigned_toInt_eq _ (framePayloadRest_length f)

theorem payloadNumber_lt : payloadNumber f < 128 ^ (lenCode (frameSlot f 1) + 1) := by
  rw [payloadNumber_eq, ← framePayloadRest_length_eq]
  exact groupsNumber_lt _

end

theorem frameValue_of_signed {c : Params} {f : FrameBuf} (h : kindOf c (frameFc f) = .signed) :
    frameValue c f = frameSigned f := by
  simp only [frameValue, frameKind, h]

theorem frameValue_of_unsigned {c : Params} {f : FrameBuf} (h : kindOf c (frameFc f) = .unsigned) :
    frameValue c f = frameUnsigned f := by
  simp only [frameValue, frameKind, h]

/-- R82: DECODE records the value with its kind. -/
theorem exec_decode (s : State) :
    exec .decode s = .next (s.setRet (.decoded (frameValue s.cfg s.frame) (kindOf s.cfg (frameFc s.frame)))) := rfl

/-- Settles O21: both decodes read the payload's number, and DECODE takes the one of the code's kind. -/
theorem decodesReadThePayload : Obligations.DecodesReadThePayload := by
  refine fun s => ⟨frameSigned s.frame, frameUnsigned s.frame, rfl, rfl, fun hk => ?_, fun hk => ?_,
    frameUnsigned_toNat s.frame, frameSigned_toInt s.frame⟩
  · rw [exec_decode, frameValue_of_signed hk, frameFc, hk]
  · rw [exec_decode, frameValue_of_unsigned hk, frameFc, hk]


/-- R79, R81: the sentinel lies outside the range of either kind. -/
theorem decodedInRange_ne_sentinel {k : Kind} {v : Word} (h : decodedInRange k v) : v ≠ 0x80000000#32 := by
  rintro rfl
  cases k with
  | signed => exact absurd h.1 (by decide)
  | unsigned => exact absurd (show (0x80000000#32).toNat < 268435456 from h) (by decide)

/-- Settles O22, from the range of the payload's number. -/
theorem decodedValuesAreInRange : Obligations.DecodedValuesAreInRange := by
  intro f
  have hlt := payloadNumber_lt f
  have hs := frameSigned_toInt f
  have hsigned : decodedInRange .signed (frameSigned f) := decodeSigned_inRange _ (framePayloadRest_length f)
  have hunsigned : decodedInRange .unsigned (frameUnsigned f) := decodeUnsigned_inRange _ (framePayloadRest_length f)
  have hbounds : -(64 * 128 ^ lenCode (frameSlot f 1) : Int) ≤ (frameSigned f).toInt ∧
      (frameSigned f).toInt < 64 * 128 ^ lenCode (frameSlot f 1) := by
    zify at hlt hs
    rw [pow_succ] at hlt hs
    split_ifs at hs <;> omega
  refine ⟨hbounds.1, hbounds.2, (frameUnsigned_toNat f).trans_lt hlt, hsigned.1, hsigned.2, hunsigned,
    decodedInRange_ne_sentinel hsigned, decodedInRange_ne_sentinel hunsigned⟩

/-! ## The round trip -/

/-- R9: the sign extension of `L + 1` groups, by the top bit of the first. -/
theorem bmod_pow_succ (x L : Nat) :
    (x : Int).bmod (128 ^ (L + 1)) =
      if x % 128 ^ (L + 1) < 64 * 128 ^ L then ((x % 128 ^ (L + 1) : Nat) : Int)
      else ((x % 128 ^ (L + 1) : Nat) : Int) - 128 ^ (L + 1) := by
  have hhalf : (((128 ^ (L + 1) : Nat) : Int) + 1) / 2 = ((64 * 128 ^ L : Nat) : Int) := by
    rw [pow_succ]
    omega
  rw [Int.bmod_def, hhalf, ← Int.natCast_emod]
  simp only [Nat.cast_lt]
  push_cast
  rfl

section
variable {F : FnCode} {A : Axis} {v : Word} {f : FrameBuf} (hheld : frameHolds f (buildFrame F A v))
include hheld

theorem codeSlot_of_built : frameSlot f 1 = codeByte (BitVec.ofNat 2 (encodeLen v - 1)) F := hheld 1 _ rfl

theorem lenCode_of_built : lenCode (frameSlot f 1) + 1 = encodeLen v := by
  have := (encodeLen_bounds v).1
  rw [codeSlot_of_built hheld, lenCode_codeByte, lengthCode_toNat]
  omega

theorem frameFc_of_built : frameFc f = F := by
  rw [frameFc, codeSlot_of_built hheld, codeFc_codeByte]

/-- R59: the payload of a built frame is what ENCODE emits. -/
theorem framePayload_of_built : frameSlot f 2 :: framePayloadRest f = encodeValue v := by
  rw [framePayload_eq_map, lenCode_of_built hheld]
  refine List.ext_getElem (by simp [encodeValue_length]) fun k h1 h2 => ?_
  rw [List.getElem_map, List.getElem_range]
  apply hheld
  rw [buildFrame, List.getElem?_append_left (by rw [frameBody_length, ← encodeValue_length]; omega), frameBody,
    Nat.add_comm 2 k, List.getElem?_cons_succ, List.getElem?_cons_succ, List.getElem?_eq_getElem h2]

theorem payloadNumber_of_built : payloadNumber f = v.toNat % 128 ^ encodeLen v := by
  rw [payloadNumber_eq, framePayload_of_built hheld, groupsNumber_encodeValue]

/-- R76: a built frame decodes, signed, to the value wrapped to 28 bits. -/
theorem frameSigned_of_built : frameSigned f = (v.setWidth 28).signExtend 32 := by
  have hL := lenCode_of_built hheld
  refine Eq.trans ?_ (signExtend_encodeLen v)
  rw [← BitVec.toInt_inj, BitVec.toInt_signExtend_of_le (by have := encodeLen_bounds v; omega), BitVec.toInt_setWidth,
    pow_mul, frameSigned_toInt, payloadNumber_of_built hheld, ← hL]
  exact (bmod_pow_succ _ _).symm

/-- R83: a value in 0..2^27−1 decodes, unsigned, to itself. -/
theorem frameUnsigned_of_built (hlo : 0 ≤ v.toInt) (hhi : v.toInt ≤ 134217727) : frameUnsigned f = v := by
  have hv := BitVec.toInt_eq_toNat_cond v
  have hlt : v.toNat < 128 ^ encodeLen v := by
    rcases encodeLen_cases v with ⟨h, _⟩ | ⟨h, _⟩ | ⟨h, _⟩ | ⟨h, _⟩ <;> rw [h] <;> omega
  apply BitVec.eq_of_toNat_eq
  rw [frameUnsigned_toNat, payloadNumber_of_built hheld, Nat.mod_eq_of_lt hlt]

/-- R83: what DECODE gives for a built frame, by the kind of its code. -/
theorem frameValue_of_built (c : Params) :
    (kindOf c F = .signed → frameValue c f = (v.setWidth 28).signExtend 32) ∧
      (kindOf c F = .unsigned → 0 ≤ v.toInt → v.toInt ≤ 134217727 → frameValue c f = v) := by
  have hfc := frameFc_of_built hheld
  constructor
  · intro hk
    rw [frameValue_of_signed (hfc.symm ▸ hk), frameSigned_of_built hheld]
  · intro hk hlo hhi
    rw [frameValue_of_unsigned (hfc.symm ▸ hk), frameUnsigned_of_built hheld hlo hhi]

end

/-- Settles O20: the payload of a built frame is the low bits of the value, all of it in the 28-bit range. -/
theorem codecRoundTrip : Obligations.CodecRoundTrip :=
  fun _ _ _ _ hheld => ⟨frameSigned_of_built hheld,
    fun hlo hhi => (frameSigned_of_built hheld).trans (signExtend_setWidth_28 hlo hhi), frameUnsigned_of_built hheld⟩

end Sys2Proof.Machine

/-! The round trip over the link: a well-formed frame among the bytes a pump takes completes with Success, and a frame
that BUILD_AND_SEND builds gives the value that was sent. -/

namespace Sys2Proof.Machine

/-! ## A well-formed frame in FRAME -/

theorem Holds.frameHolds {f : FrameBuf} {l : List Byte} (h : Holds f l) : frameHolds f l := by
  intro i b hb
  have hi := (List.getElem?_eq_some_iff.1 hb).1
  exact Option.some.inj ((h.2 i hi).trans hb)

/-- R96: COMPLETE verifies the last byte held against those before it. -/
theorem Holds.frameOk_eq {f : FrameBuf} {body : List Byte} {ck : Byte} (h : Holds f (body ++ [ck])) :
    frameOk f = ckVer body ck := by
  have hcount : f.count.val - 1 = body.length := by
    rw [h.1, List.length_append, List.length_singleton, Nat.add_sub_cancel]
  have hbody : frameHeld f = body := by
    rw [frameHeld, hcount]
    refine List.ext_getElem (by simp) fun i _ hi => ?_
    rw [List.getElem_map, List.getElem_range]
    apply h.frameHolds
    rw [List.getElem?_append_left hi, List.getElem?_eq_getElem hi]
  have hck : frameSlot f body.length = ck := h.frameHolds _ _ List.getElem?_concat_length
  rw [frameOk, hbody, hcount, hck]

/-- R97, R99: COMPLETE of a built frame held in FRAME. -/
theorem completeFrame_of_built {F : FnCode} {A : Axis} {v : Word} {s : State}
    (h : Holds s.frame (buildFrame F A v)) :
    completeFrame s =
      (((s.setDecoded (frameValue s.cfg s.frame) F (kindOf s.cfg F)).setOutcome .success).appendReport
        (.value F (kindOf s.cfg F) (frameValue s.cfg s.frame))).setFrame (idleFrame s.frame) := by
  have hok : frameOk s.frame = true := h.frameOk_eq.trans (ckVer_ckGen _)
  rw [completeFrame, if_pos hok, frameKind, frameFc_of_built h.frameHolds]

/-! ## A well-formed frame among the bytes of a pump -/

/-- R111: the bytes that the next pump takes begin with the frame `fr`, or continue to its end one that FRAME holds in
part; `more` follows it. -/
def FrameArrives (fr more : List Byte) (s : State) : Prop :=
  (ringBytes s.ring ++ s.rx.headD []).take 7 = fr ++ more ∨
    (FrameInv s.frame ∧
      frameBytes s.frame s.frame.count.val ++ (ringBytes s.ring ++ s.rx.headD []).take 7 = fr ++ more)

/-- R96, R103: bytes that begin with a well-formed frame, or end one partly held, complete it and no other. -/
theorem parseAll_wellFormed {fr more bytes : List Byte} (hfr : wellFormedFrame fr) {s : State}
    (h : bytes = fr ++ more ∨ (FrameInv s.frame ∧ frameBytes s.frame s.frame.count.val ++ bytes = fr ++ more)) :
    ∃ f, parseAll bytes s = .next (true, more, completeFrame (s.setFrame f)) ∧ Holds f fr := by
  obtain ⟨axis, code, first, rest, ck, rfl, hlen, haxis, hcode, hfirst, hrest, hck, -⟩ := hfr
  have hshape : axis :: code :: first :: (rest ++ [ck]) ++ more = axis :: code :: first :: (rest ++ ck :: more) := by
    simp
  rw [hshape] at h
  rcases h with rfl | ⟨hinv, hbytes⟩
  · exact parseAll_frame hlen haxis hcode hfirst hrest hck s more
  · exact parseAll_held hlen haxis hcode hfirst hrest hck hinv hbytes

/-- R100: a pump that a well-formed frame arrives at completes it, and leaves unread what follows it. -/
theorem pumpBody_of_arrives {fr more : List Byte} (hfr : wellFormedFrame fr) {s : State} (h : FrameArrives fr more s) :
    ∃ r f, pumpBody s = .next (completeFrame (((s.setRx s.rx.tail).setRing r).setFrame f)) ∧ ringBytes r = more ∧
      Holds f fr := by
  have hbytes : ringBytes (drainStep s).ring = (ringBytes s.ring ++ s.rx.headD []).take 7 := by
    rw [drainStep_eq, State.setRing_ring, drainBytes_bytes]
  obtain ⟨f, hparse, hheld⟩ := parseAll_wellFormed hfr (s := drainStep s)
    (bytes := (ringBytes s.ring ++ s.rx.headD []).take 7) (by rw [drainStep_frame]; exact h)
  obtain ⟨r, hpump, hr⟩ := pumpLoop_parseAll (n := Config.ringCap) hbytes
    (by rw [List.length_take, Config.ringCap]; omega) hparse
  refine ⟨r, f, ?_, hr, hheld⟩
  rw [pumpBody, hpump, ← completeFrame_setRing, drainStep_eq]
  rfl

/-- R97, R100: the same for a built frame, with the fields its completion writes. -/
theorem pumpBody_of_built {F : FnCode} {A : Axis} {v : Word} {more : List Byte} {s : State}
    (h : FrameArrives (buildFrame F A v) more s) :
    ∃ t x, pumpBody s = .next t ∧ t.outcome = .success ∧ t.dfc = some F ∧ t.dkind = some (kindOf s.cfg F) ∧
      t.dval = some x ∧ t.reports = s.reports ++ [.value F (kindOf s.cfg F) x] ∧ ringBytes t.ring = more ∧
      t.rx = s.rx.tail ∧ t.frame.count.val = 0 ∧
      (kindOf s.cfg F = .signed → x = (v.setWidth 28).signExtend 32) ∧
      (kindOf s.cfg F = .unsigned → 0 ≤ v.toInt → v.toInt ≤ 134217727 → x = v) := by
  obtain ⟨r, f, hpump, hr, hheld⟩ := pumpBody_of_arrives (builtFramesAreWellFormed F A v) h
  rw [completeFrame_of_built hheld] at hpump
  refine ⟨_, frameValue s.cfg f, hpump, rfl, rfl, rfl, rfl, rfl, hr, rfl, rfl, ?_⟩
  exact frameValue_of_built hheld.frameHolds s.cfg

/-- R7: a built frame fits the ring. -/
theorem buildFrame_length_le (F : FnCode) (A : Axis) (v : Word) : (buildFrame F A v).length ≤ 7 := by
  have := (encodeLen_bounds v).2
  rw [buildFrame, List.length_append, frameBody_length, List.length_singleton]
  omega

/-- Settles O40: the built frame is all that the drain brings. -/
theorem pumpReceivesWhatSendTransmits : Obligations.PumpReceivesWhatSendTransmits := by
  intro F A v s rest hready hempty hrx
  have harrives : FrameArrives (buildFrame F A v) [] s := .inl (by
    rw [hempty, hrx, List.nil_append, List.headD_cons, List.append_nil,
      List.take_of_length_le (buildFrame_length_le F A v)])
  obtain ⟨t, x, hpump, hfields⟩ := pumpBody_of_built harrives
  refine ⟨t, x, ?_, ?_⟩
  · rw [← hpump]
    exact if_neg (by simp [hready])
  · rw [hrx, List.tail_cons] at hfields
    exact hfields

/-! ## QUERY -/

/-- R110: the finish step, its result by the outcome. -/
theorem exec_queryFinish (s : State) : exec .queryFinish s =
    .next ((s.setResult (if s.outcome = .success then s.dval else some 0x80000000#32)).setBusy false) := rfl

/-- Settles O42, by the outcome. -/
theorem queryFinishReturnsValueOrSentinel : Obligations.QueryFinishReturnsValueOrSentinel := by
  have hsuccess : ∀ s : State, s.outcome = .success →
      exec .queryFinish s = .next { s with result := s.dval, busy := false } := by
    intro s h
    rw [exec_queryFinish, if_pos h]
    rfl
  refine ⟨fun s => ⟨hsuccess s, fun h => ?_, fun hinv h => ?_⟩, fun k v => decodedInRange_ne_sentinel⟩
  · rw [exec_queryFinish, if_neg h]
    rfl
  · obtain ⟨v, hv⟩ := Option.ne_none_iff_exists'.1 (hinv.success h)
    exact ⟨v, hv, by rw [hsuccess s h, hv]⟩

/-- R108, R110: a wait step whose pump ends with Success finishes the QUERY with the Decoded Value. -/
theorem waitStep_of_success {s u : State} (hb : s.busy = true) (hp : pumpBody (sleepBetween s) = .next u)
    (hout : u.outcome = .success) :
    waitStep s = .next (((u.setPumps (s.pumps + 1)).setResult u.dval).setBusy false) := by
  rw [waitStep_of_pump hb hp]
  simp [afterPump, queryFinish, hout]

/-- R108: the sleep between pumps changes none of the bytes that arrive. -/
theorem FrameArrives.sleep {fr more : List Byte} {s : State} (h : FrameArrives fr more s) :
    FrameArrives fr more (sleepBetween s) := by
  obtain ⟨l, hl⟩ := sleepBetween_rest s
  rw [hl]
  exact h

theorem sleepBetween_cfg (s : State) : (sleepBetween s).cfg = s.cfg := by
  obtain ⟨l, hl⟩ := sleepBetween_rest s
  rw [hl]

/-- Settles O45: the wait step's pump completes the frame that arrives, whatever code and axis it carries. -/
theorem queryTakesTheFirstFrame : Obligations.QueryTakesTheFirstFrame := by
  intro F A v more s hb h
  have harrives : FrameArrives (buildFrame F A v) more s := h
  obtain ⟨u, x, hpump, hout, hdfc, -, hdval, -, hring, -, -, hsigned, hunsigned⟩ := pumpBody_of_built harrives.sleep
  rw [sleepBetween_cfg] at hsigned hunsigned
  refine ⟨_, waitStep_of_success hb hpump hout, rfl, hout, hdfc, rfl, ?_, rfl, hring, fun hk => ?_,
    fun hk hlo hhi => ?_⟩
  · simp [hdval]
  · exact hdval.trans (congrArg some (hsigned hk))
  · exact hdval.trans (congrArg some (hunsigned hk hlo hhi))

end Sys2Proof.Machine

/-! The checksum family: CKGEN and CKVER as arithmetic modulo 128 (R85 to R88), and which changes of a frame that
verifies CKVER detects (R89). -/

namespace Sys2Proof.Machine

/-! ## CKGEN and CKVER -/

/-- R85: CKGEN only returns the checksum byte. -/
theorem exec_ckgen (body : List Byte) (s : State) :
    exec (.ckgen body) s = .next (s.setRet (.byte (ckGen body))) := rfl

/-- R86: CKVER only returns its verdict. -/
theorem exec_ckver (body : List Byte) (ck : Byte) (s : State) :
    exec (.ckver body ck) s = .next (s.setRet (.flag (ckVer body ck))) := rfl

/-- Settles O23, from the sum modulo 128 in the checksum byte and in the verification. -/
theorem checksumIsTheSumModulo128 : Obligations.ChecksumIsTheSumModulo128 :=
  fun body ck s => ⟨⟨ckGen body, exec_ckgen body s, ckGen_toNat body⟩,
    ckVer body ck, exec_ckver body ck s, ckVer_iff body ck⟩

/-- Settles O24: the generated checksum agrees with the sum modulo 128. -/
theorem generatedChecksumVerifies : Obligations.GeneratedChecksumVerifies :=
  fun body s => by rw [exec_ckver, ckVer_ckGen]

/-! ## What the verification detects -/

/-- R89: a flipped bit changes the byte modulo 128 exactly when it is a data bit. -/
theorem flip_mod_128_eq_iff (b : Byte) {k : Nat} (hk : k < 8) :
    (b ^^^ (1#8 <<< k)).toNat % 128 = b.toNat % 128 ↔ k = 7 := by
  have hxor : (b ^^^ (1#8 <<< k)).toNat % 128 = b.toNat % 128 ^^^ (1#8 <<< k).toNat % 128 := by
    rw [BitVec.toNat_xor]
    exact Nat.xor_mod_two_pow (n := 7)
  have hmask : ∀ k < 8, (1#8 <<< k).toNat % 128 = 0 ↔ k = 7 := by decide
  calc (b ^^^ (1#8 <<< k)).toNat % 128 = b.toNat % 128
      ↔ b.toNat % 128 ^^^ (1#8 <<< k).toNat % 128 = b.toNat % 128 ^^^ 0 := by rw [hxor, Nat.xor_zero]
    _ ↔ (1#8 <<< k).toNat % 128 = 0 := Nat.xor_right_inj
    _ ↔ k = 7 := hmask k hk

/-- R89: a change of one byte moves the sum by the difference of the two bytes, here without a subtraction. -/
theorem sum_modify_add (f : Byte → Byte) {l : List Byte} {j : Nat} (hj : j < l.length) :
    ((l.modify j f).map BitVec.toNat).sum + l[j].toNat = (l.map BitVec.toNat).sum + (f l[j]).toNat := by
  induction l generalizing j with
  | nil => cases hj
  | cons b l ih =>
    cases j with
    | zero =>
      simp only [List.modify_zero_cons, List.map_cons, List.sum_cons, List.getElem_cons_zero]
      omega
    | succ j =>
      have := ih (Nat.lt_of_succ_lt_succ hj)
      simp only [List.modify_succ_cons, List.map_cons, List.sum_cons, List.getElem_cons_succ]
      omega

/-- R87: after a change of the checksum byte, what verified still verifies exactly when the byte is the same modulo
128. -/
theorem ckVer_ck_iff_of_ckVer {body : List Byte} {ck ck' : Byte} (h : ckVer body ck = true) :
    ckVer body ck' = true ↔ ck'.toNat % 128 = ck.toNat % 128 := by
  rw [ckVer_iff, (ckVer_iff body ck).1 h, eq_comm]

/-- R87: after a change of one byte of the body, what verified still verifies exactly when that byte is the same
modulo 128. -/
theorem ckVer_modify_iff_of_ckVer (f : Byte → Byte) {body : List Byte} {ck : Byte} {j : Nat} (hj : j < body.length)
    (h : ckVer body ck = true) :
    ckVer (body.modify j f) ck = true ↔ (f body[j]).toNat % 128 = body[j].toNat % 128 := by
  have hsum := sum_modify_add f hj
  have hbody := (ckVer_iff body ck).1 h
  rw [ckVer_iff]
  omega

/-- R89: the sum, and with it the verification, does not depend on the order of the bytes. -/
theorem ckVer_perm {body body' : List Byte} (hp : body'.Perm body) (ck : Byte) : ckVer body' ck = ckVer body ck := by
  rw [Bool.eq_iff_iff, ckVer_iff, ckVer_iff, (hp.map BitVec.toNat).sum_eq]

/-- Settles O25: a framing bit is 0 modulo 128 and a data bit is not, in the checksum byte and in the sum alike. -/
theorem singleBitErrorsAreDetectedUnlessFraming : Obligations.SingleBitErrorsAreDetectedUnlessFraming := by
  intro body ck k hk h
  refine ⟨?_, fun j hj => ?_, fun body' hp => (ckVer_perm hp ck).trans h⟩
  · rw [Bool.eq_iff_iff, decide_eq_true_iff, ckVer_ck_iff_of_ckVer h, flip_mod_128_eq_iff ck hk]
  · rw [Bool.eq_iff_iff, decide_eq_true_iff, ckVer_modify_iff_of_ckVer _ hj h, flip_mod_128_eq_iff _ hk]

end Sys2Proof.Machine

/-! The parser family: what each received byte does to the parser (R91 to R95), what COMPLETE decides (R96 to R99), how
the parser finds the next frame after a truncated one (R103), and what one pump takes (R100). -/

namespace Sys2Proof.Machine

/-! ## One received byte -/

/-- R93, R94: a continuation byte is appended, and at count 1 it fixes the expected length. -/
theorem frameAfter_of_cont {b : Byte} {f : FrameBuf} (hs : isStart b = false) (hc : f.count.val < 7) :
    appended f (frameAfter b f) b ∧
      (frameAfter b f).expected.val = if f.count.val = 1 then 4 + lenCode b else f.expected.val := by
  have hstart := startFrame_of_cont hs f
  obtain ⟨hcount, -, hnew, hother, hexp⟩ := frameAfter_spec (b := b) (f := f) (by rw [hstart]; exact hc)
  rw [hstart] at hcount hnew hother hexp
  exact ⟨⟨hcount, hnew, hother⟩, hexp⟩

/-- R96: a continuation byte that does not reach the expected length only moves the parser. -/
theorem parseByte_cont_pending {b : Byte} {s : State} (hs : isStart b = false) (hc : s.frame.count.val < 7)
    (hn : frameComplete (frameAfter b s.frame) = false) :
    parseByte b s = .next (false, s.setFrame (frameAfter b s.frame)) := by
  simp [parseByte_cont hs hc, finishByte, hn]

/-- R96: a continuation byte that reaches the expected length completes the frame. -/
theorem parseByte_cont_completes {b : Byte} {s : State} (hs : isStart b = false) (hc : s.frame.count.val < 7)
    (hd : frameComplete (frameAfter b s.frame) = true) :
    parseByte b s = .next (true, completeFrame (s.setFrame (frameAfter b s.frame))) := by
  simp [parseByte_cont hs hc, finishByte, hd]

/-- R94: at count 1 a continuation byte is the code byte: it is stored, the length is known and nothing completes. -/
theorem parseByte_code {b : Byte} {s : State} (hs : isStart b = false) (hc : s.frame.count.val = 1) :
    ∃ g, parseByte b s = .next (false, s.setFrame g) ∧ appended s.frame g b ∧ g.expected.val = 4 + lenCode b := by
  obtain ⟨happ, hexp⟩ := frameAfter_of_cont (f := s.frame) hs (by omega)
  rw [if_pos hc] at hexp
  refine ⟨_, parseByte_cont_pending hs (by omega) ?_, happ, hexp⟩
  rw [← Bool.not_eq_true, frameComplete_iff, happ.1, hexp]
  omega

/-- R91: PARSE_BYTE run on its own records its result. -/
theorem parseAlone_of_parseByte {b : Byte} {s t : State} {done : Bool} (h : parseByte b s = .next (done, t)) :
    parseAlone b s = .next (t.setRet (.flag done)) := by
  simp only [parseAlone, h]

/-- R91: the inversion of PARSE_BYTE run on its own. -/
theorem parseByte_of_parseAlone {b : Byte} {s t : State} (h : parseAlone b s = .next t) :
    ∃ done u, parseByte b s = .next (done, u) ∧ t = u.setRet (.flag done) := by
  cases hp : parseByte b s with
  | next p =>
    obtain ⟨done, u⟩ := p
    rw [parseAlone_of_parseByte hp] at h
    exact ⟨done, u, rfl, (Host.Outcome.next.inj h).symm⟩
  | fault e => simp [parseAlone, hp] at h
  | refused e => simp [parseAlone, hp] at h

/-! ## The instructions that carry a byte -/

/-- PARSE_START is PARSE_BYTE of its start byte. -/
theorem exec_parseStart (d : BitVec 7) (s : State) : exec (.parseStart d) s = parseAlone (startByte d) s := rfl

/-- PARSE_CONT is PARSE_BYTE of its continuation byte. -/
theorem exec_parseCont (d : BitVec 7) (s : State) : exec (.parseCont d) s = parseAlone (contByte d) s := rfl

/-- FRAME4 to FRAME7 are PARSE_BYTE of the code byte with their length code. -/
theorem exec_frames (F : FnCode) (s : State) :
    exec (.frame4 F) s = parseAlone (codeByte 0#2 F) s ∧ exec (.frame5 F) s = parseAlone (codeByte 1#2 F) s ∧
      exec (.frame6 F) s = parseAlone (codeByte 2#2 F) s ∧ exec (.frame7 F) s = parseAlone (codeByte 3#2 F) s :=
  ⟨rfl, rfl, rfl, rfl⟩

theorem lenCode_contByte (d : BitVec 7) : lenCode (contByte d) = d.toNat / 32 := by
  rw [lenCode_eq, contByte_toNat]
  omega

/-- R53, R93: a code byte is the continuation byte with the same data bits. -/
theorem codeByte_eq_contByte (L : BitVec 2) (F : FnCode) :
    codeByte L F = contByte (L.setWidth 7 <<< 5 ||| F.setWidth 7) := by
  revert L F; decide

/-- Settles O31: a start byte never completes a frame, and it is stored in an idle parser. -/
theorem startByteBeginsAFrame : Obligations.StartByteBeginsAFrame := by
  intro d s
  have hs := isStart_startByte d
  have hidle := startFrame_of_start hs s.frame
  obtain ⟨hcount, -, hnew, hother, hexp⟩ := frameAfter_spec (b := startByte d) (f := s.frame) (by simp [hidle])
  simp only [hidle, idleFrame_count, idleFrame_expected, Fin.val_zero, zero_ne_one, if_false] at hcount hnew hother hexp
  exact ⟨_, parseAlone_of_parseByte (parseByte_start hs s), hcount, hexp, hnew, hother⟩

/-- Settles O32, by the count: the byte after it is short of the expected length or reaches it. -/
theorem continuationByteIsAppended : Obligations.ContinuationByteIsAppended := by
  intro d s hinv
  have hs := isStart_contByte d
  have hlt : s.frame.count.val < 7 := lt_of_le_of_lt hinv.count_le (by decide)
  obtain ⟨happ, hexp⟩ := frameAfter_of_cont hs hlt
  have hcount := happ.1
  refine ⟨fun hshort => ?_, fun h1 => ?_, fun h2 hlast => ?_⟩
  · rw [if_neg (by omega)] at hexp
    refine ⟨_, parseAlone_of_parseByte (parseByte_cont_pending hs hlt ?_), happ, Fin.ext hexp⟩
    rw [← Bool.not_eq_true, frameComplete_iff, hcount, hexp]
    omega
  · obtain ⟨g, hparse, hg, hlen⟩ := parseByte_code hs h1
    exact ⟨g, parseAlone_of_parseByte hparse, hg, by rw [hlen, lenCode_contByte]⟩
  · rw [if_neg (by omega)] at hexp
    refine ⟨_, parseAlone_of_parseByte (parseByte_cont_completes hs hlt ?_), happ, Fin.ext hexp⟩
    rw [frameComplete_iff, hcount, hexp]
    omega

/-- R94: the code byte with length code `L`, run at count 1. -/
theorem parseAlone_codeByte_fixesLength (L : BitVec 2) (F : FnCode) {s : State} (hc : s.frame.count.val = 1) :
    fixesLength s (codeByte L F) (4 + L.toNat) (parseAlone (codeByte L F) s) := by
  obtain ⟨g, hparse, happ, hlen⟩ := parseByte_code (isStart_codeByte L F) hc
  exact ⟨g, parseAlone_of_parseByte hparse, happ, by rw [hlen, lenCode_codeByte]⟩

/-- Settles O33: the four instructions are the four length codes of one code byte. -/
theorem codeByteFixesTheLength : Obligations.CodeByteFixesTheLength := by
  intro F s
  have hcont (L : BitVec 2) :
      parseAlone (codeByte L F) s = exec (.parseCont (L.setWidth 7 <<< 5 ||| F.setWidth 7)) s := by
    rw [codeByte_eq_contByte, exec_parseCont]
  obtain ⟨h4, h5, h6, h7⟩ := exec_frames F s
  refine ⟨fun hc => ?_, ?_, h5.trans (hcont 1#2), h6.trans (hcont 2#2), h7.trans (hcont 3#2)⟩
  · rw [h4, h5, h6, h7]
    exact ⟨parseAlone_codeByte_fixesLength 0#2 F hc, parseAlone_codeByte_fixesLength 1#2 F hc,
      parseAlone_codeByte_fixesLength 2#2 F hc, parseAlone_codeByte_fixesLength 3#2 F hc⟩
  · simpa using h4.trans (hcont 0#2)

/-! ## A length that does not fit -/

/-- R93, R95: a continuation byte goes straight to the store, whatever the capacity. -/
theorem parseByteCap_cont (cap : Nat) {b : Byte} {s : State} (hs : isStart b = false) (hc : s.frame.count.val < 7) :
    parseByteCap cap b s = .next (storeByte cap s b) := by
  rw [parseByteCap, startFrame_of_cont hs, if_pos (show _ < Config.frameCap from hc)]
  rfl

/-- R95: a length beyond the capacity aborts the frame. -/
theorem storeByte_of_malformed {cap : Nat} {b : Byte} {s : State} (h2 : (appendFrame s.frame b).count = 2)
    (hlen : cap < frameLength (appendFrame s.frame b)) :
    storeByte cap s b = (false, s.setFrame (idleFrame (appendFrame s.frame b))) := by
  rw [storeByte, if_pos h2, if_pos hlen]

/-- Settles O36: the code byte is stored at index 1, and the length it asks for is compared with the capacity. -/
theorem malformedLengthAborts : Obligations.MalformedLengthAborts := by
  intro cap b s hc hs
  refine ⟨fun hcap => ?_, fun hcap => ?_⟩
  · have hcode : frameSlot (appendFrame s.frame b) 1 = b := by
      rw [← hc]; exact frameSlot_append_same s.frame b
    have hlen : cap < frameLength (appendFrame s.frame b) := by rwa [frameLength, hcode]
    have hcount : (appendFrame s.frame b).count = 2 := by
      rw [Fin.ext_iff, appendFrame_count, succ_count (by omega), hc]; rfl
    refine ⟨idleFrame (appendFrame s.frame b), ?_, rfl, rfl, fun i hi => ?_⟩
    · rw [parseByteCap_cont cap hs (by omega), storeByte_of_malformed hcount hlen]
    · rw [frameSlot_idle, frameSlot_append_other _ _ (by omega)]
  · subst hcap
    obtain ⟨g, hparse, happ, hexp⟩ := parseByte_code hs hc
    have := lenCode_le b
    exact ⟨g, hparse, happ, hexp, by omega⟩

/-! ## COMPLETE -/

theorem exec_complete_of_complete {s : State} (h : frameComplete s.frame = true) :
    exec .complete s = .next (completeFrame s) := by
  show Host.Outcome.next _ = _
  rw [if_pos h]

theorem exec_complete_of_incomplete {s : State} (h : frameComplete s.frame = false) :
    exec .complete s = .next s := by
  show Host.Outcome.next _ = _
  rw [if_neg (by simp [h])]

/-- Settles O34, by the checksum of the frame held and the decode kind of its function code. -/
theorem completionDecidesByTheChecksum : Obligations.CompletionDecidesByTheChecksum := by
  intro s h2 hexp
  have hexec := exec_complete_of_complete ((frameComplete_iff s.frame).2 ⟨h2, congrArg Fin.val hexp⟩)
  have hsum : frameOk s.frame = true ↔ _ := ckVer_iff (frameHeld s.frame) (frameSlot s.frame (s.frame.count.val - 1))
  refine ⟨fun h => ?_, fun h => ?_⟩
  · rw [hexec, completeFrame, if_pos (hsum.2 h)]
    refine ⟨fun hk => ?_, fun hk => ?_⟩
    · rw [frameValue_of_signed hk, frameKind, frameFc, hk]; rfl
    · rw [frameValue_of_unsigned hk, frameKind, frameFc, hk]; rfl
  · rw [hexec, completeFrame, if_neg (fun hok => h (hsum.1 hok))]
    rfl

/-- Settles O35: neither guard holds. -/
theorem stepsNotEnabledChangeNothing : Obligations.StepsNotEnabledChangeNothing := by
  refine fun s => ⟨fun h => exec_complete_of_incomplete ?_, fun hb => if_neg (by simp [hb])⟩
  rw [← Bool.not_eq_true, frameComplete_iff, ← Fin.ext_iff]
  omega

/-! ## Resynchronisation -/

/-- Bytes that complete nothing leave the parser ready for those that follow. -/
theorem parseAll_append {p rest : List Byte} {s t : State} (h : parseAll p s = .next (false, rest, t)) (q : List Byte) :
    parseAll (p ++ q) s = parseAll q t := by
  induction p generalizing s with
  | nil => cases h; rfl
  | cons b p ih =>
    simp only [parseAll] at h
    cases hb : parseByte b s with
    | fault e => simp [hb] at h
    | refused e => simp [hb] at h
    | next x =>
      obtain ⟨done, u⟩ := x
      cases done with
      | true => simp [hb] at h
      | false =>
        simp only [hb] at h
        simp only [List.cons_append, parseAll, hb]
        exact ih h

/-- R103 item 4: a truncated frame only moves the parser. -/
theorem parseAll_truncated {p : List Byte} (hp : truncatedFrame p) (s : State) :
    ∃ f, parseAll p s = .next (false, [], s.setFrame f) := by
  obtain ⟨axis, conts, rfl, haxis, hconts, hshort⟩ := hp
  cases conts with
  | nil => exact ⟨frameAfter axis s.frame, by simp only [parseAll, parseByte_start haxis]⟩
  | cons code more =>
    have hlen := hshort code more rfl
    have hL := lenCode_le code
    obtain ⟨hcode, hmore⟩ := List.forall_mem_cons.1 hconts
    obtain ⟨f, hheader, hheld, hexp⟩ := parseAll_header haxis hcode s more
    obtain ⟨g, hparse, -, -⟩ := parseAll_short (s := s.setFrame f) hheld le_rfl
      (by rw [State.setFrame_frame, hexp]; omega)
      (by rw [State.setFrame_frame, hexp, List.length_cons, List.length_singleton]; omega) hmore
    exact ⟨g, hheader.trans hparse⟩

/-- R98: COMPLETE of a well-formed frame held in FRAME ends with Success. -/
theorem completeFrame_of_wellFormed {fr : List Byte} (hfr : wellFormedFrame fr) {s : State} (h : Holds s.frame fr) :
    completeFrame s =
      (((s.setDecoded (frameValue s.cfg s.frame) (frameFc s.frame) (frameKind s.cfg s.frame)).setOutcome
        .success).appendReport (.value (frameFc s.frame) (frameKind s.cfg s.frame)
          (frameValue s.cfg s.frame))).setFrame (idleFrame s.frame) := by
  obtain ⟨axis, code, first, rest, ck, rfl, -, -, -, -, -, -, hck⟩ := hfr
  exact if_pos ((h.frameOk_eq (body := axis :: code :: first :: rest)).trans hck)

/-- R20: two frame buffers that hold the same bytes agree on the current frame, but for the expected length. -/
theorem Holds.sameFrame {f g : FrameBuf} {l : List Byte} (hf : Holds f l) (hg : Holds g l) :
    sameFrame f { g with expected := f.expected } :=
  ⟨Fin.ext (hf.1.trans hg.1.symm), rfl, fun i hi => Option.some.inj <| by
    rw [hf.1] at hi
    exact (hf.2 i hi).trans (hg.2 i hi).symm⟩

/-- R59: the count of a well-formed frame held in FRAME is the length that its code byte asks for. -/
theorem Holds.count_of_wellFormed {fr : List Byte} (hfr : wellFormedFrame fr) {f : FrameBuf} (h : Holds f fr) :
    f.count.val = frameLength f := by
  obtain ⟨axis, code, first, rest, ck, rfl, hlen, -⟩ := hfr
  have hcode : frameSlot f 1 = code := h.frameHolds 1 code rfl
  rw [frameLength, hcode, h.1, ← hlen]
  simp only [List.length_cons, List.length_append, List.length_nil]
  omega

/-- Settles O37: the truncated frame only moves the parser, and from every state the well-formed frame completes with
its own bytes, on which alone the function code and the value depend. -/
theorem parserResynchronises : Obligations.ParserResynchronises := by
  intro s p fr hp hfr
  obtain ⟨f₀, hskip⟩ := parseAll_truncated hp s
  obtain ⟨f, hafter, hf⟩ := parseAll_wellFormed (more := []) hfr (s := s.setFrame f₀)
    (.inl (List.append_nil fr).symm)
  obtain ⟨g, halone, hg⟩ := parseAll_wellFormed (more := []) hfr (s := s) (.inl (List.append_nil fr).symm)
  have hlen : f.count.val = frameLength f := hf.count_of_wellFormed hfr
  have hvalue : frameValue s.cfg f = frameValue s.cfg g := ((hf.sameFrame hg).value_eq hlen s.cfg).symm
  have hfc : frameFc f = frameFc g := ((hf.sameFrame hg).fc_eq (by rw [hlen, frameLength]; omega)).symm
  have hkind : frameKind s.cfg f = frameKind s.cfg g := congrArg (kindOf s.cfg) hfc
  rw [completeFrame_of_wellFormed hfr hf] at hafter
  rw [completeFrame_of_wellFormed hfr hg] at halone
  refine ⟨_, _, (parseAll_append hskip fr).trans hafter, halone, ?_⟩
  simp [hvalue, hfc, hkind]

/-! ## A pump -/

/-- R98: a byte that completes a frame leaves an outcome. -/
theorem parseByte_true_outcome {b : Byte} {s u : State} (h : parseByte b s = .next (true, u)) :
    u.outcome ≠ .inProgress := by
  rcases parseByte_cases h with ⟨hdone, -, -⟩ | ⟨-, -, rfl⟩
  · cases hdone
  · obtain ⟨-, -, -, -, hout, -⟩ := completeFrame_rest (s.setFrame (frameAfter b s.frame))
    exact hout

/-- R100: a round of the loop stops on a completed frame and otherwise goes on. -/
theorem pumpLoop_of_parse {n : Nat} {s u : State} {b : Byte} {r : RingBuf} {done : Bool}
    (hpop : ringPop s.ring = (some b, r)) (h : parseByte b (s.setRing r) = .next (done, u)) :
    pumpLoop (n + 1) s = if done then .next u else pumpLoop n u := by
  cases done with
  | false => simp [pumpLoop, hpop, h]
  | true => simp [pumpLoop, hpop, h, parseByte_true_outcome h]

/-- Settles O7: the instruction a byte decodes to is PARSE_BYTE of that byte, which is the loop's round. -/
theorem pumpRunsEachByteAsItsInstruction : Obligations.PumpRunsEachByteAsItsInstruction := by
  refine ⟨fun s d hd => ?_, fun n s hpop => ?_, fun n s t b r done hpop hexec hret => ?_⟩
  · cases hd; rfl
  · rcases ringPop_cases s.ring with ⟨hempty, -⟩ | ⟨b, -, hsome, -⟩
    · exact pumpLoop_of_empty n hempty
    · rw [hsome] at hpop; cases hpop
  · rw [exec_decodeRx] at hexec
    obtain ⟨done', u, hparse, rfl⟩ := parseByte_of_parseAlone hexec
    obtain rfl : done' = done := Ret.flag.inj hret
    have hu : (u.setRet (.flag done')).setRet s.ret = u := by
      obtain ⟨hrest, -⟩ := parseByte_rest hparse
      show { u with ret := s.ret } = u
      rw [← State.setRing_ret (s := s) r, ← hrest.ret]
    rw [hu]
    exact pumpLoop_of_parse hpop hparse

/-- Settles O38: a pump answers under the invariants, and it empties the ring or completes one frame. -/
theorem pumpTakesAtMostOneFrame : Obligations.PumpTakesAtMostOneFrame := by
  intro s hinv
  obtain ⟨t, hpump, -⟩ := pumpBody_answers hinv
  obtain ⟨hrest, hrx⟩ := pumpBody_rest hpump
  obtain ⟨r, f, hsuffix, hcase⟩ := pumpBody_cases hpump
  have hring : t.ring = r := by
    rcases hcase with ⟨rfl, -⟩ | ⟨-, rfl⟩
    · rfl
    · exact (completeFrame_rest _).2.1
  refine ⟨t, hpump, fun hb => (if_neg (by simp [hb])).trans hpump, hrest.busy, hrest.pumps, hrest.result, hrest.tx,
    hrest.cfg, hrest.host, hrest.reads, hrest.sleeps, hrest.ret, hrx, hring ▸ hsuffix, ?_⟩
  rcases hcase with ⟨rfl, hempty⟩ | ⟨-, rfl⟩
  · exact .inl ⟨hempty, rfl, rfl, rfl, rfl, rfl⟩
  · rcases completeFrame_cases (((s.setRx s.rx.tail).setRing r).setFrame f) with ⟨-, e⟩ | ⟨-, e⟩
    · rw [e]
      exact .inr ⟨rfl, .inl ⟨rfl, frameFc f, frameValue s.cfg f, rfl, rfl, rfl, rfl⟩⟩
    · rw [e]
      exact .inr ⟨rfl, .inr ⟨rfl, rfl, rfl, rfl, rfl⟩⟩

end Sys2Proof.Machine

/-! The orchestrator family: the frames that SEND, QUERY and the helpers transmit (R105 to R107, R114 to R121), commands
and reads while a QUERY is pending (R104, R113), the wait step and how a QUERY ends (R108 to R110), and the status
fields (R122, R123). -/

namespace Sys2Proof.Machine

/-! ## Operations of the host -/

/-- R104: with no QUERY pending an operation has its effect. -/
theorem whenReady_of_ready {s : State} (hb : s.busy = false) (t : State) : whenReady s t = t := if_neg (by simp [hb])

/-- R104: with a QUERY pending an operation is held. -/
theorem whenReady_of_busy {s : State} (hb : s.busy = true) (t : State) : whenReady s t = s := if_pos hb

theorem exec_send (F : FnCode) (A : Axis) (v : Word) (s : State) :
    exec (.send F A v) s = .next (whenReady s (buildAndSend F A v s)) := rfl

theorem exec_query (F : FnCode) (A : Axis) (s : State) : exec (.query F A) s = .next (queryIssue F A s) := rfl

/-- R107: what an accepted QUERY leaves. -/
theorem queryIssue_of_ready {s : State} (hb : s.busy = false) (F : FnCode) (A : Axis) : queryIssue F A s =
    ((buildAndSend F A 0#32 (s.setOutcome .inProgress)).setPumps 0).setBusy true := whenReady_of_ready hb _

/-- R66: a helper does what the SEND of its expansion does. -/
theorem exec_of_expandHelper {s : State} {i : Instr} {F : FnCode} {A : Axis} {v : Word}
    (h : expandHelper s.cfg i = some (F, A, v)) : exec i s = exec (.send F A v) s := by
  cases i with
  | moveabs | rotate | origin | setgain | setspeed | setaccel | enable | disable => cases h; rfl
  | _ => cases h

/-- Settles O16: the operation is not held. -/
theorem sendTransmitsAndChangesNothingElse : Obligations.SendTransmitsAndChangesNothingElse := by
  intro F A v s hb
  rw [exec_send, whenReady_of_ready hb]
  rfl

theorem exec_send_of_busy {s : State} (hb : s.busy = true) (F : FnCode) (A : Axis) (v : Word) :
    exec (.send F A v) s = .next s := by rw [exec_send, whenReady_of_busy hb]

/-- Settles O47: each helper is the SEND of its expansion. -/
theorem helpersTransmitOneFrame : Obligations.HelpersTransmitOneFrame := by
  intro A x s
  refine ⟨fun hb => ?_, fun hb => ?_⟩
  · have hsends {i : Instr} {F : FnCode} {v : Word} (hx : expandHelper s.cfg i = some (F, A, v)) :
        exec i s = .next { s with tx := s.tx ++ buildFrame F A v } :=
      (exec_of_expandHelper hx).trans (sendTransmitsAndChangesNothingElse F A v s hb)
    exact ⟨hsends rfl, hsends rfl, hsends rfl, hsends rfl, hsends rfl, clampSetter x, clampSetter_toInt x, hsends rfl,
      hsends rfl, hsends rfl⟩
  · have hheld {i : Instr} {F : FnCode} {v : Word} (hx : expandHelper s.cfg i = some (F, A, v)) : exec i s = .next s :=
      (exec_of_expandHelper hx).trans (exec_send_of_busy hb F A v)
    exact ⟨hheld rfl, hheld rfl, hheld rfl, hheld rfl, hheld rfl, hheld rfl, hheld rfl, hheld rfl⟩

/-! ## The bytes of a frame -/

/-- R53: the code byte of a frame by its length code. -/
theorem codeByte_ofNat {n : Nat} (hn : n < 4) (F : FnCode) :
    codeByte (BitVec.ofNat 2 n) F = 0x80#8 ||| (BitVec.ofNat 8 n <<< 5) ||| F.setWidth 8 := by
  rw [codeByte, BitVec.setWidth_ofNat_of_le_of_lt (by decide) hn]

/-- Settles O15: what is transmitted before the checksum is the frame's body. -/
theorem buildAndSendTransmitsTheFrame : Obligations.BuildAndSendTransmitsTheFrame := by
  intro F A v s p fr
  have hlen := encodeLen_bounds v
  have hbody : fr = frameBody F A v := by
    rw [frameBody, codeByte_ofNat (by omega), ← encodeValue_length]
    rfl
  show Host.Outcome.next (s.appendTx (frameBody F A v ++ [ckGen (frameBody F A v)])) = _
  rw [hbody, List.append_assoc]
  rfl

/-- R75: the groups of a value from 0 to 127: the lowest is the value itself, and the next is 0. -/
theorem encodeGroup_of_lt_128 {v : Word} (hv : v.toNat < 128) :
    encodeGroup v 0 = 0x80#8 ||| v.setWidth 8 ∧ encodeGroup v 1 = 0x80#8 := by
  refine ⟨?_, BitVec.eq_of_toNat_eq ?_⟩
  · have hgroup : (v.extractLsb' 0 7).setWidth 8 = v.setWidth 8 := BitVec.eq_of_toNat_eq (by simp; omega)
    rw [encodeGroup_eq v (by decide), contByte, hgroup]
  · rw [encodeGroup_toNat v (by decide), pow_one, Nat.div_eq_of_lt hv]; rfl

theorem toNat_lt_128_of_toInt {v : Word} (hlo : 0 ≤ v.toInt) (hhi : v.toInt < 128) : v.toNat < 128 := by
  rw [BitVec.toInt_eq_toNat_cond] at hlo hhi
  split at hlo <;> omega

/-- R74, R156: up to 63 a value takes one group. -/
theorem frameBody_of_lt_64 (F : FnCode) (A : Axis) {v : Word} (hlo : 0 ≤ v.toInt) (hhi : v.toInt < 64) :
    frameBody F A v = [startByte A, codeByte 0#2 F, 0x80#8 ||| v.setWidth 8] := by
  have hlen : encodeLen v = 1 := by have := encodeLen_cases v; omega
  obtain ⟨hlow, -⟩ := encodeGroup_of_lt_128 (toNat_lt_128_of_toInt hlo (by omega))
  rw [frameBody, encodeValue, hlen, ← hlow]
  rfl

/-- R74, R156: from 64 to 127 a value takes a second group, which is 0, for its sign. -/
theorem frameBody_of_64_le (F : FnCode) (A : Axis) {v : Word} (hlo : 64 ≤ v.toInt) (hhi : v.toInt < 128) :
    frameBody F A v = [startByte A, codeByte 1#2 F, 0x80#8, 0x80#8 ||| v.setWidth 8] := by
  have hlen : encodeLen v = 2 := by have := encodeLen_cases v; omega
  obtain ⟨hlow, hhigh⟩ := encodeGroup_of_lt_128 (toNat_lt_128_of_toInt (by omega) hhi)
  rw [frameBody, encodeValue, hlen, ← hlow, ← hhigh]
  rfl

/-- Settles O17: 0 is a value of one group, its byte 0x80. -/
theorem queryIssueSendsFourBytes : Obligations.QueryIssueSendsFourBytes := by
  intro F A s hb
  have hbody : frameBody F A 0#32 = [startByte A, codeByte 0#2 F, 0x80#8] :=
    frameBody_of_lt_64 F A (by decide) (by decide)
  have hck : ckGen (frameBody F A 0#32) = BitVec.ofNat 8 (128 + (A.toNat + F.toNat) % 128) := by
    apply BitVec.eq_of_toNat_eq
    rw [ckGen_toNat, hbody, BitVec.toNat_ofNat]
    simp only [List.map_cons, List.map_nil, List.sum_cons, List.sum_nil, startByte_toNat, codeByte_toNat,
      BitVec.toNat_ofNat]
    omega
  rw [exec_query, queryIssue_of_ready hb, buildAndSend, buildFrame, hck, hbody]
  rfl

/-- Settles O48: the clamped value lies in 1..127, and 63 is the last that one group carries with its sign. -/
theorem setterFramesGrowAbove63 : Obligations.SetterFramesGrowAbove63 := by
  intro F A x
  have hclamp := clampSetter_toInt x
  refine ⟨hclamp, fun h => ⟨ckGen (frameBody F A (clampSetter x)), ?_⟩,
    fun h => ⟨ckGen (frameBody F A (clampSetter x)), ?_⟩⟩
  · rw [buildFrame, frameBody_of_lt_64 F A (by omega) (by omega)]
    rfl
  · rw [buildFrame, frameBody_of_64_le F A (by omega) (by omega)]
    rfl

/-! ## While a QUERY is pending -/

@[simp] theorem afterPump_host (s : State) : (afterPump s).host = s.host := by
  rcases afterPump_cases s with ⟨-, -, e⟩ | ⟨-, -, e⟩ | ⟨-, e⟩ | ⟨-, -, e⟩ <;> rw [e] <;> rfl

theorem waitStep_host {s t : State} (h : waitStep s = .next t) : t.host = s.host := by
  rcases waitStep_cases h with ⟨-, rfl⟩ | ⟨-, u, hu, -, -, rfl⟩
  · rfl
  · obtain ⟨l, hl⟩ := sleepBetween_rest s
    rw [afterPump_host, State.setPumps_host, (pumpBody_rest hu).1.host, hl]

/-- Settles O8: a held command leaves the step to the wait step, which moves no action of the host. -/
theorem commandsAreHeldWhileBusy : Obligations.CommandsAreHeldWhileBusy := by
  intro s w rest hb hh
  rw [step_held hh hb]
  refine ⟨rfl, fun t => waitStep_host, waitStep_never_refuses s, fun hinv => waitStep_answers hinv.frame,
    fun F A v => ⟨exec_send_of_busy hb F A v, ?_, if_pos hb⟩⟩
  rw [exec_query, queryIssue, whenReady_of_busy hb]

/-- Settles O12: a read that answers only records its value. -/
theorem hostReadsChangeNothing : Obligations.HostReadsChangeNothing := by
  intro s t p rest hh
  refine ⟨fun hstep => ?_, fun h9 => ?_, fun hinv hb hp => ?_⟩
  · rw [step_read hh] at hstep
    obtain ⟨v, rfl⟩ := hostRead_next hstep
    exact ⟨sameEngine.refl s, rfl, rfl, rfl, rfl, rfl, rfl, v, rfl⟩
  · obtain ⟨k, rfl⟩ := Nat.exists_eq_add_of_le' h9
    exact ⟨.reservedPort (k + 9), step_read hh⟩
  · subst hp
    refine step_read_value hh ?_
    rw [readPort, (hinv.pending hb).1]
    rfl

/-! ## The wait step -/

theorem afterPump_of_success {s : State} (h : s.outcome = .success) :
    afterPump s = (s.setResult s.dval).setBusy false := by
  simp [afterPump, queryFinish, h]

theorem afterPump_of_error {s : State} (h : s.outcome = .checksumError ∨ s.outcome = .timeoutError) :
    afterPump s = (s.setResult (some Config.sentinel)).setBusy false := by
  rcases h with h | h <;> simp [afterPump, queryFinish, h]

theorem afterPump_of_bound {s : State} (h : s.outcome = .inProgress) (hp : s.pumps = s.cfg.maxPumps) :
    afterPump s = ((s.setOutcome .timeoutError).setResult (some Config.sentinel)).setBusy false := by
  simp [afterPump, queryFinish, h, hp]

theorem afterPump_of_room {s : State} (h : s.outcome = .inProgress) (hp : s.pumps ≠ s.cfg.maxPumps) :
    afterPump s = s := by
  simp [afterPump, h, hp]

/-- Settles O41, by the outcome that the pump leaves and the bound. -/
theorem waitStepEndsOnOutcomeOrBound : Obligations.WaitStepEndsOnOutcomeOrBound := by
  refine fun s hb => ⟨waitStep_answers, fun u hpump => ?_⟩
  have hu : pumpBody (sleepBetween s) = .next u := hpump
  have hcfg : u.cfg = s.cfg := by rw [(pumpBody_rest hu).1.cfg, sleepBetween_cfg]
  have hwait : exec .queryWait s = .next (afterPump (u.setPumps (s.pumps + 1))) := waitStep_of_pump hb hu
  rw [hwait]
  refine ⟨fun h => ?_, fun h => ?_, fun h hp => ?_, fun h hp => ?_⟩
  · rw [afterPump_of_success (s := u.setPumps (s.pumps + 1)) h]; rfl
  · rw [afterPump_of_error (s := u.setPumps (s.pumps + 1)) h]; rfl
  · rw [afterPump_of_bound (s := u.setPumps (s.pumps + 1)) h (hcfg ▸ hp)]; rfl
  · rw [afterPump_of_room (s := u.setPumps (s.pumps + 1)) h (hcfg ▸ hp)]; rfl

/-! ## How a QUERY ends -/

/-- R109, R110: the last wait step of a QUERY leaves an outcome and a result. -/
theorem waitStep_ended {s t : State} (h : Inv s) (hb : s.busy = true) (hw : waitStep s = .next t)
    (ht : t.busy = false) : t.outcome ≠ .inProgress ∧ t.result ≠ none := by
  rcases waitStep_cases hw with ⟨hb', -⟩ | ⟨-, u, hu, -, -, rfl⟩
  · rw [hb] at hb'; cases hb'
  · have hdata := pumpBody_data (sleepBetween_data h.data) hu
    have hbusy : u.busy = true := by
      obtain ⟨l, hl⟩ := sleepBetween_rest s
      rw [(pumpBody_rest hu).1.busy, hl]; exact hb
    rcases afterPump_cases (u.setPumps (s.pumps + 1)) with ⟨-, -, e⟩ | ⟨-, -, e⟩ | ⟨ho, e⟩ | ⟨ho, -, e⟩ <;>
      rw [e] at ht ⊢
    · rw [State.setPumps_busy, hbusy] at ht; cases ht
    · exact ⟨by simp, by simp⟩
    · exact ⟨by simp [show u.outcome = .success from ho], hdata.success ho⟩
    · exact ⟨ho, by simp⟩

/-- R108: a wait step of a pending QUERY counts one pump. -/
theorem waitStep_pumps {s t : State} (hb : s.busy = true) (hw : waitStep s = .next t) : t.pumps = s.pumps + 1 := by
  rcases waitStep_cases hw with ⟨hb', -⟩ | ⟨-, u, -, -, -, rfl⟩
  · rw [hb] at hb'; cases hb'
  · rw [afterPump_pumps, State.setPumps_pumps]

/-- The first wait step, and then the others. -/
theorem waitSteps_succ {s t : State} (h : waitStep s = .next t) (n : Nat) : waitSteps (n + 1) s = waitSteps n t := by
  have h' : exec .queryWait s = .next t := h
  simp only [waitSteps, h']

/-- R113: after any number of wait steps below `n` the QUERY is still pending, and its pumps are counted. -/
def PendingFor (n : Nat) (s : State) : Prop :=
  ∀ m, m < n → ∃ w, waitSteps m s = .next w ∧ w.busy = true ∧ w.outcome = .inProgress ∧ w.pumps = s.pumps + m

theorem PendingFor.succ {n : Nat} {s t : State} (hb : s.busy = true) (ho : s.outcome = .inProgress)
    (hw : waitStep s = .next t) (h : PendingFor n t) : PendingFor (n + 1) s := by
  intro m hm
  cases m with
  | zero => exact ⟨s, rfl, hb, ho, rfl⟩
  | succ m =>
    obtain ⟨w, hsteps, hbusy, hout, hpumps⟩ := h m (by omega)
    refine ⟨w, (waitSteps_succ hw m).trans hsteps, hbusy, hout, ?_⟩
    rw [hpumps, waitStep_pumps hb hw]
    omega

/-- R108, R109: a pending QUERY with `k` pumps left ends within `k` wait steps. -/
theorem waitSteps_end {k : Nat} {s : State} (h : Inv s) (hb : s.busy = true) (hk : s.pumps + k = s.cfg.maxPumps) :
    ∃ n u, 1 ≤ n ∧ n ≤ k ∧ waitSteps n s = .next u ∧ u.busy = false ∧ u.pumps = s.pumps + n ∧
      u.outcome ≠ .inProgress ∧ u.result ≠ none ∧ PendingFor n s := by
  obtain ⟨hout, hroom⟩ := h.pending hb
  induction k generalizing s with
  | zero => omega
  | succ k ih =>
    obtain ⟨t, ht⟩ := waitStep_answers h.frame
    have hpumps := waitStep_pumps hb ht
    cases htb : t.busy with
    | false =>
      obtain ⟨hto, htr⟩ := waitStep_ended h hb ht htb
      refine ⟨1, t, le_rfl, by omega, waitSteps_succ ht 0, htb, hpumps, hto, htr, ?_⟩
      exact PendingFor.succ (n := 0) hb hout ht nofun
    | true =>
      have hti := waitStep_inv h ht
      obtain ⟨hto, htroom⟩ := hti.pending htb
      obtain ⟨n, u, h1, hnk, hsteps, hub, hup, huo, hur, hpending⟩ :=
        ih hti htb (by rw [waitStep_cfg ht]; omega) hto htroom
      exact ⟨n + 1, u, by omega, by omega, (waitSteps_succ ht n).trans hsteps, hub, by omega, huo, hur,
        hpending.succ hb hout ht⟩

/-- Settles O43: the issued QUERY has `MAX_PUMPS` pumps left. -/
theorem queryEndsWithinMaxPumps : Obligations.QueryEndsWithinMaxPumps := by
  intro F A s h hb
  have hissue := queryIssue_of_ready hb F A
  have hinv := queryIssue_inv h F A
  rw [hissue] at hinv
  obtain ⟨n, u, h1, hn, hsteps, hub, hup, huo, hur, hpending⟩ := waitSteps_end hinv rfl (Nat.zero_add _)
  refine ⟨_, n, u, congrArg Host.Outcome.next hissue, h1, hn, hsteps, hub, hup.trans (Nat.zero_add n), huo, hur, ?_⟩
  simpa [PendingFor] using hpending

/-! ## A silent transport -/

/-- R47: nothing is unread, and no drain to come offers a byte. -/
def Silent (s : State) : Prop := ringBytes s.ring = [] ∧ ∀ l ∈ s.rx, l = []

/-- R100: the pump of a silent transport only takes its empty list. -/
theorem pumpBody_of_silent {s : State} (h : Silent s) : pumpBody s = .next (s.setRx s.rx.tail) := by
  obtain ⟨hring, hrx⟩ := h
  have hdraw : s.rx.headD [] = [] := by
    cases hl : s.rx with
    | nil => rfl
    | cons l rest => exact hrx l (by simp [hl])
  have hdrain : drainStep s = s.setRx s.rx.tail := by rw [drainStep_eq, hdraw]; rfl
  rw [pumpBody, hdrain]
  exact pumpLoop_of_empty _ hring

/-- A pending QUERY after wait steps with a silent transport: `n` pumps are counted. -/
def silentWait (s : State) (rx : List (List Byte)) (sleeps : List Nat) (n : Nat) : State :=
  { s with rx := rx, sleeps := sleeps, pumps := n }

/-- R108: the wait step of a pending QUERY with a silent transport only takes a list, sleeps and counts its pump. -/
theorem waitStep_of_silent {s : State} (h : Silent s) (hb : s.busy = true) :
    ∃ l, waitStep s = .next (afterPump (silentWait s s.rx.tail l (s.pumps + 1))) := by
  obtain ⟨l, hl⟩ := sleepBetween_rest s
  refine ⟨l, waitStep_of_pump (u := silentWait s s.rx.tail l s.pumps) hb ?_⟩
  rw [hl]
  exact pumpBody_of_silent (s := { s with sleeps := l }) h

/-- R109: with `k + 1` pumps left and a silent transport, a QUERY is pending up to its last wait step, which ends it
with TimeoutError and the sentinel. -/
theorem waitSteps_of_silent {k : Nat} {s : State} (h : Silent s) (hb : s.busy = true) (ho : s.outcome = .inProgress)
    (hk : s.pumps + (k + 1) = s.cfg.maxPumps) :
    PendingFor (k + 1) s ∧ ∃ rx l, waitSteps (k + 1) s =
      .next ((((silentWait s rx l s.cfg.maxPumps).setOutcome .timeoutError).setResult
        (some Config.sentinel)).setBusy false) := by
  induction k generalizing s with
  | zero =>
    obtain ⟨l, hw⟩ := waitStep_of_silent h hb
    rw [hk, afterPump_of_bound (s := silentWait s s.rx.tail l s.cfg.maxPumps) ho rfl] at hw
    exact ⟨PendingFor.succ hb ho hw nofun, s.rx.tail, l, waitSteps_succ hw 0⟩
  | succ k ih =>
    obtain ⟨l, hw⟩ := waitStep_of_silent h hb
    rw [afterPump_of_room (s := silentWait s s.rx.tail l (s.pumps + 1)) ho (by simp only [silentWait]; omega)] at hw
    have hsilent : Silent (silentWait s s.rx.tail l (s.pumps + 1)) :=
      ⟨h.1, fun l hl => h.2 l (List.mem_of_mem_tail hl)⟩
    obtain ⟨hpending, rx, l', hsteps⟩ := ih hsilent hb ho (by simp only [silentWait]; omega)
    exact ⟨hpending.succ hb ho hw, rx, l', (waitSteps_succ hw _).trans hsteps⟩

/-- Settles O44: the issued QUERY has `MAX_PUMPS` pumps left, at least one. -/
theorem silentTransportTimesOut : Obligations.SilentTransportTimesOut := by
  intro F A s hwf hb hring hrx
  obtain ⟨k, hk⟩ : ∃ k, s.cfg.maxPumps = k + 1 := Nat.exists_eq_add_of_le' hwf
  have hissue := queryIssue_of_ready hb F A
  have hsilent : Silent (queryIssue F A s) := by rw [hissue]; exact ⟨hring, hrx⟩
  have hout : (queryIssue F A s).outcome = .inProgress := by rw [hissue]; rfl
  have hleft : (queryIssue F A s).pumps + (k + 1) = (queryIssue F A s).cfg.maxPumps := by
    rw [queryIssue_cfg, hk, hissue, State.setBusy_pumps, State.setPumps_pumps, Nat.zero_add]
  obtain ⟨hpending, rx, l, hsteps⟩ := waitSteps_of_silent hsilent (queryIssue_busy F A s) hout hleft
  rw [← hk] at hpending hsteps
  obtain ⟨hframe, hdval, hdfc, hdkind, hreports⟩ : (queryIssue F A s).frame = s.frame ∧
      (queryIssue F A s).dval = s.dval ∧ (queryIssue F A s).dfc = s.dfc ∧ (queryIssue F A s).dkind = s.dkind ∧
      (queryIssue F A s).reports = s.reports := by
    rw [hissue]; exact ⟨rfl, rfl, rfl, rfl, rfl⟩
  refine ⟨_, _, exec_query F A s, hsteps, rfl, rfl, rfl, congrArg Params.maxPumps (queryIssue_cfg F A s), hframe,
    hsilent.1, hdval, hdfc, hdkind, hreports, fun m hm => ?_⟩
  obtain ⟨w, hw, hbusy, hout, -⟩ := hpending m hm
  exact ⟨w, hw, hbusy, hout⟩

/-! ## Status fields and alarm classes -/

theorem exec_statusDecode (v : Word) (s : State) :
    exec (.statusDecode v) s = .next (s.setRet (.status (statusOf v))) := rfl

theorem exec_alarmClass (a : BitVec 3) (s : State) :
    exec (.alarmClass a) s = .next (s.setRet (.alarm (alarmFatal a) (alarmAdvisory a))) := rfl

theorem alarmFatal_iff (a : BitVec 3) : alarmFatal a = true ↔ 1 ≤ a.toNat ∧ a.toNat ≤ 3 := by
  revert a; decide

theorem alarmAdvisory_iff (a : BitVec 3) : alarmAdvisory a = true ↔ 4 ≤ a.toNat := by
  revert a; decide

theorem getLsbD_iff (v : Word) (i : Nat) : v.getLsbD i = true ↔ v.toNat / 2 ^ i % 2 = 1 := by
  rw [← BitVec.testBit_toNat, Nat.testBit_eq_decide_div_mod_eq, decide_eq_true_iff]

/-- Settles O49: each field is a bit or three bits of the value. -/
theorem statusFieldsAndAlarmClasses : Obligations.StatusFieldsAndAlarmClasses := by
  refine ⟨fun v s => ⟨statusOf v, exec_statusDecode v s, ?_, getLsbD_iff v 1, ?_, getLsbD_iff v 5, getLsbD_iff v 6,
    exec_alarmClass _ s⟩, fun a s => ⟨_, _, exec_alarmClass a s, alarmFatal_iff a, alarmAdvisory_iff a⟩⟩
  · rw [← Nat.div_one v.toNat]
    exact getLsbD_iff v 0
  · rw [statusOf, BitVec.extractLsb'_toNat, Nat.shiftRight_eq_div_pow]

end Sys2Proof.Machine

/-! The exceptions family: how TimeoutError is raised (R127), the operations that are refused (R130), and the restart
(R142, R143). -/

namespace Sys2Proof.Machine

/-! ## What raises TimeoutError -/

@[simp] theorem sendStep_outcome (F : FnCode) (A : Axis) (v : Word) (s : State) :
    (sendStep F A v s).outcome = s.outcome := by
  rcases whenReady_cases s (buildAndSend F A v s) with ⟨-, e⟩ | ⟨-, e⟩ <;> rw [sendStep, e]
  rfl

@[simp] theorem drainStep_outcome (s : State) : (drainStep s).outcome = s.outcome := by rw [drainStep_eq]; rfl

@[simp] theorem sleepBetween_outcome (s : State) : (sleepBetween s).outcome = s.outcome := by
  obtain ⟨l, hl⟩ := sleepBetween_rest s
  rw [hl]

/-- R107: an accepted QUERY is InProgress, and a held one leaves the outcome. -/
theorem queryIssue_timeout {F : FnCode} {A : Axis} {s : State} (ht : (queryIssue F A s).outcome = .timeoutError) :
    s.outcome = .timeoutError := by
  cases hb : s.busy with
  | true => rwa [queryIssue, whenReady_of_busy hb] at ht
  | false => rw [queryIssue_of_ready hb] at ht; cases ht

/-- R97, R98: a byte leaves the outcome, or COMPLETE writes it. -/
theorem parseByte_timeout {b : Byte} {s t : State} {done : Bool} (h : parseByte b s = .next (done, t))
    (ht : t.outcome = .timeoutError) : s.outcome = .timeoutError := by
  rcases parseByte_cases h with ⟨-, -, rfl⟩ | ⟨-, -, rfl⟩
  · exact ht
  · obtain ⟨-, -, -, -, -, hne⟩ := completeFrame_rest (s.setFrame (frameAfter b s.frame))
    exact absurd ht hne

/-- R97, R98: a pump leaves the outcome, or writes Success or ChecksumError. -/
theorem pumpBody_outcome_eq {s t : State} (h : pumpBody s = .next t) (hs : t.outcome ≠ .success)
    (hc : t.outcome ≠ .checksumError) : s.outcome = t.outcome := by
  rcases pumpBody_outcome h with ⟨ho, -⟩ | ⟨ho, -⟩ | ⟨ho, -⟩
  · exact ho.symm
  · exact absurd ho hs
  · exact absurd ho hc

theorem pumpBody_timeout {s t : State} (h : pumpBody s = .next t) (ht : t.outcome = .timeoutError) :
    s.outcome = .timeoutError := by
  rw [pumpBody_outcome_eq h (by simp [ht]) (by simp [ht]), ht]

/-- R127: no instruction but the wait step raises TimeoutError. -/
theorem exec_timeout {i : Instr} {s t : State} (h : exec i s = .next t) (ht : t.outcome = .timeoutError) :
    i = .queryWait ∨ s.outcome = .timeoutError := by
  cases exec_effect h with
  | send | helper => rw [sendStep_outcome] at ht; exact .inr ht
  | buildAndSend => exact .inr ht
  | query => exact .inr (queryIssue_timeout ht)
  | queryWait => exact .inl rfl
  | queryFinish => exact .inr ht
  | pump _ hp => exact .inr (pumpBody_timeout hp ht)
  | pumpHeld => exact .inr ht
  | pumpBody hp => exact .inr (pumpBody_timeout hp ht)
  | drain => rw [drainStep_outcome] at ht; exact .inr ht
  | parse hp => exact .inr (parseByte_timeout hp ht)
  | complete =>
    obtain ⟨-, -, -, -, -, hne⟩ := completeFrame_rest s
    exact absurd ht hne
  | incomplete | push | pop | record => exact .inr ht

/-- R108, R109: TimeoutError after the pump of a wait step was there before, or is the bound's, which ends the QUERY
with the sentinel. -/
theorem afterPump_timeout {s : State} (ht : (afterPump s).outcome = .timeoutError) :
    s.outcome = .timeoutError ∨
      (s.outcome = .inProgress ∧ s.pumps = s.cfg.maxPumps ∧
        afterPump s = ((s.setOutcome .timeoutError).setResult (some Config.sentinel)).setBusy false) := by
  rcases afterPump_cases s with ⟨-, -, e⟩ | hbound | ⟨-, e⟩ | ⟨-, -, e⟩
  · rw [e] at ht; exact .inl ht
  · exact .inr hbound
  · rw [e] at ht; exact .inl ht
  · rw [e] at ht; exact .inl ht

/-- Settles O46: only the wait step can, and only by its bound, at which the pump has left InProgress. -/
theorem onlyTheLastWaitStepTimesOut : Obligations.OnlyTheLastWaitStepTimesOut := by
  intro i s t h ht hs
  obtain rfl : i = .queryWait := (exec_timeout h ht).resolve_right hs
  rcases waitStep_cases h with ⟨-, rfl⟩ | ⟨hb, u, hu, -, hcfg, rfl⟩
  · exact absurd ht hs
  · rcases afterPump_timeout ht with hto | ⟨ho, hmax, e⟩
    · exact absurd (sleepBetween_outcome s ▸ pumpBody_timeout hu hto) hs
    · have hu' : u.outcome = .inProgress := ho
      have hin : s.outcome = .inProgress := by
        rw [← sleepBetween_outcome, pumpBody_outcome_eq hu (by simp [hu']) (by simp [hu']), hu']
      have hbound : s.pumps + 1 = s.cfg.maxPumps := hcfg ▸ hmax
      rw [e]
      exact ⟨rfl, hb, hin, rfl, hbound, rfl, rfl⟩

/-! ## Refused operations -/

/-- A match under a mask fixes the bits under every part of the mask. -/
theorem and_of_mask {w m p m' : Cmd} (h : w &&& m = p) (hm : m &&& m' = m') : w &&& m' = p &&& m' := by
  rw [← h, BitVec.and_assoc, hm]

/-- R64: a word that decodes has op = 3, or clear reserved and unused fields. -/
theorem fields_of_decodeCmd {w : Cmd} {i : Instr} (h : decodeCmd w = some i) :
    w &&& 3#48 = 3#48 ∨
      (w &&& 0xC000#48 = 0#48 ∧
        (w &&& 3#48 = 0#48 ∨ (w &&& 3#48 = 1#48 ∧ w &&& 0xFFFFFFFF0000#48 = 0#48) ∨ w = 2#48)) := by
  have hrow := fits_of_decodeCmd Config.openParams h
  rcases decodeCmd_cases h with ⟨rest, rfl⟩ | ⟨F, A, v, rfl⟩ | ⟨F, A, rfl⟩ | rfl
  · exact .inl (eq_of_beq (hrow (Laws.TableRow.reservedOp3 rest)))
  · have hmask : w &&& 0x00000000C003#48 = 0#48 := eq_of_beq (hrow (Laws.TableRow.send F A v))
    exact .inr ⟨and_of_mask hmask rfl, .inl (and_of_mask hmask rfl)⟩
  · have hmask : w &&& 0xFFFFFFFFC003#48 = 1#48 := eq_of_beq (hrow (Laws.TableRow.query F A))
    exact .inr ⟨and_of_mask hmask rfl, .inr (.inl ⟨and_of_mask hmask rfl, and_of_mask hmask rfl⟩)⟩
  · have hmask : w &&& 0xFFFFFFFFFFFF#48 = 2#48 := eq_of_beq (hrow Laws.TableRow.pump)
    exact .inr ⟨and_of_mask hmask rfl, .inr (.inr (BitVec.and_allOnes.symm.trans hmask))⟩

/-- R64, R130: a nonzero reserved or unused field leaves a word undecoded. -/
theorem decodeCmd_eq_none_of_fields {w : Cmd} (h3 : w &&& 3#48 ≠ 3#48)
    (h : w &&& 0xC000#48 ≠ 0#48 ∨ (w &&& 3#48 = 1#48 ∧ w &&& 0xFFFFFFFF0000#48 ≠ 0#48) ∨
      (w &&& 3#48 = 2#48 ∧ w ≠ 2#48)) : decodeCmd w = none := by
  refine Option.eq_none_iff_forall_ne_some.2 fun i hi => ?_
  obtain ⟨hrsv, hop⟩ := (fields_of_decodeCmd hi).resolve_left h3
  rcases h with hr | ⟨h1, hv⟩ | ⟨h2, hw⟩
  · exact hr hrsv
  · rcases hop with h0 | ⟨-, hv'⟩ | rfl
    · rw [h1] at h0; cases h0
    · exact hv hv'
    · cases h1
  · rcases hop with h0 | ⟨h1, -⟩ | hw'
    · rw [h2] at h0; cases h0
    · rw [h2] at h1; cases h1
    · exact hw hw'

theorem exec_reservedOp3 (rest : BitVec 46) (s : State) :
    exec (.reservedOp3 rest) s = .refused (.reservedCommand (rest ++ 3#2)) := rfl

/-- R130: a word with op = 3 is refused with its mark by a ready engine. -/
theorem step_reserved {s : State} {w : Cmd} {rest : List HostAction} (h : s.host = .command w :: rest)
    (hb : s.busy = false) (hw : w &&& 3#48 = 3#48) : step s = .refused (.reservedCommand w) := by
  have hd := decodeCmd_of_reservedOp3 (cmdOp_of_mask hw rfl)
  rw [step_accepts h hb hd, exec_reservedOp3, decodeCmd_reserved hd]

theorem hostRead_reserved {p : Nat} (h : 9 ≤ p) (s : State) : hostRead p s = .refused (.reservedPort p) := by
  obtain ⟨k, rfl⟩ := Nat.exists_eq_add_of_le' h
  rfl

/-- Settles O9, by what the host presents. -/
theorem reservedOperationsAreRefused : Obligations.ReservedOperationsAreRefused := by
  refine ⟨exec_reservedOp3, fun s w rest hb hh => step_reserved hh hb, fun s w rest hb hh h3 h => ?_,
    fun s p rest hh h9 => ?_⟩
  · exact step_undecoded hh hb (decodeCmd_eq_none_of_fields h3 h)
  · rw [step_read hh, hostRead_reserved h9]

/-! ## Restart -/

/-- Settles O51: the action taken, the restart builds the new engine over the same configuration. -/
theorem restartKeepsTheTransport : Obligations.RestartKeepsTheTransport := fun _ _ hh => step_restart hh

end Sys2Proof.Machine

namespace Sys2Proof.Machine

/-! ## Reset -/

/-- Settles O50: the fields are those `State.resetWith` writes (R143), and R8 is the invariant's part at reset. -/
theorem resetLeavesTheEngineEmpty : Obligations.ResetLeavesTheEngineEmpty :=
  ⟨rfl, rfl, rfl, rfl, rfl, rfl, rfl, rfl, rfl, rfl, rfl, rfl, rfl, resetSatisfiesTheInvariant.params⟩

end Sys2Proof.Machine
